-- ==== Sys2Proof/Word.lean ====
section
/-! DEFINITION. The word types of FWP9 and the size of its data memory's address space. -/

namespace Sys2Proof

/-- A 32-bit register or element word (rule R8, REG_W and ELEM_BYTES). -/
abbrev Word := BitVec 32

/-- A byte of the data memory (rule R48). -/
abbrev Byte := BitVec 8

/-- A 9-bit group of the payload (rules R8, R78). -/
abbrev Group := BitVec 9

/-- The data memory is one flat space of 2^32 bytes (rule R48). -/
abbrev addrSpace : Nat := 4294967296

end Sys2Proof
end

