-- ==== Sys2Proof/Config.lean ====
section
/-! DEFINITION. What the spec fixes as constants (rule R8), the platform's parameters (rule R9), and the
values the spec leaves open: constants without a body, of which nothing can be proved. -/

namespace Sys2Proof

/-- ID's constant value, the ASCII codes of "FWP9" (rule R19). -/
def Config.idValue : Word := 0x46575039#32

/-- The smallest element ENCODE accepts, VMIN (rule R8). -/
abbrev Config.vMin : Nat := 1

/-- The largest element ENCODE accepts, VMAX (rule R8). -/
abbrev Config.vMax : Nat := 300

/-- The size of the register window in bytes (rules R8, R18). -/
abbrev Config.windowBytes : Nat := 0x40

/-- The byte the data memory holds at an address from power-up until it is written: any value (rule R162,
table I5). DESIGN CHOICE, log entry 10, safe: a free value, one per address. -/
opaque Config.powerUpByte : Nat → Byte

/-- The n-th free byte: a destination byte after a reset in mid-transaction (rule R163). Log entry 14, safe. -/
opaque Config.freeByte : Nat → Byte

/-- The n-th free choice among the values a race admits for a byte (rule R67). Log entries 11, 12 and 13,
safe. -/
opaque Config.freeChoice : Nat → Nat

/-- A run of addresses the block's master port can reach. -/
structure Region where
  base : Nat
  size : Nat
  deriving DecidableEq, Repr

/-- The platform's parameters (rule R9): BASE, and RAM(a) as a list of regions. Every set of addresses of the
finite data memory is such a list. -/
structure Platform where
  base : Nat
  ram  : List Region
  deriving DecidableEq, Repr

end Sys2Proof
end

