-- ==== Sys2Proof/Syntax.lean ====
section
/-! DEFINITION. The instructions of FWP9 (one constructor per row of spec/opcode_table.json), the host accesses
that encode them, and the events that reach the block. -/

namespace Sys2Proof

/-- The two operations (rule R2), as the OP field of a valid command word names them (rule R72). -/
inductive Cmd where
  | encode
  | decode
  deriving DecidableEq, Repr

/-- The direction of a host access, with the word a write carries (rule R83). -/
inductive Direction where
  | read
  | write (data : Word)
  deriving DecidableEq, Repr

/-- One bus access by the host: its bus address, its width in bytes, its direction (rules R55, R83). -/
structure BusAccess where
  addr  : Nat
  bytes : Nat
  dir   : Direction
  deriving DecidableEq, Repr

/-- The rows of the opcode table: the two command words (rules R109, R120) and the read and the write of each of
the sixteen registers (rules R133 to R141). -/
inductive Instr where
  | encode
  | decode
  | rdId
  | wrId (w : Word)
  | rdCmd
  | wrCmd (w : Word)
  | rdStatus
  | wrStatus (w : Word)
  | rdIrqEn
  | wrIrqEn (w : Word)
  | rdSrcAddr
  | wrSrcAddr (w : Word)
  | rdSrcLen
  | wrSrcLen (w : Word)
  | rdDstAddr
  | wrDstAddr (w : Word)
  | rdDstCap
  | wrDstCap (w : Word)
  | rdCount
  | wrCount (w : Word)
  | rdOutLen
  | wrOutLen (w : Word)
  | rdErrIndex
  | wrErrIndex (w : Word)
  | rdErrValue
  | wrErrValue (w : Word)
  | rdAcc
  | wrAcc (w : Word)
  | rdHeld
  | wrHeld (w : Word)
  | rdInPos
  | wrInPos (w : Word)
  | rdOutPos
  | wrOutPos (w : Word)
  deriving DecidableEq, Repr

/-- What can happen next around the block (rules R10, R162): a turn of the block itself, a host access to the
bus, a byte of the shared data memory read or written by the host or another bus master, a reset. -/
inductive Event where
  | block
  | bus (access : BusAccess)
  | hostRead (addr : Nat)
  | hostWrite (addr : Nat) (value : Byte)
  | reset
  deriving DecidableEq, Repr

/-- Why a bus access is not an admitted access to the register window (rule R55). -/
inductive Reject where
  /-- The bus address lies outside the 0x40 bytes at BASE. -/
  | outsideWindow
  /-- The access is not 32 bits wide. -/
  | notWord
  /-- The offset is not a multiple of 4. -/
  | misaligned
  deriving DecidableEq, Repr

/-- What the decoder makes of a bus access. -/
inductive Decoded where
  | ok (i : Instr)
  | rejected (r : Reject)
  deriving DecidableEq, Repr

end Sys2Proof
end

