-- ==== Sys2Proof/WellFormed.lean ====
section
/-! DEFINITION. Which instructions and platforms are well formed. -/

namespace Sys2Proof

/-- A write of a valid command word to CMD is ENCODE or DECODE (rule R73); WR_CMD stands for every other word.
DESIGN CHOICE, log entry 5, safe: `Machine.execWrCmd` has its meaning for every word all the same. -/
def Instr.wellFormed : Instr → Bool
  | .wrCmd w => w != 1#32 && w != 2#32
  | _ => true

/-- BASE is a multiple of 0x40 (rule R9). -/
def Platform.wellFormed (p : Platform) : Bool :=
  p.base % Config.windowBytes == 0

end Sys2Proof
end

