-- ==== Sys2Proof/Decode.lean ====
section
/-! DEFINITION. Decoding a host access, and after it the encoder, from the same table (rules R18, R55, R72 to R75,
R83). -/

namespace Sys2Proof

/-- Rule R74: `decode_cmd`, total over all words; `none` is Reserved. -/
def decodeCmd (w : Word) : Option Cmd :=
  if w.extractLsb' 4 28 ≠ 0#28 then none
  else if w.extractLsb' 0 4 = 1#4 then some .encode
  else if w.extractLsb' 0 4 = 2#4 then some .decode
  else none

/-- A 32-bit write of w to CMD: ENCODE, DECODE, or the write of a reserved word (rules R73, R134). -/
def decodeCmdWrite (w : Word) : Instr :=
  match decodeCmd w with
  | some .encode => .encode
  | some .decode => .decode
  | none => .wrCmd w

/-- The read of register number k, the register at offset 4k (rule R18). -/
def decodeRead (k : Nat) : Decoded :=
  match k with
  | 0 => .ok .rdId
  | 1 => .ok .rdCmd
  | 2 => .ok .rdStatus
  | 3 => .ok .rdIrqEn
  | 4 => .ok .rdSrcAddr
  | 5 => .ok .rdSrcLen
  | 6 => .ok .rdDstAddr
  | 7 => .ok .rdDstCap
  | 8 => .ok .rdCount
  | 9 => .ok .rdOutLen
  | 10 => .ok .rdErrIndex
  | 11 => .ok .rdErrValue
  | 12 => .ok .rdAcc
  | 13 => .ok .rdHeld
  | 14 => .ok .rdInPos
  | 15 => .ok .rdOutPos
  | _ => .rejected .outsideWindow

/-- The write of w to register number k, the register at offset 4k (rule R18). -/
def decodeWrite (k : Nat) (w : Word) : Decoded :=
  match k with
  | 0 => .ok (.wrId w)
  | 1 => .ok (decodeCmdWrite w)
  | 2 => .ok (.wrStatus w)
  | 3 => .ok (.wrIrqEn w)
  | 4 => .ok (.wrSrcAddr w)
  | 5 => .ok (.wrSrcLen w)
  | 6 => .ok (.wrDstAddr w)
  | 7 => .ok (.wrDstCap w)
  | 8 => .ok (.wrCount w)
  | 9 => .ok (.wrOutLen w)
  | 10 => .ok (.wrErrIndex w)
  | 11 => .ok (.wrErrValue w)
  | 12 => .ok (.wrAcc w)
  | 13 => .ok (.wrHeld w)
  | 14 => .ok (.wrInPos w)
  | 15 => .ok (.wrOutPos w)
  | _ => .rejected .outsideWindow

/-- The instruction a bus access stands for, with the window at `base`; every other access is rejected by name
(rules R55, R83). -/
def decodeAccess (base : Nat) (a : BusAccess) : Decoded :=
  if a.addr < base ∨ base + Config.windowBytes ≤ a.addr then .rejected .outsideWindow
  else if a.bytes ≠ 4 then .rejected .notWord
  else if (a.addr - base) % 4 ≠ 0 then .rejected .misaligned
  else
    match a.dir with
    | .read => decodeRead ((a.addr - base) / 4)
    | .write w => decodeWrite ((a.addr - base) / 4) w

/-- The offset of the register an instruction accesses (rule R18); a command word is written to CMD. -/
def Instr.offset : Instr → Nat
  | .rdId | .wrId _ => 0x00
  | .encode | .decode | .rdCmd | .wrCmd _ => 0x04
  | .rdStatus | .wrStatus _ => 0x08
  | .rdIrqEn | .wrIrqEn _ => 0x0C
  | .rdSrcAddr | .wrSrcAddr _ => 0x10
  | .rdSrcLen | .wrSrcLen _ => 0x14
  | .rdDstAddr | .wrDstAddr _ => 0x18
  | .rdDstCap | .wrDstCap _ => 0x1C
  | .rdCount | .wrCount _ => 0x20
  | .rdOutLen | .wrOutLen _ => 0x24
  | .rdErrIndex | .wrErrIndex _ => 0x28
  | .rdErrValue | .wrErrValue _ => 0x2C
  | .rdAcc | .wrAcc _ => 0x30
  | .rdHeld | .wrHeld _ => 0x34
  | .rdInPos | .wrInPos _ => 0x38
  | .rdOutPos | .wrOutPos _ => 0x3C

/-- The direction of an instruction's access, with the word it writes (rules R72, R73, R83). -/
def Instr.direction : Instr → Direction
  | .encode => .write 1#32
  | .decode => .write 2#32
  | .rdId | .rdCmd | .rdStatus | .rdIrqEn | .rdSrcAddr | .rdSrcLen | .rdDstAddr | .rdDstCap
  | .rdCount | .rdOutLen | .rdErrIndex | .rdErrValue | .rdAcc | .rdHeld | .rdInPos | .rdOutPos => .read
  | .wrId w | .wrCmd w | .wrStatus w | .wrIrqEn w | .wrSrcAddr w | .wrSrcLen w | .wrDstAddr w | .wrDstCap w
  | .wrCount w | .wrOutLen w | .wrErrIndex w | .wrErrValue w | .wrAcc w | .wrHeld w | .wrInPos w | .wrOutPos w =>
    .write w

/-- The bus access of an instruction, with the window at `base` (rule R83). -/
def encodeAccess (base : Nat) (i : Instr) : BusAccess :=
  { addr := base + i.offset, bytes := 4, dir := i.direction }

/-- The access that the opcode table's number `w` of `nbits` bits stands for. A row of 32 bits is a command word,
written to CMD (rule R72). Every other row is a host access: bits [5:0] are its offset (rule R83). The table gives
the direction and the data no bits: DESIGN CHOICE, log entry 4, safe: bit 6 is the direction (0 read, 1 write) and
bits [39:8] are the data written. -/
def accessOfTableWord (base nbits w : Nat) : BusAccess :=
  if nbits = 32 then { addr := base + 0x04, bytes := 4, dir := .write (BitVec.ofNat 32 w) }
  else
    { addr := base + w % 64, bytes := 4,
      dir := if w / 64 % 2 = 0 then .read else .write (BitVec.ofNat 32 (w / 256)) }

/-- A host access numbered as `accessOfTableWord` reads it: 40 bits. -/
def Instr.tableWord (i : Instr) : Nat :=
  match i.direction with
  | .read => i.offset
  | .write w => i.offset + 64 + 256 * w.toNat

/-- What the decoder reads from the opcode table's number `w` of `nbits` bits. -/
def decodeTableWord (nbits w : Nat) : Option Instr :=
  match decodeAccess 0 (accessOfTableWord 0 nbits w) with
  | .ok i => some i
  | .rejected _ => none

end Sys2Proof
end

