-- ==== Sys2Proof/Machine/State.lean ====
section
/-! DEFINITION. The state of the machine, the reasons a step can stop, and the state after reset. -/

namespace Sys2Proof.Machine

/-- STATUS.PHASE: the micro-step the block takes next (rule R28). The codes 12 to 15 never appear. -/
inductive Phase where
  | idle
  | eCheck
  | eValidate
  | eHeader
  | eLoad
  | eEmit
  | eFlush
  | dCheck0
  | dHeader
  | dCheck
  | dFill
  | dExtract
  deriving DecidableEq, Repr

/-- The error codes `raise` can write (rule R142). Code 4 and codes 6 to 15 are never written. -/
inductive ErrCode where
  | invalidInput
  | outOfRange
  | truncatedBuffer
  | capacity
  deriving DecidableEq, Repr

/-- The data memory's written bytes, one (address, byte) pair each, addresses strictly rising. An address not
listed has no byte of its own and reads as its power-up byte (log entry 10). -/
abbrev Memory := List Host.Cell

/-- Why the machine stops. -/
inductive Fault where
  /-- Raised by a micro-step whose memory access is at an address the block's master port cannot reach: the model
  has no step there and the block is stuck (rule R49). Safe. -/
  | stuckAccess
  /-- Raised by a host memory access at an address outside the 2^32 bytes of the data memory (rule R48). Safe. -/
  | noSuchAddress
  /-- Raised by a micro-step in a state no run reaches, where the precondition of a bit-buffer operation or of the
  header byte's index fails (rules R99 to R105, R113) and its shift would be by a negative amount. Safe. -/
  | brokenPrecondition
  deriving DecidableEq, Repr

/-- Why an instruction has no meaning. -/
inductive Refusal where
  /-- Raised by `exec` for an instruction without a meaning yet. Safe. -/
  | notModelled (mnemonic : String)
  /-- Raised by a bus access that is not an admitted access to the register window (rule R55). Safe. -/
  | unadmittedAccess (why : Reject)
  deriving DecidableEq, Repr

/-- Everything the spec gives the machine. ID is a constant and CMD holds no state (rules R19, R20). -/
structure State where
  /-- STATUS.BUSY (rule R22). -/
  busy : Bool
  /-- STATUS.DONE (rule R23). -/
  done : Bool
  /-- STATUS.ERR (rule R24). -/
  err : Bool
  /-- STATUS.CMD_REJ (rule R25). -/
  cmdRej : Bool
  /-- STATUS.OP, `none` for 0 (rule R26). -/
  op : Option Cmd
  /-- STATUS.ERRCODE, `none` for 0 (rule R27). -/
  errCode : Option ErrCode
  /-- STATUS.PHASE (rule R28). -/
  phase : Phase
  /-- IRQ_EN.DONE_IE (rule R29). -/
  doneIe : Bool
  /-- IRQ_EN.ERR_IE (rule R29). -/
  errIe : Bool
  /-- SRC_ADDR (rule R30). -/
  srcAddr : Word
  /-- SRC_LEN (rule R31). -/
  srcLen : Word
  /-- DST_ADDR (rule R32). -/
  dstAddr : Word
  /-- DST_CAP (rule R33). -/
  dstCap : Word
  /-- COUNT (rule R35). -/
  count : Word
  /-- OUT_LEN (rule R36). -/
  outLen : Word
  /-- ERR_INDEX (rule R37). -/
  errIndex : Word
  /-- ERR_VALUE (rule R38). -/
  errValue : Word
  /-- ACC (rules R17, R39). -/
  acc : BitVec 16
  /-- HELD (rules R17, R40). -/
  held : BitVec 5
  /-- IN_POS (rule R41). -/
  inPos : Word
  /-- OUT_POS (rule R42). -/
  outPos : Word
  /-- The data memory the host and the block share (rule R48). -/
  mem : Memory
  /-- The data the last read access returned to the host (rule R83). Log entry 3. -/
  busRdata : Word
  /-- The model's own: what comes next around the block, in order (rule R10). Log entry 1. -/
  inbox : List Event
  /-- The model's own: former values of bytes another agent wrote during this transaction (rule R67). Log entry 11. -/
  stale : List Host.Cell
  /-- The model's own: for each byte stored to the destination in this transaction, the value it had before and the
  value stored (rule R67). Log entry 13. -/
  dstSeen : List Host.Cell
  /-- The model's own: how many free values have been drawn. No statement rests on it. Log entry 14. -/
  draws : Nat
  /-- The platform's parameters, which nothing writes (rule R9). Log entry 8. -/
  plat : Platform
  deriving DecidableEq, Repr

/-- The machine right after reset (rules R47, R162): every register 0, memory with nothing written. The platform
(window at 0, all of memory reachable) is a DESIGN CHOICE, log entry 8, unsafe; so are `busRdata`, `inbox`,
`stale`, `dstSeen` and `draws`, log entries 1, 3, 11, 13 and 14. -/
def State.reset : State where
  busy := false
  done := false
  err := false
  cmdRej := false
  op := none
  errCode := none
  phase := .idle
  doneIe := false
  errIe := false
  srcAddr := 0#32
  srcLen := 0#32
  dstAddr := 0#32
  dstCap := 0#32
  count := 0#32
  outLen := 0#32
  errIndex := 0#32
  errValue := 0#32
  acc := 0#16
  held := 0#5
  inPos := 0#32
  outPos := 0#32
  mem := []
  busRdata := 0#32
  inbox := []
  stale := []
  dstSeen := []
  draws := 0
  plat := { base := 0, ram := [{ base := 0, size := addrSpace }] }

end Sys2Proof.Machine
end

