-- ==== Sys2Proof/Machine/Flags.lean ====
section
/-! DEFINITION. The STATUS and IRQ_EN words, the write-one-to-clear bits and the interrupt output (rules R21, R29,
R44, R135, R136). -/

namespace Sys2Proof.Machine

/-- STATUS.OP's code (rule R21). -/
def opCode (op : Option Cmd) : BitVec 4 :=
  match op with
  | none => 0#4
  | some .encode => 1#4
  | some .decode => 2#4

/-- STATUS.ERRCODE's code (rule R142). -/
def errCodeBits (e : Option ErrCode) : BitVec 4 :=
  match e with
  | none => 0#4
  | some .invalidInput => 1#4
  | some .outOfRange => 2#4
  | some .truncatedBuffer => 3#4
  | some .capacity => 5#4

/-- STATUS.PHASE's code (rule R28). -/
def phaseCode (p : Phase) : BitVec 4 :=
  match p with
  | .idle => 0#4
  | .eCheck => 1#4
  | .eValidate => 2#4
  | .eHeader => 3#4
  | .eLoad => 4#4
  | .eEmit => 5#4
  | .eFlush => 6#4
  | .dCheck0 => 7#4
  | .dHeader => 8#4
  | .dCheck => 9#4
  | .dFill => 10#4
  | .dExtract => 11#4

/-- STATUS as a read returns it: {16'b0, PHASE, ERRCODE, OP, CMD_REJ, ERR, DONE, BUSY} (rule R135). -/
def statusWord (s : State) : Word :=
  0#16 ++ phaseCode s.phase ++ errCodeBits s.errCode ++ opCode s.op ++
    BitVec.ofBool s.cmdRej ++ BitVec.ofBool s.err ++ BitVec.ofBool s.done ++ BitVec.ofBool s.busy

/-- IRQ_EN as a read returns it: {30'b0, ERR_IE, DONE_IE} (rule R136). -/
def irqEnWord (s : State) : Word :=
  0#30 ++ BitVec.ofBool s.errIe ++ BitVec.ofBool s.doneIe

/-- A write of w to STATUS: a 1 in bit 1, 2 or 3 clears DONE, ERR or CMD_REJ; all else is ignored (rule R135). -/
def clearStatus (w : Word) (s : State) : State :=
  { s with
    done := s.done && !w.getLsbD 1
    err := s.err && !w.getLsbD 2
    cmdRej := s.cmdRej && !w.getLsbD 3 }

/-- A write of w to IRQ_EN: DONE_IE is bit 0, ERR_IE is bit 1, all else is ignored (rule R136). -/
def setIrqEn (w : Word) (s : State) : State :=
  { s with doneIe := w.getLsbD 0, errIe := w.getLsbD 1 }

/-- The interrupt output, a level (rule R44). -/
def irq (s : State) : Bool := (s.done && s.doneIe) || (s.err && s.errIe)

end Sys2Proof.Machine
end

