-- ==== Sys2Proof/Machine/Operands.lean ====
section
/-! DEFINITION. The operands of a command (rule R77), the length functions (rule R95) and the descriptor checks
(rules R92 to R94), all on unbounded integers (rule R12). -/

namespace Sys2Proof.Machine

/-- payload(n) = ceil(9n / 8) (rule R95). -/
abbrev payload (n : Nat) : Nat := (9 * n + 7) / 8

/-- enc_out(N): the bytes ENCODE writes (rule R95). -/
abbrev encOut (n : Nat) : Nat := if n = 0 then 0 else 4 + payload n

/-- enc_in(N): the bytes ENCODE reads (rule R95). -/
abbrev encIn (n : Nat) : Nat := 4 * n

/-- dec_need(n): the bytes DECODE must be able to read (rule R95). -/
abbrev decNeed (n : Nat) : Nat := 4 + payload n

/-- dec_out(n): the bytes DECODE writes (rule R95). -/
abbrev decOut (n : Nat) : Nat := 4 * n

/-- wraps(a, len) (rule R92). -/
abbrev wraps (a len : Nat) : Bool := decide (0 < len) && decide (addrSpace < a + len)

/-- overlaps(a, la, d, ld) (rule R93). -/
abbrev overlaps (a la d ld : Nat) : Bool :=
  decide (0 < la) && decide (0 < ld) && decide (a < d + ld) && decide (d < a + la)

/-- capacity(required) (rule R94). -/
abbrev capacityFits (required : Nat) (s : State) : Bool := decide (required ≤ s.dstCap.toNat)

/-- An element word ENCODE accepts: in [1, 300] as an unsigned number (rules R82, R112). -/
abbrev elementInRange (w : Word) : Bool := decide (Config.vMin ≤ w.toNat) && decide (w.toNat ≤ Config.vMax)

/-- The group ENCODE packs for a word: (w - 1) mod 512 (rules R78, R114). -/
def groupOf (w : Word) : Group := (w - 1#32).setWidth 9

/-- The element DECODE writes for a group: group + 1, bits [31:10] zero (rules R78, R127). -/
def elementOf (g : Group) : Word := g.setWidth 32 + 1#32

/-- Whether the transaction in this phase has passed all its checks (rule R163). -/
def checksPassed (p : Phase) : Bool :=
  match p with
  | .idle | .eCheck | .eValidate | .dCheck0 | .dHeader | .dCheck => false
  | .eHeader | .eLoad | .eEmit | .eFlush | .dFill | .dExtract => true

/-- The length of the destination range a transaction that has passed all its checks may have written: enc_out(N) or
4n; before that no byte has been written (rules R98, R163). -/
def outputLength (s : State) : Nat :=
  match s.phase with
  | .idle | .eCheck | .eValidate | .dCheck0 | .dHeader | .dCheck => 0
  | .eHeader | .eLoad | .eEmit | .eFlush => encOut s.count.toNat
  | .dFill | .dExtract => decOut s.count.toNat

/-- Whether address a lies in [start, start + len). -/
abbrev inRange (a start len : Nat) : Bool := decide (start ≤ a) && decide (a < start + len)

/-- ENCODE's descriptor checks after N = 0, in the order of rule R96, steps 2 to 5: the first that fails. -/
def encodeCheck (s : State) : Option ErrCode :=
  if wraps s.srcAddr.toNat (encIn s.count.toNat) then some .invalidInput
  else if ¬ capacityFits (encOut s.count.toNat) s then some .capacity
  else if wraps s.dstAddr.toNat (encOut s.count.toNat) then some .invalidInput
  else if overlaps s.srcAddr.toNat (encIn s.count.toNat) s.dstAddr.toNat (encOut s.count.toNat) then
    some .invalidInput
  else none

/-- DECODE's checks before the header is read, after L = 0: rule R97, steps 2 and 3. -/
def decodeCheck0 (s : State) : Option ErrCode :=
  if wraps s.srcAddr.toNat s.srcLen.toNat then some .invalidInput
  else if s.srcLen.toNat < 4 then some .truncatedBuffer
  else none

/-- DECODE's checks once n = COUNT is known: rule R97, steps 4 to 7. -/
def decodeCheck (s : State) : Option ErrCode :=
  if s.srcLen.toNat < decNeed s.count.toNat then some .truncatedBuffer
  else if ¬ capacityFits (decOut s.count.toNat) s then some .capacity
  else if wraps s.dstAddr.toNat (decOut s.count.toNat) then some .invalidInput
  else if overlaps s.srcAddr.toNat s.srcLen.toNat s.dstAddr.toNat (decOut s.count.toNat) then some .invalidInput
  else none

end Sys2Proof.Machine
end

