-- ==== Sys2Proof/Machine/Ops.lean ====
section
/-! DEFINITION. The named operations over memory and registers: the data memory and its canonical form, the racing
bytes, the block's master accesses, accepting and rejecting a command, and the two ends of a transaction:
`raise` (taking an error, rule R149) and `finish` (rule R117). -/

namespace Sys2Proof.Machine

/-- The byte written at address a, if one is listed. -/
def memGet? (m : Memory) (a : Nat) : Option Byte :=
  match m with
  | [] => none
  | (k, b) :: rest => if k = a then some b else memGet? rest a

/-- Mem[a] (rules R13, R49): the byte written there, or the power-up byte of that address (log entry 10). -/
def memByte (m : Memory) (a : Nat) : Byte :=
  match memGet? m a with
  | some b => b
  | none => Config.powerUpByte a

/-- Mem[a] <- b, keeping the canonical form. -/
def memSet (m : Memory) (a : Nat) (b : Byte) : Memory :=
  match m with
  | [] => [(a, b)]
  | (k, c) :: rest =>
    if a < k then (a, b) :: (k, c) :: rest
    else if a = k then (a, b) :: rest
    else (k, c) :: memSet rest a b

/-- The canonical form: addresses inside the data memory (rule R48) and strictly rising. -/
def Memory.wf (m : Memory) : Bool :=
  match m with
  | [] => true
  | (a, _) :: rest =>
    decide (a < addrSpace) && (match rest with | [] => true | (k, _) :: _ => decide (a < k)) && Memory.wf rest

/-- A big-endian word of four bytes, the byte at the lowest address first (rules R13, R52). -/
def wordOfBytes (b0 b1 b2 b3 : Byte) : Word := b0 ++ b1 ++ b2 ++ b3

/-- Byte j of a word in big-endian order: bits [31-8j : 24-8j] (rules R13, R50). -/
def wordByte (w : Word) (j : Nat) : Byte := w.extractLsb' (24 - 8 * j) 8

/-- The 32-bit big-endian word at address a (rule R13). -/
def memWord (m : Memory) (a : Nat) : Word :=
  wordOfBytes (memByte m a) (memByte m (a + 1)) (memByte m (a + 2)) (memByte m (a + 3))

/-- RAM(a): the block's master port can reach address a (rules R9, R49). -/
def ramAt (s : State) (a : Nat) : Bool :=
  decide (a < addrSpace) && s.plat.ram.any (fun r => inRange a r.base r.size)

/-- The bytes a list of cells gives for address a. -/
def bytesAt (cells : List Host.Cell) (a : Nat) : List Byte :=
  (cells.filter (fun c => c.1 == a)).map Prod.snd

/-- The former values of address a that the race of rule R67 may still show. -/
def staleAt (s : State) (a : Nat) : List Byte := bytesAt s.stale a

/-- The values the destination byte at address a had before a store of this transaction, and those stored there
(rule R67). -/
def seenAt (s : State) (a : Nat) : List Byte := bytesAt s.dstSeen a

/-- The n-th free choice among `b` and `others` (rule R67). -/
def pickByte (b : Byte) (others : List Byte) (n : Nat) : Byte :=
  match others with
  | [] => b
  | _ => (b :: others).getD (Config.freeChoice n % (others.length + 1)) b

/-- One byte out of `b` and `others`, a free choice where there are others (rule R67). -/
def drawByte (b : Byte) (others : List Byte) (s : State) : Byte × State :=
  match others with
  | [] => (b, s)
  | _ => (pickByte b others s.draws, { s with draws := s.draws + 1 })

/-- A byte the block reads: Mem[a], or in a race any value it had since the command (rule R67). -/
def readByte (a : Nat) (s : State) : Byte × State :=
  drawByte (memByte s.mem a) (staleAt s a) s

/-- A byte the block writes; where another agent wrote it during the transaction, either value (rule R67). Both the
value before and the value written are kept for the reads of other agents. -/
def writeByte (a : Nat) (b : Byte) (s : State) : State :=
  match drawByte b (if staleAt s a = [] then [] else [memByte s.mem a]) s with
  | (v, t) => { t with mem := memSet t.mem a v, dstSeen := (a, b) :: (a, memByte s.mem a) :: t.dstSeen }

/-- An element word the block reads: four byte reads in ascending address order (rules R13, R57). -/
def readWord (a : Nat) (s : State) : Word × State :=
  match readByte a s with
  | (b0, s1) =>
    match readByte (a + 1) s1 with
    | (b1, s2) =>
      match readByte (a + 2) s2 with
      | (b2, s3) =>
        match readByte (a + 3) s3 with
        | (b3, s4) => (wordOfBytes b0 b1 b2 b3, s4)

/-- An element word the block writes: four byte writes in ascending address order (rules R13, R57). -/
def writeWord (a : Nat) (w : Word) (s : State) : State :=
  writeByte (a + 3) (wordByte w 3)
    (writeByte (a + 2) (wordByte w 2) (writeByte (a + 1) (wordByte w 1) (writeByte a (wordByte w 0) s)))

/-- The block's MemRead(a, 1); `none` where RAM(a) does not hold (rule R49). -/
def blockReadByte (a : Nat) (s : State) : Option (Byte × State) :=
  if ramAt s a then some (readByte a s) else none

/-- The block's MemWrite(a, 1, b); `none` where RAM(a) does not hold (rule R49). -/
def blockWriteByte (a : Nat) (b : Byte) (s : State) : Option State :=
  if ramAt s a then some (writeByte a b s) else none

/-- Whether all four bytes of an element word at a are reachable; log entry 21. -/
def ramWord (s : State) (a : Nat) : Bool :=
  ramAt s a && ramAt s (a + 1) && ramAt s (a + 2) && ramAt s (a + 3)

/-- The block's MemRead(a, 4); `none` where RAM does not hold at one of its bytes (rule R49). -/
def blockReadWord (a : Nat) (s : State) : Option (Word × State) :=
  if ramWord s a then some (readWord a s) else none

/-- The block's MemWrite(a, 4, w); `none` where RAM does not hold at one of its bytes (rule R49). -/
def blockWriteWord (a : Nat) (w : Word) (s : State) : Option State :=
  if ramWord s a then some (writeWord a w s) else none

/-- `finish`, the successful end of a transaction (rule R117). No race outlives the transaction (rule R67). -/
def finish (s : State) : State :=
  { s with
    outLen := s.outPos
    acc := 0#16
    held := 0#5
    busy := false
    done := true
    phase := .idle
    stale := []
    dstSeen := [] }

/-- `raise E(idx, val)`: the transaction ends with error code e (rule R149). The block has no vector, no mode and
no saved program counter: ERRCODE, ERR_INDEX and ERR_VALUE record the error. -/
def raise (e : ErrCode) (idx val : Word) (s : State) : State :=
  { s with
    errCode := some e
    errIndex := idx
    errValue := val
    outLen := 0#32
    acc := 0#16
    held := 0#5
    busy := false
    err := true
    phase := .idle
    stale := []
    dstSeen := [] }

/-- reject(w): CMD_REJ is set and nothing else changes (rule R88). -/
def reject (s : State) : State := { s with cmdRej := true }

/-- accept(op) (rule R89). The block sees every host write made before it (rule R64). -/
def accept (c : Cmd) (s : State) : State :=
  { s with
    busy := true
    done := false
    err := false
    errCode := none
    op := some c
    errIndex := 0#32
    errValue := 0#32
    outLen := 0#32
    inPos := 0#32
    outPos := 0#32
    acc := 0#16
    held := 0#5
    count := match c with | .encode => s.srcLen | .decode => 0#32
    phase := match c with | .encode => .eCheck | .decode => .dCheck0
    stale := []
    dstSeen := [] }

/-- A word w presented as a command by a host write to CMD (rule R87). -/
def presentCommand (w : Word) (s : State) : State :=
  if s.busy then reject s
  else
    match decodeCmd w with
    | some c => accept c s
    | none => reject s

/-- A read access returns v to the host and changes nothing else (rules R58, R132). -/
def busReturn (v : Word) (s : State) : State := { s with busRdata := v }

/-- A descriptor write takes effect only while BUSY = 0 (rules R34, R137). -/
def whenIdle (f : State → State) (s : State) : State := if s.busy then s else f s

end Sys2Proof.Machine
end

