-- ==== Sys2Proof/Machine/Command.lean ====
section
/-! DEFINITION. The commands: ENCODE, DECODE and the write of any word to CMD (rules R87, R109, R120, R134). The
transaction an accepted command starts runs as the micro-steps of Packer and Unpacker. -/

namespace Sys2Proof.Machine

/-- ENCODE: the host writes 0x00000001 to CMD (rules R73, R109). -/
def execEncode (s : State) : Host.Outcome State Fault Refusal := .next (presentCommand 0x00000001#32 s)

/-- DECODE: the host writes 0x00000002 to CMD (rules R73, R120). -/
def execDecode (s : State) : Host.Outcome State Fault Refusal := .next (presentCommand 0x00000002#32 s)

/-- WR_CMD: the host writes w to CMD (rules R87, R134). -/
def execWrCmd (w : Word) (s : State) : Host.Outcome State Fault Refusal := .next (presentCommand w s)

end Sys2Proof.Machine
end

