-- ==== Sys2Proof/Machine/RegRead.lean ====
section
/-! DEFINITION. The host's read of each register: its current value, reserved bits 0, no side effect (rules R132 to
R141). -/

namespace Sys2Proof.Machine

/-- RD ID: the constant 0x46575039 (rule R133). -/
def execRdId (s : State) : Host.Outcome State Fault Refusal := .next (busReturn Config.idValue s)

/-- RD CMD: 0, with no effect (rule R134). -/
def execRdCmd (s : State) : Host.Outcome State Fault Refusal := .next (busReturn 0#32 s)

/-- RD STATUS: its value (rule R135). -/
def execRdStatus (s : State) : Host.Outcome State Fault Refusal := .next (busReturn (statusWord s) s)

/-- RD IRQ_EN: its value (rule R136). -/
def execRdIrqEn (s : State) : Host.Outcome State Fault Refusal := .next (busReturn (irqEnWord s) s)

/-- RD SRC_ADDR: its value (rule R137). -/
def execRdSrcAddr (s : State) : Host.Outcome State Fault Refusal := .next (busReturn s.srcAddr s)

/-- RD SRC_LEN: its value (rule R137). -/
def execRdSrcLen (s : State) : Host.Outcome State Fault Refusal := .next (busReturn s.srcLen s)

/-- RD DST_ADDR: its value (rule R137). -/
def execRdDstAddr (s : State) : Host.Outcome State Fault Refusal := .next (busReturn s.dstAddr s)

/-- RD DST_CAP: its value (rule R137). -/
def execRdDstCap (s : State) : Host.Outcome State Fault Refusal := .next (busReturn s.dstCap s)

/-- RD COUNT: its value (rule R138). -/
def execRdCount (s : State) : Host.Outcome State Fault Refusal := .next (busReturn s.count s)

/-- RD OUT_LEN: its value (rule R139). -/
def execRdOutLen (s : State) : Host.Outcome State Fault Refusal := .next (busReturn s.outLen s)

/-- RD ERR_INDEX: its value (rule R140). -/
def execRdErrIndex (s : State) : Host.Outcome State Fault Refusal := .next (busReturn s.errIndex s)

/-- RD ERR_VALUE: its value (rule R140). -/
def execRdErrValue (s : State) : Host.Outcome State Fault Refusal := .next (busReturn s.errValue s)

/-- RD ACC: ACC, zero-extended (rule R141). -/
def execRdAcc (s : State) : Host.Outcome State Fault Refusal := .next (busReturn (s.acc.setWidth 32) s)

/-- RD HELD: HELD, zero-extended (rule R141). -/
def execRdHeld (s : State) : Host.Outcome State Fault Refusal := .next (busReturn (s.held.setWidth 32) s)

/-- RD IN_POS: its value (rule R141). -/
def execRdInPos (s : State) : Host.Outcome State Fault Refusal := .next (busReturn s.inPos s)

/-- RD OUT_POS: its value (rule R141). -/
def execRdOutPos (s : State) : Host.Outcome State Fault Refusal := .next (busReturn s.outPos s)

end Sys2Proof.Machine
end

