-- ==== Sys2Proof/Machine/RegWrite.lean ====
section
/-! DEFINITION. The host's write of each register but CMD (rules R132 to R141): ignored where the register is read-only,
a descriptor only while BUSY = 0, STATUS and IRQ_EN at any time. -/

namespace Sys2Proof.Machine

/-- WR ID: ignored, the register is read-only (rules R132, R133). -/
def execWrId (_w : Word) (s : State) : Host.Outcome State Fault Refusal := .next s

/-- WR STATUS of w: write one to clear DONE, ERR and CMD_REJ (rule R135). -/
def execWrStatus (w : Word) (s : State) : Host.Outcome State Fault Refusal := .next (clearStatus w s)

/-- WR IRQ_EN of w: the two enables (rule R136). -/
def execWrIrqEn (w : Word) (s : State) : Host.Outcome State Fault Refusal := .next (setIrqEn w s)

/-- WR SRC_ADDR of w: the register takes w, or is unchanged while BUSY = 1 (rules R34, R137). -/
def execWrSrcAddr (w : Word) (s : State) : Host.Outcome State Fault Refusal :=
  .next (whenIdle (fun t => { t with srcAddr := w }) s)

/-- WR SRC_LEN of w: the register takes w, or is unchanged while BUSY = 1 (rules R34, R137). -/
def execWrSrcLen (w : Word) (s : State) : Host.Outcome State Fault Refusal :=
  .next (whenIdle (fun t => { t with srcLen := w }) s)

/-- WR DST_ADDR of w: the register takes w, or is unchanged while BUSY = 1 (rules R34, R137). -/
def execWrDstAddr (w : Word) (s : State) : Host.Outcome State Fault Refusal :=
  .next (whenIdle (fun t => { t with dstAddr := w }) s)

/-- WR DST_CAP of w: the register takes w, or is unchanged while BUSY = 1 (rules R34, R137). -/
def execWrDstCap (w : Word) (s : State) : Host.Outcome State Fault Refusal :=
  .next (whenIdle (fun t => { t with dstCap := w }) s)

/-- WR COUNT: ignored, the register is read-only (rules R132, R138). -/
def execWrCount (_w : Word) (s : State) : Host.Outcome State Fault Refusal := .next s

/-- WR OUT_LEN: ignored, the register is read-only (rules R132, R139). -/
def execWrOutLen (_w : Word) (s : State) : Host.Outcome State Fault Refusal := .next s

/-- WR ERR_INDEX: ignored, the register is read-only (rules R132, R140). -/
def execWrErrIndex (_w : Word) (s : State) : Host.Outcome State Fault Refusal := .next s

/-- WR ERR_VALUE: ignored, the register is read-only (rules R132, R140). -/
def execWrErrValue (_w : Word) (s : State) : Host.Outcome State Fault Refusal := .next s

/-- WR ACC: ignored, the register is read-only (rules R132, R141). -/
def execWrAcc (_w : Word) (s : State) : Host.Outcome State Fault Refusal := .next s

/-- WR HELD: ignored, the register is read-only (rules R132, R141). -/
def execWrHeld (_w : Word) (s : State) : Host.Outcome State Fault Refusal := .next s

/-- WR IN_POS: ignored, the register is read-only (rules R132, R141). -/
def execWrInPos (_w : Word) (s : State) : Host.Outcome State Fault Refusal := .next s

/-- WR OUT_POS: ignored, the register is read-only (rules R132, R141). -/
def execWrOutPos (_w : Word) (s : State) : Host.Outcome State Fault Refusal := .next s

end Sys2Proof.Machine
end

