-- ==== Sys2Proof/Machine/Dispatch.lean ====
section
/-! DEFINITION. One arm per instruction, each one call of its meaning. -/

namespace Sys2Proof.Machine

def exec (i : Instr) (s : State) : Host.Outcome State Fault Refusal :=
  match i with
  | .encode => Sys2Proof.Machine.execEncode s
  | .decode => Sys2Proof.Machine.execDecode s
  | .rdId => Sys2Proof.Machine.execRdId s
  | .wrId w => Sys2Proof.Machine.execWrId w s
  | .rdCmd => Sys2Proof.Machine.execRdCmd s
  | .wrCmd w => Sys2Proof.Machine.execWrCmd w s
  | .rdStatus => Sys2Proof.Machine.execRdStatus s
  | .wrStatus w => Sys2Proof.Machine.execWrStatus w s
  | .rdIrqEn => Sys2Proof.Machine.execRdIrqEn s
  | .wrIrqEn w => Sys2Proof.Machine.execWrIrqEn w s
  | .rdSrcAddr => Sys2Proof.Machine.execRdSrcAddr s
  | .wrSrcAddr w => Sys2Proof.Machine.execWrSrcAddr w s
  | .rdSrcLen => Sys2Proof.Machine.execRdSrcLen s
  | .wrSrcLen w => Sys2Proof.Machine.execWrSrcLen w s
  | .rdDstAddr => Sys2Proof.Machine.execRdDstAddr s
  | .wrDstAddr w => Sys2Proof.Machine.execWrDstAddr w s
  | .rdDstCap => Sys2Proof.Machine.execRdDstCap s
  | .wrDstCap w => Sys2Proof.Machine.execWrDstCap w s
  | .rdCount => Sys2Proof.Machine.execRdCount s
  | .wrCount w => Sys2Proof.Machine.execWrCount w s
  | .rdOutLen => Sys2Proof.Machine.execRdOutLen s
  | .wrOutLen w => Sys2Proof.Machine.execWrOutLen w s
  | .rdErrIndex => Sys2Proof.Machine.execRdErrIndex s
  | .wrErrIndex w => Sys2Proof.Machine.execWrErrIndex w s
  | .rdErrValue => Sys2Proof.Machine.execRdErrValue s
  | .wrErrValue w => Sys2Proof.Machine.execWrErrValue w s
  | .rdAcc => Sys2Proof.Machine.execRdAcc s
  | .wrAcc w => Sys2Proof.Machine.execWrAcc w s
  | .rdHeld => Sys2Proof.Machine.execRdHeld s
  | .wrHeld w => Sys2Proof.Machine.execWrHeld w s
  | .rdInPos => Sys2Proof.Machine.execRdInPos s
  | .wrInPos w => Sys2Proof.Machine.execWrInPos w s
  | .rdOutPos => Sys2Proof.Machine.execRdOutPos s
  | .wrOutPos w => Sys2Proof.Machine.execWrOutPos w s

end Sys2Proof.Machine
end

