-- ==== Sys2Proof/Machine/BitBuffer.lean ====
section
/-! DEFINITION. The five operations of the bit buffer (ACC, HELD) (rules R99 to R103). A value assigned to ACC or
HELD is reduced modulo 2^16 or 2^5 (rule R12). Each operation's precondition is the calling micro-step's. -/

namespace Sys2Proof.Machine

/-- The low `held` bits of a number: `& ((1 << HELD) - 1)`. -/
def maskLow (x held : Nat) : Nat := x &&& ((1 <<< held) - 1)

/-- PUSH9(v); precondition HELD ≤ 7 (rule R99). -/
def push9 (v : Group) (s : State) : State :=
  { s with
    acc := BitVec.ofNat 16 ((s.acc.toNat <<< 9) ||| v.toNat)
    held := BitVec.ofNat 5 (s.held.toNat + 9) }

/-- EMIT8(); precondition HELD ≥ 8 (rule R100). -/
def emit8 (s : State) : Byte × State :=
  (BitVec.ofNat 8 ((s.acc.toNat >>> (s.held.toNat - 8)) &&& 0xFF),
    { s with
      held := BitVec.ofNat 5 (s.held.toNat - 8)
      acc := BitVec.ofNat 16 (maskLow s.acc.toNat (s.held.toNat - 8)) })

/-- PADFLUSH(); precondition 1 ≤ HELD ≤ 7 (rule R101). -/
def padFlush (s : State) : Byte × State :=
  (BitVec.ofNat 8 ((s.acc.toNat <<< (8 - s.held.toNat)) &&& 0xFF), { s with acc := 0#16, held := 0#5 })

/-- FILL8(b); precondition HELD ≤ 8 (rule R102). -/
def fill8 (b : Byte) (s : State) : State :=
  { s with
    acc := BitVec.ofNat 16 ((s.acc.toNat <<< 8) ||| b.toNat)
    held := BitVec.ofNat 5 (s.held.toNat + 8) }

/-- PULL9(); precondition HELD ≥ 9 (rule R103). -/
def pull9 (s : State) : Group × State :=
  (BitVec.ofNat 9 ((s.acc.toNat >>> (s.held.toNat - 9)) &&& 0x1FF),
    { s with
      held := BitVec.ofNat 5 (s.held.toNat - 9)
      acc := BitVec.ofNat 16 (maskLow s.acc.toNat (s.held.toNat - 9)) })

end Sys2Proof.Machine
end

