-- ==== Sys2Proof/Machine/Packer.lean ====
section
/-! DEFINITION. ENCODE's micro-steps, one per phase (rules R110 to R116). Each is one atomic transition of the block
(rule R14). -/

namespace Sys2Proof.Machine

/-- E_CHECK (rule R110). -/
def microECheck (s : State) : Host.Outcome State Fault Refusal :=
  if s.count.toNat = 0 then .next (finish s)
  else
    match encodeCheck s with
    | some e => .next (raise e 0#32 0#32 s)
    | none => .next { s with phase := .eValidate }

/-- After E_VALIDATE accepts an element (rule R112). -/
def validateNext (s : State) : State :=
  if (s.inPos + 4#32).toNat = encIn s.count.toNat then { s with inPos := 0#32, phase := .eHeader }
  else { s with inPos := s.inPos + 4#32 }

/-- E_VALIDATE (rule R112). -/
def microEValidate (s : State) : Host.Outcome State Fault Refusal :=
  match blockReadWord (s.srcAddr.toNat + s.inPos.toNat) s with
  | none => .fault .stuckAccess
  | some (w, t) =>
    if elementInRange w then .next (validateNext t)
    else .next (raise .outOfRange (BitVec.ofNat 32 (s.inPos.toNat / 4)) w t)

/-- After E_HEADER has written a byte (rule R113). -/
def headerNext (s : State) : State :=
  { s with
    outPos := s.outPos + 1#32
    phase := if s.outPos + 1#32 = 4#32 then .eLoad else s.phase }

/-- E_HEADER (rule R113). -/
def microEHeader (s : State) : Host.Outcome State Fault Refusal :=
  if 3 < s.outPos.toNat then .fault .brokenPrecondition
  else
    match blockWriteByte (s.dstAddr.toNat + s.outPos.toNat) (wordByte s.count s.outPos.toNat) s with
    | none => .fault .stuckAccess
    | some t => .next (headerNext t)

/-- E_LOAD (rule R114); the word is not revalidated. -/
def microELoad (s : State) : Host.Outcome State Fault Refusal :=
  match blockReadWord (s.srcAddr.toNat + s.inPos.toNat) s with
  | none => .fault .stuckAccess
  | some (w, t) =>
    .next { push9 (groupOf w) t with inPos := t.inPos + 4#32, phase := .eEmit }

/-- After E_EMIT has written a byte: the next phase, or `finish` (rule R115). -/
def emitNext (s : State) : State :=
  if 8 ≤ s.held.toNat then { s with phase := .eEmit }
  else if s.inPos.toNat < encIn s.count.toNat then { s with phase := .eLoad }
  else if 0 < s.held.toNat then { s with phase := .eFlush }
  else finish s

/-- E_EMIT (rule R115). -/
def microEEmit (s : State) : Host.Outcome State Fault Refusal :=
  if s.held.toNat < 8 then .fault .brokenPrecondition
  else
    match emit8 s with
    | (b, t) =>
      match blockWriteByte (t.dstAddr.toNat + t.outPos.toNat) b t with
      | none => .fault .stuckAccess
      | some u => .next (emitNext { u with outPos := u.outPos + 1#32 })

/-- E_FLUSH (rule R116). -/
def microEFlush (s : State) : Host.Outcome State Fault Refusal :=
  if s.held.toNat = 0 ∨ 7 < s.held.toNat then .fault .brokenPrecondition
  else
    match padFlush s with
    | (b, t) =>
      match blockWriteByte (t.dstAddr.toNat + t.outPos.toNat) b t with
      | none => .fault .stuckAccess
      | some u => .next (finish { u with outPos := u.outPos + 1#32 })

end Sys2Proof.Machine
end

