-- ==== Sys2Proof/Machine/Unpacker.lean ====
section
/-! DEFINITION. DECODE's micro-steps, one per phase (rules R121 to R127). Each is one atomic transition of the block
(rule R14). -/

namespace Sys2Proof.Machine

/-- D_CHECK0 (rule R121). -/
def microDCheck0 (s : State) : Host.Outcome State Fault Refusal :=
  if s.srcLen.toNat = 0 then .next (finish s)
  else
    match decodeCheck0 s with
    | some e => .next (raise e 0#32 0#32 s)
    | none => .next { s with phase := .dHeader }

/-- D_HEADER's update for header byte b: COUNT <- ((COUNT << 8) | b) mod 2^32 (rule R123). -/
def headerShift (b : Byte) (s : State) : State :=
  { s with
    count := BitVec.ofNat 32 ((s.count.toNat <<< 8) ||| b.toNat)
    inPos := s.inPos + 1#32
    phase := if s.inPos + 1#32 = 4#32 then .dCheck else s.phase }

/-- D_HEADER (rule R123). -/
def microDHeader (s : State) : Host.Outcome State Fault Refusal :=
  match blockReadByte (s.srcAddr.toNat + s.inPos.toNat) s with
  | none => .fault .stuckAccess
  | some (b, t) => .next (headerShift b t)

/-- D_CHECK (rule R124). -/
def microDCheck (s : State) : Host.Outcome State Fault Refusal :=
  match decodeCheck s with
  | some e => .next (raise e 0#32 0#32 s)
  | none => if s.count.toNat = 0 then .next (finish s) else .next { s with phase := .dFill }

/-- After D_FILL has filled a byte (rule R126). -/
def fillNext (s : State) : State :=
  { s with
    inPos := s.inPos + 1#32
    phase := if 9 ≤ s.held.toNat then .dExtract else s.phase }

/-- D_FILL (rule R126). Its first line is never reached in a run (rule R125); log entry 27. -/
def microDFill (s : State) : Host.Outcome State Fault Refusal :=
  if s.inPos = s.srcLen then .next (raise .truncatedBuffer 0#32 0#32 s)
  else
    match blockReadByte (s.srcAddr.toNat + s.inPos.toNat) s with
    | none => .fault .stuckAccess
    | some (b, t) => .next (fillNext (fill8 b t))

/-- After D_EXTRACT has written an element: `finish`, or back to D_FILL (rule R127). -/
def extractNext (s : State) : State :=
  if (s.outPos + 4#32).toNat = decOut s.count.toNat then finish { s with outPos := s.outPos + 4#32 }
  else { s with outPos := s.outPos + 4#32, phase := .dFill }

/-- D_EXTRACT (rule R127); the element is not checked against [1, 300] (rule R128). -/
def microDExtract (s : State) : Host.Outcome State Fault Refusal :=
  if s.held.toNat < 9 then .fault .brokenPrecondition
  else
    match pull9 s with
    | (x, t) =>
      match blockWriteWord (t.dstAddr.toNat + t.outPos.toNat) (elementOf x) t with
      | none => .fault .stuckAccess
      | some u => .next (extractNext u)

end Sys2Proof.Machine
end

