-- ==== Sys2Proof/Machine/Sequencer.lean ====
section
/-! DEFINITION. The block agent: the micro-step of each phase, and the block's turn (rules R10, R28, R161). -/

namespace Sys2Proof.Machine

/-- The micro-step PHASE names (rule R28); IDLE has none. -/
def microStep (s : State) : Host.Outcome State Fault Refusal :=
  match s.phase with
  | .idle => .next s
  | .eCheck => microECheck s
  | .eValidate => microEValidate s
  | .eHeader => microEHeader s
  | .eLoad => microELoad s
  | .eEmit => microEEmit s
  | .eFlush => microEFlush s
  | .dCheck0 => microDCheck0 s
  | .dHeader => microDHeader s
  | .dCheck => microDCheck s
  | .dFill => microDFill s
  | .dExtract => microDExtract s

/-- The bytes the micro-step PHASE names stores, from address DST_ADDR + OUT_POS on (rules R113, R115, R116, R127). -/
def storedBytes (s : State) : List Byte :=
  match s.phase with
  | .idle | .eCheck | .eValidate | .eLoad | .dCheck0 | .dHeader | .dCheck | .dFill => []
  | .eHeader => [wordByte s.count s.outPos.toNat]
  | .eEmit => [(emit8 s).1]
  | .eFlush => [(padFlush s).1]
  | .dExtract => (List.range 4).map (wordByte (elementOf (pull9 s).1))

/-- The byte that micro-step stores at address a, if it stores one there. -/
def storedAt (a : Nat) (s : State) : List Byte :=
  if s.dstAddr.toNat + s.outPos.toNat ≤ a then
    ((storedBytes s)[a - (s.dstAddr.toNat + s.outPos.toNat)]?).toList
  else []

/-- The block's turn: a micro-step while BUSY = 1, nothing while idle (rules R10, R161). -/
def blockTurn (s : State) : Host.Outcome State Fault Refusal :=
  if s.busy then microStep s else .next s

end Sys2Proof.Machine
end

