-- ==== Sys2Proof/Machine/Agents.lean ====
section
/-! DEFINITION. The agents around the block (rule R10): host accesses to the bus, host and bus-master accesses to the
shared memory with their races (rules R66, R67), reset (rules R162, R163), and serving one event. -/

namespace Sys2Proof.Machine

/-- Whether the block has written address a in the running transaction. -/
def blockHasWritten (a : Nat) (s : State) : Bool :=
  s.busy && checksPassed s.phase && inRange a s.dstAddr.toNat s.outPos.toNat

/-- Another agent writes v to byte a of the data memory. While BUSY = 1 the former value is kept for the race of
rule R67, and a byte the block has written already may keep the block's value. Log entries 11, 12 and 13. -/
def hostWriteByte (a : Nat) (v : Byte) (s : State) : Host.Outcome State Fault Refusal :=
  if addrSpace ≤ a then .fault .noSuchAddress
  else
    match drawByte v (if blockHasWritten a s then [memByte s.mem a] else []) s with
    | (b, t) =>
      .next { t with
        mem := memSet t.mem a b
        stale := if t.busy then (a, memByte s.mem a) :: t.stale else t.stale
        dstSeen := if blockHasWritten a s then (a, v) :: t.dstSeen else t.dstSeen }

/-- n bytes from address a on take any value, one free byte each (rule R163). -/
def scribble (n a : Nat) (s : State) : State :=
  match n with
  | 0 => s
  | n + 1 =>
    scribble n (a + 1)
      (if a < addrSpace then
        { s with mem := memSet s.mem a (Config.freeByte s.draws), draws := s.draws + 1 }
      else s)

/-- What a reset leaves in memory: all of it, but for the destination range of a transaction that had passed its
checks (rules R162, R163). Log entry 14. -/
def resetMemory (s : State) : State :=
  if s.busy then scribble (outputLength s) s.dstAddr.toNat s else s

/-- The reset step: every register takes its reset value (rules R47, R162). -/
def resetBlock (s : State) : State :=
  { State.reset with
    mem := (resetMemory s).mem
    draws := (resetMemory s).draws
    busRdata := s.busRdata
    inbox := s.inbox
    plat := s.plat }

/-- A host access to the bus: the instruction it decodes to, or a refusal by name (rules R55, R83). -/
def busAccess (a : BusAccess) (s : State) : Host.Outcome State Fault Refusal :=
  match decodeAccess s.plat.base a with
  | .ok i => exec i s
  | .rejected r => .refused (.unadmittedAccess r)

/-- What another agent's read leaves beside the data returned: memory accesses have no side effect (rule R58), and
while BUSY = 1 one free choice is drawn. Log entry 13. -/
def afterRead (s : State) : State := if s.busy then { s with draws := s.draws + 1 } else s

/-- One event as far as the block and memory go: of a read, only what it leaves. -/
def serveUnread (e : Event) (s : State) : Host.Outcome State Fault Refusal :=
  match e with
  | .block => blockTurn s
  | .bus a => busAccess a s
  | .hostRead a => if addrSpace ≤ a then .fault .noSuchAddress else .next (afterRead s)
  | .hostWrite a v => hostWriteByte a v s
  | .reset => .next (resetBlock s)

/-- The next event and the state with it taken off; with none left, the block's turn (rule R10). Log entry 1. -/
def nextEvent (s : State) : Event × State :=
  match s.inbox with
  | [] => (.block, s)
  | e :: rest => (e, { s with inbox := rest })

/-- The bytes the running transaction stores at address a in the next `fuel` events (rule R67). -/
def storesAhead (fuel a : Nat) (s : State) : List Byte :=
  match fuel with
  | 0 => []
  | fuel + 1 =>
    if s.busy then
      match serveUnread (nextEvent s).1 (nextEvent s).2 with
      | .next t => (if (nextEvent s).1 = .block then storedAt a s else []) ++ storesAhead fuel a t
      | .fault _ => []
      | .refused _ => []
    else []

/-- More micro-steps than any transaction takes: N and L are below 2^32 (rules R119, R131). -/
abbrev transactionBound : Nat := 17179869184

/-- The values beside Mem[a] that another agent may read at address a while BUSY = 1: none but at a destination byte,
where they are the values it has had, those stored there and those this transaction is going to store there (rule R67).
Log entry 13. -/
def racedValues (a : Nat) (s : State) : List Byte :=
  match seenAt s a ++ storesAhead (s.inbox.length + transactionBound) a (afterRead s) with
  | [] => []
  | b :: others => b :: others ++ staleAt s a

/-- Another agent reads byte a of the data memory: Mem[a] (rule R58), or in a race one of the values rule R67 admits.
Log entries 3 and 13. -/
def hostReadByte (a : Nat) (s : State) : Host.Outcome State Fault Refusal :=
  if addrSpace ≤ a then .fault .noSuchAddress
  else
    .next { afterRead s with
      busRdata :=
        (if s.busy then pickByte (memByte s.mem a) (racedValues a s) s.draws else memByte s.mem a).setWidth 32 }

/-- One event, an atomic step of its agent (rules R10, R132, R162). -/
def serve (e : Event) (s : State) : Host.Outcome State Fault Refusal :=
  match e with
  | .hostRead a => hostReadByte a s
  | .block | .bus _ | .hostWrite _ _ | .reset => serveUnread e s

/-- The next event of the inbox is served; with none left the block has its turn (rule R10). Log entry 1. -/
def serveNext (s : State) : Host.Outcome State Fault Refusal :=
  serve (nextEvent s).1 (nextEvent s).2

/-- The state with event e put before all others. -/
def pushEvent (e : Event) (s : State) : State := { s with inbox := e :: s.inbox }

end Sys2Proof.Machine
end

