-- ==== Sys2Proof/Machine/Step.lean ====
section
/-! DEFINITION. One step of the machine, and placing an instruction where the next step fetches it. -/

namespace Sys2Proof.Machine

/-- One step: the next event, or the block's turn (rule R10). -/
def step (s : State) : Host.Outcome State Fault Refusal := serveNext s

/-- The state whose next step runs the instruction the opcode table numbers `w`: its host access stands first in the
inbox. Log entries 2 and 4. -/
def State.withFetchWord (s : State) (nbits w : Nat) : State :=
  pushEvent (.bus (accessOfTableWord s.plat.base nbits w)) s

end Sys2Proof.Machine
end

