-- ==== Sys2Proof/Safety.lean ====
section
/-! DEFINITION. The terms claims use: the invariant of every reachable state (rules R43, R46, R98, R104, R105), a run
of one transaction (rules R118, R119, R130, R131), the packed buffer as a stream of bits (rules R51, R79), and when
the descriptors and the platform let a transaction run to its successful end. -/

namespace Sys2Proof.Machine

/-- The six invariants rule R46 lists. -/
def flagsInv (s : State) : Bool :=
  (s.busy == (s.phase != .idle)) &&
  !(s.busy && (s.done || s.err)) &&
  !(s.done && s.err) &&
  decide (s.held.toNat ≤ 16) && decide (s.acc.toNat < 2 ^ s.held.toNat) &&
  (s.busy || (s.acc == 0#16 && s.held == 0#5)) &&
  (s.errCode.isNone || (s.op.isSome && !s.busy && !s.done))

/-- ENCODE past E_CHECK: the descriptors have passed rule R96's checks, COUNT is SRC_LEN and not 0. -/
def encodeChecked (s : State) : Bool :=
  s.op == some .encode && s.count == s.srcLen && s.count != 0#32 && encodeCheck s == none

/-- DECODE past D_CHECK0: 4 ≤ L and the source range does not wrap (rule R97, steps 1 to 3). -/
def decodeChecked0 (s : State) : Bool :=
  s.op == some .decode && decodeCheck0 s == none

/-- DECODE past D_CHECK: every check of rule R97 has passed and n is not 0. -/
def decodeChecked (s : State) : Bool :=
  decodeChecked0 s && s.count != 0#32 && decodeCheck s == none

/-- Nothing is read, written or held yet. -/
def atStart (s : State) : Bool :=
  s.inPos == 0#32 && s.outPos == 0#32 && s.held == 0#5

/-- ENCODE has packed IN_POS / 4 elements: their bits are the payload bytes written and the bits held (rule R107). -/
def packedSoFar (s : State) : Bool :=
  decide (s.inPos.toNat % 4 = 0) && decide (4 ≤ s.outPos.toNat) &&
  decide (8 * (s.outPos.toNat - 4) + s.held.toNat = 9 * (s.inPos.toNat / 4))

/-- DECODE has written OUT_POS / 4 elements, fewer than n: the bits read are theirs and the bits held (rule R107). -/
def unpackedSoFar (s : State) : Bool :=
  decide (s.outPos.toNat % 4 = 0) && decide (s.outPos.toNat < 4 * s.count.toNat) && decide (4 ≤ s.inPos.toNat) &&
  decide (8 * (s.inPos.toNat - 4) = 9 * (s.outPos.toNat / 4) + s.held.toNat)

/-- What holds before the micro-step of each phase (rule R105's preconditions among it). -/
def phaseInv (s : State) : Bool :=
  match s.phase with
  | .idle => true
  | .eCheck => s.op == some .encode && s.count == s.srcLen && atStart s
  | .eValidate =>
    encodeChecked s && decide (s.inPos.toNat % 4 = 0) && decide (s.inPos.toNat < 4 * s.count.toNat) &&
      s.outPos == 0#32 && s.held == 0#5
  | .eHeader => encodeChecked s && s.inPos == 0#32 && decide (s.outPos.toNat < 4) && s.held == 0#5
  | .eLoad =>
    encodeChecked s && packedSoFar s && decide (s.inPos.toNat < 4 * s.count.toNat) && decide (s.held.toNat ≤ 7)
  | .eEmit =>
    encodeChecked s && packedSoFar s && decide (s.inPos.toNat ≤ 4 * s.count.toNat) && decide (8 ≤ s.held.toNat)
  | .eFlush =>
    encodeChecked s && packedSoFar s && decide (s.inPos.toNat = 4 * s.count.toNat) && decide (1 ≤ s.held.toNat) &&
      decide (s.held.toNat ≤ 7)
  | .dCheck0 => s.op == some .decode && s.count == 0#32 && atStart s
  | .dHeader =>
    decodeChecked0 s && decide (s.inPos.toNat < 4) && s.outPos == 0#32 && s.held == 0#5 &&
      decide (s.count.toNat < 256 ^ s.inPos.toNat)
  | .dCheck => decodeChecked0 s && s.inPos == 4#32 && s.outPos == 0#32 && s.held == 0#5
  | .dFill => decodeChecked s && unpackedSoFar s && decide (s.held.toNat ≤ 8)
  | .dExtract => decodeChecked s && unpackedSoFar s && decide (9 ≤ s.held.toNat)

/-- The invariant of the machine: rule R46's, each phase's, OUT_LEN = 0 while BUSY (rule R139), memory in its
canonical form, no race left over between transactions (rule R64), no store recorded but where the block has stored
(rule R59), and BASE a multiple of 0x40 (rule R9). -/
def State.inv (s : State) : Bool :=
  flagsInv s && phaseInv s && (!s.busy || s.outLen == 0#32) && Memory.wf s.mem &&
  (s.busy || s.stale == [] && s.dstSeen == []) &&
  s.dstSeen.all (fun c => inRange c.1 s.dstAddr.toNat s.outPos.toNat) && Platform.wellFormed s.plat

/-- The block has its turn in s₀, and s is the state its micro-step starts from: nothing is left in the inbox, or the
block's turn comes next in it (rule R10; log entry 1). -/
def BlockTurnAt (s₀ s : State) : Prop :=
  (s₀.inbox = [] ∧ s = s₀) ∨ ∃ rest, s₀.inbox = .block :: rest ∧ s = { s₀ with inbox := rest }

/-- An instruction and then k steps of the machine: with nothing in the inbox, k turns of the block. -/
def transaction (i : Instr) (k : Nat) (s : State) : Host.Outcome State Fault Refusal :=
  match exec i s with
  | .next t => Host.Core.run Sys2Proof.core k t
  | .fault r => .fault r
  | .refused r => .refused r

/-- ENCODE's step count for N ≥ 1 elements (rule R119). -/
def encodeSteps (n : Nat) : Nat := 5 + 2 * n + payload n

/-- DECODE's step count for n ≥ 1 elements (rule R131). -/
def decodeSteps (n : Nat) : Nat := 6 + n + payload n

/-- Bit s of the payload of n groups, most significant bit of each group first, then zeros (rules R51, R79). -/
def streamBit (g : Nat → Group) (n s : Nat) : Bool :=
  decide (s < 9 * n) && (g (s / 9)).getLsbD (8 - s % 9)

/-- Memory at d holds the PackedBuffer of n ≥ 1 groups: the big-endian header and the payload (rule R79). -/
def HoldsPacked (m : Memory) (d n : Nat) (g : Nat → Group) : Prop :=
  (memWord m d).toNat = n ∧
  ∀ j t, j < payload n → t < 8 → (memByte m (d + 4 + j)).getLsbD (7 - t) = streamBit g n (8 * j + t)

/-- The bits of a PackedBuffer's groups as a decoder finds them, pad bits not looked at (rules R51, R129). -/
def HoldsGroups (m : Memory) (d n : Nat) (g : Nat → Group) : Prop :=
  (memWord m d).toNat = n ∧
  ∀ s, s < 9 * n → (memByte m (d + 4 + s / 8)).getLsbD (7 - s % 8) = (g (s / 9)).getLsbD (8 - s % 9)

/-- The block is idle and nothing is pending; [SRC_ADDR, + la) and [DST_ADDR, + ld) end at or below 2^32 and share
no byte (rules R92, R93). -/
def RangesUsable (s : State) (la ld : Nat) : Prop :=
  s.busy = false ∧ s.inbox = [] ∧
  s.srcAddr.toNat + la ≤ 4294967296 ∧ s.dstAddr.toNat + ld ≤ 4294967296 ∧
  (s.srcAddr.toNat + la ≤ s.dstAddr.toNat ∨ s.dstAddr.toNat + ld ≤ s.srcAddr.toNat)

/-- The block's master port reaches every byte of [a, a + len) (rule R173). -/
def Reaches (s : State) (a len : Nat) : Prop := ∀ i, i < len → ramAt s (a + i) = true

/-- ENCODE of N = SRC_LEN ≥ 1 elements passes its descriptor checks and reaches its buffers (rules R96, R173). -/
def EncodeUsable (s : State) : Prop :=
  0 < s.srcLen.toNat ∧ RangesUsable s (4 * s.srcLen.toNat) (4 + payload s.srcLen.toNat) ∧
  4 + payload s.srcLen.toNat ≤ s.dstCap.toNat ∧
  Reaches s s.srcAddr.toNat (4 * s.srcLen.toNat) ∧ Reaches s s.dstAddr.toNat (4 + payload s.srcLen.toNat)

/-- DECODE of L = SRC_LEN bytes whose header is n ≥ 1 passes its checks and reaches the bytes it touches (rules R59,
R97, R173). -/
def DecodeUsable (s : State) (n : Nat) : Prop :=
  0 < n ∧ 4 + payload n ≤ s.srcLen.toNat ∧ RangesUsable s s.srcLen.toNat (4 * n) ∧ 4 * n ≤ s.dstCap.toNat ∧
  Reaches s s.srcAddr.toNat (4 + payload n) ∧ Reaches s s.dstAddr.toNat (4 * n)

/-- Memory m holds the n bytes v at DST_ADDR + OUT_POS, or, at a byte another agent has written during the transaction,
what memory holds there in s; every other byte is as in s (rule R67). -/
def StoredOrRaced (s : State) (m : Memory) (n : Nat) (v : Nat → Nat) : Prop :=
  (∀ j, j < n →
    memByte m (s.dstAddr.toNat + s.outPos.toNat + j) = BitVec.ofNat 8 (v j) ∨
      (staleAt s (s.dstAddr.toNat + s.outPos.toNat + j) ≠ [] ∧
        memByte m (s.dstAddr.toNat + s.outPos.toNat + j) = memByte s.mem (s.dstAddr.toNat + s.outPos.toNat + j))) ∧
  ∀ a, a < s.dstAddr.toNat + s.outPos.toNat ∨ s.dstAddr.toNat + s.outPos.toNat + n ≤ a →
    memByte m a = memByte s.mem a

/-- The transaction running in s stores byte b at address a in a later step of the machine (rule R67). -/
def StoresLater (s : State) (a : Nat) (b : Byte) : Prop :=
  ∃ k u u' w, (∀ i, i ≤ k → ∃ v, Host.Core.run Sys2Proof.core i s = .next v ∧ v.busy = true) ∧
    Host.Core.run Sys2Proof.core k s = .next u ∧ BlockTurnAt u u' ∧ step u = .next w ∧ b ∈ storedAt a u'

/-- Element i of the source sequence in memory (rule R52). -/
def sourceElement (s : State) (i : Nat) : Word := memWord s.mem (s.srcAddr.toNat + 4 * i)

/-- The bits the buffer holds, H = ACC[HELD-1:0], most significant first (rules R17, R99). -/
def heldBits (s : State) : List Bool :=
  (List.range s.held.toNat).map (fun k => s.acc.getLsbD (s.held.toNat - 1 - k))

/-- The bits of a value, most significant first. -/
def bitsOf {w : Nat} (v : BitVec w) : List Bool :=
  (List.range w).map (fun k => v.getLsbD (w - 1 - k))

end Sys2Proof.Machine
end

