-- ==== Sys2Proof/Certificates/Slice0/Obligations.lean ====
section
/-! DEFINITION. The statements for the provers, each with the rule of spec/ it formalises. In all of them `busRdata` is
where the model keeps the data a read returns to the host (log entry 3), an empty `inbox` means that the block has its
turn (log entry 1), `stale`, `dstSeen`, `draws` and `plat` are the model's own fields (log entries 8, 11, 13, 14), and
`BlockTurnAt s₀ s` says that the block has its turn in s₀, alone or with other events to come after it. -/

open Sys2Proof Sys2Proof.Machine

/-- Rule R47: what reset leaves in every register, the interrupt output after reset, and that a reset of an idle
block leaves memory as it is. -/
def Obligations.ResetLeavesRegistersZero : Prop :=
  (∀ i, i.direction = .read →
    exec i State.reset = .next { State.reset with busRdata := if i = .rdId then 0x46575039#32 else 0#32 }) ∧
  irq State.reset = false ∧ State.reset.phase = .idle ∧ State.reset.busy = false ∧
  (∀ (s : State) rest, s.inbox = .reset :: rest → s.busy = false →
    step s = .next { State.reset with
      mem := s.mem, draws := s.draws, busRdata := s.busRdata, inbox := rest, plat := s.plat })

/-- Rules R162 and R163: a reset at any time puts every register at its reset value; memory is unchanged while the
checks have not all passed, and otherwise outside the destination range. The bytes inside it are free values (log entry 14). -/
def Obligations.ResetAtAnyTime : Prop :=
  ∀ (s : State) rest, s.inbox = .reset :: rest →
    ∃ t, step s = .next t ∧
      t = { State.reset with
        mem := t.mem, draws := t.draws, busRdata := s.busRdata, inbox := rest, plat := s.plat } ∧
      (s.phase = .eCheck ∨ s.phase = .eValidate ∨ s.phase = .dCheck0 ∨ s.phase = .dHeader ∨ s.phase = .dCheck →
        t.mem = s.mem) ∧
      (∀ a, a < s.dstAddr.toNat ∨ s.dstAddr.toNat + outputLength s ≤ a → memByte t.mem a = memByte s.mem a)

/-- Words of the opcode table read by the decoder: the two command words, a read, and three writes with data. The bits
of direction and data are the model's (log entry 4). -/
def Obligations.TableWordSamples : Prop :=
  decodeTableWord 32 0x00000001 = some .encode ∧ decodeTableWord 32 0x00000002 = some .decode ∧
  decodeTableWord 32 0x80000001 = some (.wrCmd 0x80000001#32) ∧
  decodeTableWord 8 0x3C = some .rdOutPos ∧ decodeTableWord 8 0x02 = none ∧
  decodeTableWord 40 0x0000000E48 = some (.wrStatus 0xE#32) ∧
  decodeTableWord 40 0x0000100050 = some (.wrSrcAddr 0x1000#32) ∧
  decodeTableWord 40 0x0000000144 = some .encode

/-- Decode and encode agree: every well-formed instruction, with every word it can write, is read back from its
number (rules R73, R83). The numbering of direction and data is the model's (log entry 4). -/
def Obligations.TableWordRoundTrip : Prop :=
  ∀ i : Instr, i.wellFormed = true →
    i.tableWord < 1099511627776 ∧ decodeTableWord 40 i.tableWord = some i

/-- Every admitted access has one meaning, and every well-formed instruction one access, wherever the window is. Which
constructor stands for a write of 1 or 2 to CMD is the model's choice (log entry 5). -/
def Obligations.AccessHasOneMeaning : Prop :=
  ∀ (base : Nat) (a : BusAccess) (i : Instr),
    decodeAccess base a = .ok i ↔ i.wellFormed = true ∧ encodeAccess base i = a

/-- Rule R55, inside the window: an aligned 32-bit access runs an instruction, and any other is refused. -/
def Obligations.OnlyAlignedWordsAdmitted : Prop :=
  ∀ (s : State) a rest, s.inbox = .bus a :: rest → s.plat.base ≤ a.addr → a.addr < s.plat.base + 0x40 →
    (a.bytes = 4 ∧ (a.addr - s.plat.base) % 4 = 0 →
      ∃ i, decodeAccess s.plat.base a = .ok i ∧ step s = exec i { s with inbox := rest }) ∧
    (¬ (a.bytes = 4 ∧ (a.addr - s.plat.base) % 4 = 0) → ∃ r, step s = .refused (.unadmittedAccess r))

/-- A step runs the decoded instruction: the access at the head of the inbox is taken off it and executed, and the
instruction a table word stands for is the one the next step runs. The inbox is the model's (log entries 1 and 2). -/
def Obligations.StepRunsDecodedAccess : Prop :=
  (∀ (s : State) a rest i, s.inbox = .bus a :: rest → decodeAccess s.plat.base a = .ok i →
    step s = exec i { s with inbox := rest }) ∧
  (∀ (s : State) nbits w i, decodeTableWord nbits w = some i → step (s.withFetchWord nbits w) = exec i s)

/-- Rules R28 and R161: an idle block takes no step, its turn leaves the state as it is; a busy block takes in its turn
the micro-step PHASE names. The empty inbox as the block's turn is the model's (log entry 1), and so is a turn that
leaves the state as it is (log entry 26). -/
def Obligations.IdleBlockTakesNoStep : Prop :=
  (∀ (s : State), s.busy = false →
    (s.inbox = [] → step s = .next s) ∧
    (∀ rest, s.inbox = .block :: rest → step s = .next { s with inbox := rest })) ∧
  (∀ (s₀ s : State), BlockTurnAt s₀ s → s.busy = true → step s₀ = microStep s)

/-- Rule R133: ID reads as its constant and ignores writes. -/
def Obligations.IdRegisterAccess : Prop :=
  ∀ (s : State) w, exec .rdId s = .next { s with busRdata := 0x46575039#32 } ∧ exec (.wrId w) s = .next s

/-- Rule R134: CMD reads as 0; a write of w is accepted if BUSY = 0 and w is 1 or 2, as ENCODE or DECODE, and
rejected otherwise. -/
def Obligations.CmdRegisterAccess : Prop :=
  ∀ (s : State) w, exec .rdCmd s = .next { s with busRdata := 0#32 } ∧
    (s.busy = false ∧ w = 1#32 → exec (.wrCmd w) s = exec .encode s ∧
      ∃ t, exec (.wrCmd w) s = .next t ∧ t.busy = true ∧ t.op = some .encode ∧ t.cmdRej = s.cmdRej) ∧
    (s.busy = false ∧ w = 2#32 → exec (.wrCmd w) s = exec .decode s ∧
      ∃ t, exec (.wrCmd w) s = .next t ∧ t.busy = true ∧ t.op = some .decode ∧ t.cmdRej = s.cmdRej) ∧
    (¬ (s.busy = false ∧ (w = 1#32 ∨ w = 2#32)) → exec (.wrCmd w) s = .next { s with cmdRej := true })

/-- Rule R89: accepting ENCODE and DECODE, every field written and no other, and the interrupt output dropped. -/
def Obligations.CommandAcceptance : Prop :=
  ∀ (s : State), s.busy = false →
    exec .encode s = .next { s with
      busy := true, done := false, err := false, errCode := none, op := some .encode,
      errIndex := 0#32, errValue := 0#32, outLen := 0#32, inPos := 0#32, outPos := 0#32,
      acc := 0#16, held := 0#5, count := s.srcLen, phase := .eCheck, stale := [], dstSeen := [] } ∧
    exec .decode s = .next { s with
      busy := true, done := false, err := false, errCode := none, op := some .decode,
      errIndex := 0#32, errValue := 0#32, outLen := 0#32, inPos := 0#32, outPos := 0#32,
      acc := 0#16, held := 0#5, count := 0#32, phase := .dCheck0, stale := [], dstSeen := [] } ∧
    ∀ t, exec .encode s = .next t ∨ exec .decode s = .next t → irq t = false

/-- Rules R75 and R88: a command written while BUSY = 1, and a reserved word at any time, sets CMD_REJ and changes
nothing else. -/
def Obligations.CommandRejection : Prop :=
  (∀ (s : State), s.busy = true →
    exec .encode s = .next { s with cmdRej := true } ∧ exec .decode s = .next { s with cmdRej := true } ∧
    ∀ w, exec (.wrCmd w) s = .next { s with cmdRej := true }) ∧
  (∀ (s : State) w, w.extractLsb' 4 28 ≠ 0#28 ∨ w = 0#32 ∨ 3 ≤ w.toNat → exec (.wrCmd w) s = .next { s with cmdRej := true }) ∧
  (∀ (s : State), irq { s with cmdRej := true } = irq s)

/-- Rule R135: STATUS read field by field, with the codes of OP, ERRCODE and PHASE (rules R26, R28, R142), and its
write-one-to-clear bits. -/
def Obligations.StatusRegisterAccess : Prop :=
  (∀ (s : State), ∃ v : Word, exec .rdStatus s = .next { s with busRdata := v } ∧
    v.getLsbD 0 = s.busy ∧ v.getLsbD 1 = s.done ∧ v.getLsbD 2 = s.err ∧ v.getLsbD 3 = s.cmdRej ∧
    v.extractLsb' 4 4 = (match s.op with | none => 0#4 | some .encode => 1#4 | some .decode => 2#4) ∧
    v.extractLsb' 8 4 = (match s.errCode with
      | none => 0#4 | some .invalidInput => 1#4 | some .outOfRange => 2#4 | some .truncatedBuffer => 3#4
      | some .capacity => 5#4) ∧
    v.extractLsb' 12 4 = (match s.phase with
      | .idle => 0#4 | .eCheck => 1#4 | .eValidate => 2#4 | .eHeader => 3#4 | .eLoad => 4#4 | .eEmit => 5#4
      | .eFlush => 6#4 | .dCheck0 => 7#4 | .dHeader => 8#4 | .dCheck => 9#4 | .dFill => 10#4 | .dExtract => 11#4) ∧
    v.extractLsb' 16 16 = 0#16) ∧
  (∀ (s : State) w, exec (.wrStatus w) s = .next { s with
    done := if w.getLsbD 1 then false else s.done
    err := if w.getLsbD 2 then false else s.err
    cmdRej := if w.getLsbD 3 then false else s.cmdRej })

/-- Rule R136: IRQ_EN read and written at any time, its upper bits ignored; IRQ follows at once. -/
def Obligations.IrqEnRegisterAccess : Prop :=
  (∀ (s : State), ∃ v : Word, exec .rdIrqEn s = .next { s with busRdata := v } ∧
    v.getLsbD 0 = s.doneIe ∧ v.getLsbD 1 = s.errIe ∧ v.extractLsb' 2 30 = 0#30) ∧
  (∀ (s : State) w, exec (.wrIrqEn w) s = .next { s with doneIe := w.getLsbD 0, errIe := w.getLsbD 1 } ∧
    irq { s with doneIe := w.getLsbD 0, errIe := w.getLsbD 1 } =
      (s.done && w.getLsbD 0 || s.err && w.getLsbD 1))

/-- Rules R34 and R137: the descriptors read back, take a written word while idle, and ignore it while BUSY. -/
def Obligations.DescriptorRegisterAccess : Prop :=
  (∀ (s : State), exec .rdSrcAddr s = .next { s with busRdata := s.srcAddr } ∧
    exec .rdSrcLen s = .next { s with busRdata := s.srcLen } ∧
    exec .rdDstAddr s = .next { s with busRdata := s.dstAddr } ∧
    exec .rdDstCap s = .next { s with busRdata := s.dstCap }) ∧
  (∀ (s : State) w, s.busy = false →
    exec (.wrSrcAddr w) s = .next { s with srcAddr := w } ∧ exec (.wrSrcLen w) s = .next { s with srcLen := w } ∧
    exec (.wrDstAddr w) s = .next { s with dstAddr := w } ∧ exec (.wrDstCap w) s = .next { s with dstCap := w }) ∧
  (∀ (s : State) w, s.busy = true →
    exec (.wrSrcAddr w) s = .next s ∧ exec (.wrSrcLen w) s = .next s ∧
    exec (.wrDstAddr w) s = .next s ∧ exec (.wrDstCap w) s = .next s)

/-- Rules R138 to R141: the result and progress registers read as their values, zero-extended, and ignore writes. -/
def Obligations.ResultRegisterAccess : Prop :=
  (∀ (s : State), exec .rdCount s = .next { s with busRdata := s.count } ∧
    exec .rdOutLen s = .next { s with busRdata := s.outLen } ∧
    exec .rdErrIndex s = .next { s with busRdata := s.errIndex } ∧
    exec .rdErrValue s = .next { s with busRdata := s.errValue } ∧
    exec .rdAcc s = .next { s with busRdata := BitVec.ofNat 32 s.acc.toNat } ∧
    exec .rdHeld s = .next { s with busRdata := BitVec.ofNat 32 s.held.toNat } ∧
    exec .rdInPos s = .next { s with busRdata := s.inPos } ∧
    exec .rdOutPos s = .next { s with busRdata := s.outPos }) ∧
  (∀ (s : State) w, exec (.wrCount w) s = .next s ∧ exec (.wrOutLen w) s = .next s ∧ exec (.wrErrIndex w) s = .next s ∧
    exec (.wrErrValue w) s = .next s ∧ exec (.wrAcc w) s = .next s ∧ exec (.wrHeld w) s = .next s ∧
    exec (.wrInPos w) s = .next s ∧ exec (.wrOutPos w) s = .next s)

/-- Rule R44: IRQ is a level, (DONE and DONE_IE) or (ERR and ERR_IE); after the host clears bits or writes the enables it
is at once that function of the new bits, so it falls when the one bit that drives it is cleared or its enable is;
acceptance drops it; it is 0 after reset. -/
def Obligations.InterruptIsLevel : Prop :=
  (∀ (s : State), irq s = true ↔ (s.done = true ∧ s.doneIe = true) ∨ (s.err = true ∧ s.errIe = true)) ∧
  (∀ (s : State) w, ∃ t, exec (.wrStatus w) s = .next t ∧
    irq t = (s.done && !w.getLsbD 1 && s.doneIe || s.err && !w.getLsbD 2 && s.errIe) ∧
    (s.err = false ∧ w.getLsbD 1 = true → irq t = false) ∧ (s.done = false ∧ w.getLsbD 2 = true → irq t = false)) ∧
  (∀ (s : State) w, ∃ t, exec (.wrIrqEn w) s = .next t ∧
    irq t = (s.done && w.getLsbD 0 || s.err && w.getLsbD 1) ∧
    (s.err = false ∧ w.getLsbD 0 = false → irq t = false) ∧
    (s.done = false ∧ w.getLsbD 1 = false → irq t = false)) ∧
  (∀ (s t : State), s.busy = false → exec .encode s = .next t ∨ exec .decode s = .next t → irq t = false) ∧
  irq State.reset = false

/-- Rules R117 and R149: a step of the block that ends the transaction does exactly what `finish` or `raise` does. -/
def Obligations.TransactionEndsByFinishOrRaise : Prop :=
  ∀ (s₀ s t : State), BlockTurnAt s₀ s → s.busy = true → step s₀ = .next t → t.busy = false →
    (t = { s with
        outLen := t.outPos, acc := 0#16, held := 0#5, busy := false, done := true, phase := .idle,
        outPos := t.outPos, mem := t.mem, draws := t.draws, stale := [], dstSeen := [] } ∧ (s.doneIe = true → irq t = true)) ∨
    (∃ e idx val, t = { s with
        errCode := some e, errIndex := idx, errValue := val, outLen := 0#32, acc := 0#16, held := 0#5,
        busy := false, err := true, phase := .idle, draws := t.draws, stale := [], dstSeen := [] } ∧
      (e ≠ .outOfRange → idx = 0#32 ∧ val = 0#32) ∧ (s.errIe = true → irq t = true))

/-- Rule R110: E_CHECK, its checks in their order. -/
def Obligations.EncodeCheckStep : Prop :=
  ∀ (s₀ s : State), BlockTurnAt s₀ s → s.busy = true → s.phase = .eCheck →
    step s₀ = .next (
      if s.count.toNat = 0 then finish s
      else if 4294967296 < s.srcAddr.toNat + 4 * s.count.toNat then raise .invalidInput 0#32 0#32 s
      else if s.dstCap.toNat < 4 + (9 * s.count.toNat + 7) / 8 then raise .capacity 0#32 0#32 s
      else if 4294967296 < s.dstAddr.toNat + (4 + (9 * s.count.toNat + 7) / 8) then
        raise .invalidInput 0#32 0#32 s
      else if s.srcAddr.toNat < s.dstAddr.toNat + (4 + (9 * s.count.toNat + 7) / 8) ∧
          s.dstAddr.toNat < s.srcAddr.toNat + 4 * s.count.toNat then raise .invalidInput 0#32 0#32 s
      else { s with phase := .eValidate })

/-- Rule R112: E_VALIDATE of one element, where no other agent has raced for its bytes. -/
def Obligations.EncodeValidateStep : Prop :=
  ∀ (s₀ s : State), BlockTurnAt s₀ s → s.busy = true → s.phase = .eValidate →
    (∀ j, j < 4 → staleAt s (s.srcAddr.toNat + s.inPos.toNat + j) = []) →
    Reaches s (s.srcAddr.toNat + s.inPos.toNat) 4 →
    step s₀ = .next (
      if (memWord s.mem (s.srcAddr.toNat + s.inPos.toNat)).toNat < 1 ∨
          300 < (memWord s.mem (s.srcAddr.toNat + s.inPos.toNat)).toNat then
        raise .outOfRange (BitVec.ofNat 32 (s.inPos.toNat / 4))
          (memWord s.mem (s.srcAddr.toNat + s.inPos.toNat)) s
      else if (s.inPos + 4#32).toNat = 4 * s.count.toNat then { s with inPos := 0#32, phase := .eHeader }
      else { s with inPos := s.inPos + 4#32 })

/-- Rule R113: E_HEADER writes one byte of the big-endian count. -/
def Obligations.EncodeHeaderStep : Prop :=
  ∀ (s₀ s : State), BlockTurnAt s₀ s → s.busy = true → s.phase = .eHeader → s.outPos.toNat < 4 →
    staleAt s (s.dstAddr.toNat + s.outPos.toNat) = [] →
    ramAt s (s.dstAddr.toNat + s.outPos.toNat) = true →
    step s₀ = .next { s with
      mem := memSet s.mem (s.dstAddr.toNat + s.outPos.toNat)
        (BitVec.ofNat 8 (s.count.toNat / 2 ^ (24 - 8 * s.outPos.toNat)))
      dstSeen :=
        (s.dstAddr.toNat + s.outPos.toNat, BitVec.ofNat 8 (s.count.toNat / 2 ^ (24 - 8 * s.outPos.toNat))) ::
        (s.dstAddr.toNat + s.outPos.toNat, memByte s.mem (s.dstAddr.toNat + s.outPos.toNat)) :: s.dstSeen
      outPos := s.outPos + 1#32
      phase := if s.outPos.toNat = 3 then .eLoad else .eHeader }

/-- Rule R114: E_LOAD pushes (w - 1) mod 512 into the bit buffer (rule R99). -/
def Obligations.EncodeLoadStep : Prop :=
  ∀ (s₀ s : State), BlockTurnAt s₀ s → s.busy = true → s.phase = .eLoad → s.held.toNat ≤ 7 →
    s.acc.toNat < 2 ^ s.held.toNat → (∀ j, j < 4 → staleAt s (s.srcAddr.toNat + s.inPos.toNat + j) = []) →
    Reaches s (s.srcAddr.toNat + s.inPos.toNat) 4 →
    step s₀ = .next { s with
      acc := BitVec.ofNat 16
        (s.acc.toNat * 512 + ((memWord s.mem (s.srcAddr.toNat + s.inPos.toNat)).toNat + 511) % 512)
      held := BitVec.ofNat 5 (s.held.toNat + 9)
      inPos := s.inPos + 4#32
      phase := .eEmit }

/-- Rule R115: E_EMIT writes the first eight held bits (rule R100) and chooses the next phase. -/
def Obligations.EncodeEmitStep : Prop :=
  ∀ (s₀ s : State), BlockTurnAt s₀ s → s.busy = true → s.phase = .eEmit →
    staleAt s (s.dstAddr.toNat + s.outPos.toNat) = [] → 8 ≤ s.held.toNat → s.held.toNat ≤ 16 →
    s.acc.toNat < 2 ^ s.held.toNat → ramAt s (s.dstAddr.toNat + s.outPos.toNat) = true →
    ∃ u, u = { s with
        mem := memSet s.mem (s.dstAddr.toNat + s.outPos.toNat)
          (BitVec.ofNat 8 (s.acc.toNat / 2 ^ (s.held.toNat - 8)))
        dstSeen :=
          (s.dstAddr.toNat + s.outPos.toNat, BitVec.ofNat 8 (s.acc.toNat / 2 ^ (s.held.toNat - 8))) ::
          (s.dstAddr.toNat + s.outPos.toNat, memByte s.mem (s.dstAddr.toNat + s.outPos.toNat)) :: s.dstSeen
        acc := BitVec.ofNat 16 (s.acc.toNat % 2 ^ (s.held.toNat - 8))
        held := BitVec.ofNat 5 (s.held.toNat - 8)
        outPos := s.outPos + 1#32 } ∧
      step s₀ = .next (
        if s.held.toNat = 16 then u
        else if s.inPos.toNat < 4 * s.count.toNat then { u with phase := .eLoad }
        else if 8 < s.held.toNat then { u with phase := .eFlush }
        else finish u)

/-- Rule R116: E_FLUSH writes the held bits above zero padding (rule R101) and finishes. -/
def Obligations.EncodeFlushStep : Prop :=
  ∀ (s₀ s : State), BlockTurnAt s₀ s → s.busy = true → s.phase = .eFlush →
    staleAt s (s.dstAddr.toNat + s.outPos.toNat) = [] → 1 ≤ s.held.toNat → s.held.toNat ≤ 7 →
    s.acc.toNat < 2 ^ s.held.toNat → ramAt s (s.dstAddr.toNat + s.outPos.toNat) = true →
    step s₀ = .next { s with
      mem := memSet s.mem (s.dstAddr.toNat + s.outPos.toNat)
        (BitVec.ofNat 8 (s.acc.toNat * 2 ^ (8 - s.held.toNat)))
      outPos := s.outPos + 1#32
      outLen := s.outPos + 1#32
      acc := 0#16, held := 0#5, busy := false, done := true, phase := .idle, stale := [], dstSeen := [] }

/-- Rule R121: D_CHECK0, its checks in their order. -/
def Obligations.DecodeFirstCheckStep : Prop :=
  ∀ (s₀ s : State), BlockTurnAt s₀ s → s.busy = true → s.phase = .dCheck0 →
    step s₀ = .next (
      if s.srcLen.toNat = 0 then finish s
      else if 4294967296 < s.srcAddr.toNat + s.srcLen.toNat then raise .invalidInput 0#32 0#32 s
      else if s.srcLen.toNat < 4 then raise .truncatedBuffer 0#32 0#32 s
      else { s with phase := .dHeader })

/-- Rule R123: D_HEADER shifts one header byte into COUNT. -/
def Obligations.DecodeHeaderStep : Prop :=
  ∀ (s₀ s : State), BlockTurnAt s₀ s → s.busy = true → s.phase = .dHeader →
    staleAt s (s.srcAddr.toNat + s.inPos.toNat) = [] →
    ramAt s (s.srcAddr.toNat + s.inPos.toNat) = true →
    step s₀ = .next { s with
      count := BitVec.ofNat 32
        (s.count.toNat * 256 + (memByte s.mem (s.srcAddr.toNat + s.inPos.toNat)).toNat)
      inPos := s.inPos + 1#32
      phase := if s.inPos = 3#32 then .dCheck else .dHeader }

/-- Rule R124: D_CHECK, its checks in their order. -/
def Obligations.DecodeSecondCheckStep : Prop :=
  ∀ (s₀ s : State), BlockTurnAt s₀ s → s.busy = true → s.phase = .dCheck →
    step s₀ = .next (
      if s.srcLen.toNat < 4 + (9 * s.count.toNat + 7) / 8 then raise .truncatedBuffer 0#32 0#32 s
      else if s.dstCap.toNat < 4 * s.count.toNat then raise .capacity 0#32 0#32 s
      else if 0 < s.count.toNat ∧ 4294967296 < s.dstAddr.toNat + 4 * s.count.toNat then
        raise .invalidInput 0#32 0#32 s
      else if 0 < s.count.toNat ∧ s.srcAddr.toNat < s.dstAddr.toNat + 4 * s.count.toNat ∧
          s.dstAddr.toNat < s.srcAddr.toNat + s.srcLen.toNat then raise .invalidInput 0#32 0#32 s
      else if s.count.toNat = 0 then finish s
      else { s with phase := .dFill })

/-- Rule R126: D_FILL raises at the end of the input, else takes one byte into the bit buffer (rule R102). -/
def Obligations.DecodeFillStep : Prop :=
  ∀ (s₀ s : State), BlockTurnAt s₀ s → s.busy = true → s.phase = .dFill →
    (s.inPos = s.srcLen → step s₀ = .next (raise .truncatedBuffer 0#32 0#32 s)) ∧
    (s.inPos ≠ s.srcLen → staleAt s (s.srcAddr.toNat + s.inPos.toNat) = [] → s.held.toNat ≤ 8 → s.acc.toNat < 2 ^ s.held.toNat →
      ramAt s (s.srcAddr.toNat + s.inPos.toNat) = true →
      step s₀ = .next { s with
        acc := BitVec.ofNat 16
          (s.acc.toNat * 256 + (memByte s.mem (s.srcAddr.toNat + s.inPos.toNat)).toNat)
        held := BitVec.ofNat 5 (s.held.toNat + 8)
        inPos := s.inPos + 1#32
        phase := if 1 ≤ s.held.toNat then .dExtract else .dFill })

/-- Rule R127: D_EXTRACT writes the first nine held bits plus 1 as a word (rule R103), and finishes or goes on. -/
def Obligations.DecodeExtractStep : Prop :=
  ∀ (s₀ s : State), BlockTurnAt s₀ s → s.busy = true → s.phase = .dExtract →
    (∀ j, j < 4 → staleAt s (s.dstAddr.toNat + s.outPos.toNat + j) = []) → 9 ≤ s.held.toNat → s.held.toNat ≤ 16 →
    s.acc.toNat < 2 ^ s.held.toNat → Reaches s (s.dstAddr.toNat + s.outPos.toNat) 4 →
    ∃ t u, step s₀ = .next t ∧
      u = { s with
        mem := u.mem
        dstSeen := u.dstSeen
        acc := BitVec.ofNat 16 (s.acc.toNat % 2 ^ (s.held.toNat - 9))
        held := BitVec.ofNat 5 (s.held.toNat - 9)
        outPos := s.outPos + 4#32 } ∧
      (memWord u.mem (s.dstAddr.toNat + s.outPos.toNat)).toNat = s.acc.toNat / 2 ^ (s.held.toNat - 9) + 1 ∧
      (∀ a, a < s.dstAddr.toNat + s.outPos.toNat ∨ s.dstAddr.toNat + s.outPos.toNat + 4 ≤ a →
        memByte u.mem a = memByte s.mem a) ∧
      t = (if (s.outPos + 4#32).toNat = 4 * s.count.toNat then finish u else { u with phase := .dFill })

/-- Rule R49: a micro-step whose memory access is at an address the block cannot reach has no step. The fault that says
so, and a four-byte access being stuck if one byte is unreachable, are the model's (log entries 9 and 21). -/
def Obligations.UnreachableAccessIsStuck : Prop :=
  ∀ (s₀ s : State), BlockTurnAt s₀ s → s.busy = true →
    (s.phase = .eValidate ∨ s.phase = .eLoad → ¬ Reaches s (s.srcAddr.toNat + s.inPos.toNat) 4 →
      step s₀ = .fault .stuckAccess) ∧
    ((s.phase = .eHeader ∧ s.outPos.toNat < 4) ∨ (s.phase = .eEmit ∧ 8 ≤ s.held.toNat) ∨
        (s.phase = .eFlush ∧ 1 ≤ s.held.toNat ∧ s.held.toNat ≤ 7) →
      ramAt s (s.dstAddr.toNat + s.outPos.toNat) = false → step s₀ = .fault .stuckAccess) ∧
    (s.phase = .dHeader ∨ (s.phase = .dFill ∧ s.inPos ≠ s.srcLen) →
      ramAt s (s.srcAddr.toNat + s.inPos.toNat) = false → step s₀ = .fault .stuckAccess) ∧
    (s.phase = .dExtract ∧ 9 ≤ s.held.toNat → ¬ Reaches s (s.dstAddr.toNat + s.outPos.toNat) 4 →
      step s₀ = .fault .stuckAccess)

/-- Rules R99 to R103: each bit-buffer operation as what it does to the string of held bits, with ACC inside that
string afterwards. -/
def Obligations.BitBufferActsOnHeldString : Prop :=
  ∀ (s : State), s.acc.toNat < 2 ^ s.held.toNat →
    (∀ v, s.held.toNat ≤ 7 → heldBits (push9 v s) = heldBits s ++ bitsOf v ∧
      (push9 v s).acc.toNat < 2 ^ (push9 v s).held.toNat) ∧
    (8 ≤ s.held.toNat → s.held.toNat ≤ 16 → heldBits s = bitsOf (emit8 s).1 ++ heldBits (emit8 s).2 ∧
      (emit8 s).2.acc.toNat < 2 ^ (emit8 s).2.held.toNat) ∧
    (1 ≤ s.held.toNat → s.held.toNat ≤ 7 →
      bitsOf (padFlush s).1 = heldBits s ++ List.replicate (8 - s.held.toNat) false ∧
      (padFlush s).2.acc = 0#16 ∧ (padFlush s).2.held = 0#5) ∧
    (∀ b, s.held.toNat ≤ 8 → heldBits (fill8 b s) = heldBits s ++ bitsOf b ∧
      (fill8 b s).acc.toNat < 2 ^ (fill8 b s).held.toNat) ∧
    (9 ≤ s.held.toNat → s.held.toNat ≤ 16 → heldBits s = bitsOf (pull9 s).1 ++ heldBits (pull9 s).2 ∧
      (pull9 s).2.acc.toNat < 2 ^ (pull9 s).2.held.toNat)

/-- Rules R92 and R93: a range wraps exactly when it has a byte at or past 2^32, and two ranges overlap exactly when
they share a byte. -/
def Obligations.RangeChecksMeanBytes : Prop :=
  (∀ a len, wraps a len = true ↔ ∃ x, a ≤ x ∧ x < a + len ∧ 4294967296 ≤ x) ∧
  (∀ a la d ld, overlaps a la d ld = true ↔ ∃ x, (a ≤ x ∧ x < a + la) ∧ (d ≤ x ∧ x < d + ld))

/-- The invariant holds right after reset (rules R46, R47), with any memory in canonical form, any events to come and
any platform. -/
def Obligations.InvariantAtReset : Prop :=
  State.reset.inv = true ∧
  ∀ m inbox plat, Memory.wf m = true → plat.wellFormed = true →
    State.inv { State.reset with mem := m, inbox := inbox, plat := plat } = true

/-- Rules R46, R98, R104, R105: every step, of whichever agent, keeps the invariant: the six invariants of R46, the
bit buffer's bound, each phase's preconditions and progress, and memory's canonical form. The clauses about memory's
form, the race lists and the platform are the model's (log entries 8, 10, 11 and 13). -/
def Obligations.EveryStepKeepsInvariant : Prop :=
  ∀ (s t : State), s.inv = true → step s = .next t → t.inv = true

/-- Rules R105 and R125: under the invariant no bit-buffer precondition ever fails, and D_FILL never finds the input
exhausted. The fault is the model's, for states no run reaches (log entry 15). -/
def Obligations.PreconditionsAlwaysHold : Prop :=
  ∀ (s : State), s.inv = true →
    step s ≠ .fault .brokenPrecondition ∧ (s.phase = .dFill → s.inPos.toNat < s.srcLen.toNat)

/-- Rules R98 and R150: a step of the block that sets ERR writes no memory, and comes before any byte was written. -/
def Obligations.FailureWritesNoMemory : Prop :=
  ∀ (s₀ s t : State), BlockTurnAt s₀ s → s.inv = true → s.busy = true → step s₀ = .next t → t.err = true →
    t.mem = s.mem ∧ s.outPos = 0#32 ∧ checksPassed s.phase = false ∧ t.outLen = 0#32

/-- Rule R56: what a micro-step stores, and where: one byte at DST_ADDR + OUT_POS in E_HEADER, E_EMIT and E_FLUSH, four
in D_EXTRACT, none in any other phase; every other byte is unchanged. `storedAt` names the byte stored, which lands but
in a race (rule R67). -/
def Obligations.MicroStepFootprint : Prop :=
  ∀ (s₀ s t : State), BlockTurnAt s₀ s → s.busy = true → step s₀ = .next t → ∀ a,
    (a < s.dstAddr.toNat + s.outPos.toNat ∨
        s.dstAddr.toNat + s.outPos.toNat +
          (if s.phase = .eHeader ∨ s.phase = .eEmit ∨ s.phase = .eFlush then 1
            else if s.phase = .dExtract then 4 else 0) ≤ a →
      memByte t.mem a = memByte s.mem a ∧ storedAt a s = []) ∧
    (∀ b, b ∈ storedAt a s →
      memByte t.mem a = b ∨ (staleAt s a ≠ [] ∧ memByte t.mem a = memByte s.mem a))

/-- Rule R59: under the invariant a storing micro-step stores inside the destination range and outside the source
range. -/
def Obligations.StoresStayInDestination : Prop :=
  ∀ (s : State), s.inv = true →
    (s.phase = .eHeader ∨ s.phase = .eEmit ∨ s.phase = .eFlush →
      s.outPos.toNat + 1 ≤ 4 + payload s.count.toNat ∧ 4 + payload s.count.toNat ≤ s.dstCap.toNat ∧
      s.dstAddr.toNat + (4 + payload s.count.toNat) ≤ 4294967296 ∧
      (s.dstAddr.toNat + s.outPos.toNat < s.srcAddr.toNat ∨
        s.srcAddr.toNat + 4 * s.count.toNat ≤ s.dstAddr.toNat + s.outPos.toNat)) ∧
    (s.phase = .dExtract →
      s.outPos.toNat + 4 ≤ 4 * s.count.toNat ∧ 4 * s.count.toNat ≤ s.dstCap.toNat ∧
      s.dstAddr.toNat + 4 * s.count.toNat ≤ 4294967296 ∧
      (s.dstAddr.toNat + s.outPos.toNat + 4 ≤ s.srcAddr.toNat ∨
        s.srcAddr.toNat + s.srcLen.toNat ≤ s.dstAddr.toNat + s.outPos.toNat))

/-- The frame of every instruction (rules R58, R132): all 34 leave every byte of memory, the events to come and the
platform; a read changes only the data returned; each register changes only by the instruction the spec names. -/
def Obligations.InstructionFrame : Prop :=
  ∀ (s t : State) i, exec i s = .next t →
    (∀ a, memByte t.mem a = memByte s.mem a) ∧ t.mem = s.mem ∧ t.inbox = s.inbox ∧ t.plat = s.plat ∧
    t.draws = s.draws ∧
    (i.direction = .read → t = { s with busRdata := t.busRdata }) ∧
    (i.direction ≠ .read → t.busRdata = s.busRdata) ∧
    ((∀ w, i ≠ .wrSrcAddr w) → t.srcAddr = s.srcAddr) ∧ ((∀ w, i ≠ .wrSrcLen w) → t.srcLen = s.srcLen) ∧
    ((∀ w, i ≠ .wrDstAddr w) → t.dstAddr = s.dstAddr) ∧ ((∀ w, i ≠ .wrDstCap w) → t.dstCap = s.dstCap) ∧
    ((∀ w, i ≠ .wrIrqEn w) → t.doneIe = s.doneIe ∧ t.errIe = s.errIe) ∧
    (i.offset ≠ 0x04 →
      t.busy = s.busy ∧ t.op = s.op ∧ t.errCode = s.errCode ∧ t.phase = s.phase ∧ t.count = s.count ∧
      t.outLen = s.outLen ∧ t.errIndex = s.errIndex ∧ t.errValue = s.errValue ∧ t.acc = s.acc ∧
      t.held = s.held ∧ t.inPos = s.inPos ∧ t.outPos = s.outPos ∧ t.stale = s.stale) ∧
    (i.offset ≠ 0x04 → (∀ w, i ≠ .wrStatus w) →
      t.done = s.done ∧ t.err = s.err ∧ t.cmdRej = s.cmdRej)

/-- Rule R22: BUSY rises only by accepting ENCODE or DECODE, and falls only by a step of the block or a reset. -/
def Obligations.BusyChangesOnlyAsStated : Prop :=
  ∀ (s t : State), step s = .next t →
    (s.busy = false → t.busy = true →
      ∃ a rest, s.inbox = .bus a :: rest ∧
        (decodeAccess s.plat.base a = .ok .encode ∨ decodeAccess s.plat.base a = .ok .decode)) ∧
    (s.busy = true → t.busy = false →
      s.inbox = [] ∨ (∃ rest, s.inbox = .block :: rest) ∨ (∃ rest, s.inbox = .reset :: rest))

/-- Rules R23 and R24: DONE and ERR are set only by a step of the block that ends the transaction, and cleared only by
an accepted command, by writing 1 to their bit of STATUS, or by reset. -/
def Obligations.DoneAndErrChangeOnlyAsStated : Prop :=
  ∀ (s t : State), step s = .next t →
    ((s.done = false ∧ t.done = true) ∨ (s.err = false ∧ t.err = true) →
      (s.inbox = [] ∨ ∃ rest, s.inbox = .block :: rest) ∧ s.busy = true ∧ t.busy = false) ∧
    ((s.done = true ∧ t.done = false) ∨ (s.err = true ∧ t.err = false) →
      (∃ rest, s.inbox = .reset :: rest) ∨
      ∃ a rest, s.inbox = .bus a :: rest ∧
        ((s.busy = false ∧ t.busy = true ∧
            (decodeAccess s.plat.base a = .ok .encode ∨ decodeAccess s.plat.base a = .ok .decode)) ∨
          ∃ w, decodeAccess s.plat.base a = .ok (.wrStatus w) ∧
            (s.done = true ∧ t.done = false → w.getLsbD 1 = true) ∧
            (s.err = true ∧ t.err = false → w.getLsbD 2 = true)))

/-- Rules R25 and R26: CMD_REJ rises only by a write to CMD and falls only by writing 1 to bit 3 of STATUS or by reset;
OP changes only by acceptance or reset. -/
def Obligations.CmdRejAndOpChangeOnlyAsStated : Prop :=
  ∀ (s t : State), step s = .next t →
    (s.cmdRej = false → t.cmdRej = true →
      ∃ a rest i, s.inbox = .bus a :: rest ∧ decodeAccess s.plat.base a = .ok i ∧
        i.offset = 0x04 ∧ i.direction ≠ .read) ∧
    (s.cmdRej = true → t.cmdRej = false →
      (∃ rest, s.inbox = .reset :: rest) ∨
      ∃ a rest w, s.inbox = .bus a :: rest ∧ decodeAccess s.plat.base a = .ok (.wrStatus w) ∧
        w.getLsbD 3 = true) ∧
    (s.op ≠ t.op → (∃ rest, s.inbox = .reset :: rest) ∨ (s.busy = false ∧ t.busy = true))

/-- Rule R34: while BUSY = 1 no step but a reset changes a descriptor, so a running transaction sees fixed
descriptors. -/
def Obligations.DescriptorsFixedWhileBusy : Prop :=
  ∀ (s t : State), s.busy = true → (∀ rest, s.inbox ≠ .reset :: rest) → step s = .next t →
    t.srcAddr = s.srcAddr ∧ t.srcLen = s.srcLen ∧ t.dstAddr = s.dstAddr ∧ t.dstCap = s.dstCap

/-- Rules R118 and R119: ENCODE of N ≥ 1 elements, all in [1, 300], runs exactly 5 + 2N + ceil(9N/8) micro-steps and
leaves the PackedBuffer at DST_ADDR, the registers as stated, and every other byte as it was. -/
def Obligations.EncodeTransactionResult : Prop :=
  ∀ (s : State), EncodeUsable s →
    (∀ i, i < s.srcLen.toNat → 1 ≤ (sourceElement s i).toNat ∧ (sourceElement s i).toNat ≤ 300) →
    (∀ k, k < 5 + 2 * s.srcLen.toNat + (9 * s.srcLen.toNat + 7) / 8 →
      ∃ u, transaction .encode k s = .next u ∧ u.busy = true) ∧
    ∃ t, transaction .encode (5 + 2 * s.srcLen.toNat + (9 * s.srcLen.toNat + 7) / 8) s = .next t ∧
      t.busy = false ∧ t.done = true ∧ t.err = false ∧ t.errCode = none ∧ t.op = some .encode ∧
      t.count = s.srcLen ∧ t.inPos.toNat = 4 * s.srcLen.toNat ∧
      t.outLen.toNat = 4 + (9 * s.srcLen.toNat + 7) / 8 ∧ t.outPos = t.outLen ∧
      HoldsPacked t.mem s.dstAddr.toNat s.srcLen.toNat (fun i => groupOf (sourceElement s i)) ∧
      (∀ a, a < s.dstAddr.toNat ∨ s.dstAddr.toNat + (4 + (9 * s.srcLen.toNat + 7) / 8) ≤ a →
        memByte t.mem a = memByte s.mem a)

/-- Rules R130 and R131: DECODE of a buffer whose header is n ≥ 1 and whose groups are g runs exactly
6 + n + ceil(9n/8) micro-steps and leaves the words g_k + 1 at DST_ADDR, the registers as stated, and every other
byte as it was; pad bits and trailing bytes play no part (rule R129). -/
def Obligations.DecodeTransactionResult : Prop :=
  ∀ (s : State) (n : Nat) (g : Nat → Group), DecodeUsable s n → HoldsGroups s.mem s.srcAddr.toNat n g →
    (∀ k, k < 6 + n + (9 * n + 7) / 8 → ∃ u, transaction .decode k s = .next u ∧ u.busy = true) ∧
    ∃ t, transaction .decode (6 + n + (9 * n + 7) / 8) s = .next t ∧
      t.busy = false ∧ t.done = true ∧ t.err = false ∧ t.errCode = none ∧ t.op = some .decode ∧
      t.count.toNat = n ∧ t.inPos.toNat = 4 + (9 * n + 7) / 8 ∧ t.outLen.toNat = 4 * n ∧ t.outPos = t.outLen ∧
      (∀ k, k < n → (memWord t.mem (s.dstAddr.toNat + 4 * k)).toNat = (g k).toNat + 1) ∧
      (∀ a, a < s.dstAddr.toNat ∨ s.dstAddr.toNat + 4 * n ≤ a → memByte t.mem a = memByte s.mem a)

/-- Rule R130, the round trip: a DECODE of ENCODE's output, to any usable destination, gives back the elements. -/
def Obligations.RoundTripIdentity : Prop :=
  ∀ (s : State) d c, EncodeUsable s →
    (∀ i, i < s.srcLen.toNat → 1 ≤ (sourceElement s i).toNat ∧ (sourceElement s i).toNat ≤ 300) →
    4 * s.srcLen.toNat ≤ c.toNat → d.toNat + 4 * s.srcLen.toNat ≤ 4294967296 →
    (d.toNat + 4 * s.srcLen.toNat ≤ s.dstAddr.toNat ∨ s.dstAddr.toNat + (4 + payload s.srcLen.toNat) ≤ d.toNat) →
    Reaches s d.toNat (4 * s.srcLen.toNat) →
    ∃ t u, transaction .encode (encodeSteps s.srcLen.toNat) s = .next t ∧
      transaction .decode (decodeSteps s.srcLen.toNat)
        { t with srcAddr := t.dstAddr, srcLen := t.outLen, dstAddr := d, dstCap := c } = .next u ∧
      u.busy = false ∧ u.done = true ∧ u.outLen.toNat = 4 * s.srcLen.toNat ∧
      ∀ i, i < s.srcLen.toNat → memWord u.mem (d.toNat + 4 * i) = sourceElement s i

/-- Rules R112 and R119: an ENCODE whose first element outside [1, 300] has index i ends with OUT_OF_RANGE after 2 + i
micro-steps, with the index and the raw word recorded and no byte written. -/
def Obligations.EncodeReportsFirstBadElement : Prop :=
  ∀ (s : State) i, i < s.srcLen.toNat → RangesUsable s (4 * s.srcLen.toNat) (4 + payload s.srcLen.toNat) →
    4 + payload s.srcLen.toNat ≤ s.dstCap.toNat → Reaches s s.srcAddr.toNat (4 * (i + 1)) →
    (∀ j, j < i → 1 ≤ (sourceElement s j).toNat ∧ (sourceElement s j).toNat ≤ 300) →
    ((sourceElement s i).toNat < 1 ∨ 300 < (sourceElement s i).toNat) →
    ∃ t, transaction .encode (2 + i) s = .next t ∧
      t.busy = false ∧ t.err = true ∧ t.done = false ∧ t.errCode = some .outOfRange ∧
      t.errIndex.toNat = i ∧ t.errValue = sourceElement s i ∧ t.outLen = 0#32 ∧
      t.count = s.srcLen ∧ t.inPos.toNat = 4 * i ∧ t.mem = s.mem

/-- Rules R124 and R131: a DECODE of L ≥ 4 reachable bytes whose header asks for more than L ends with
TRUNCATED_BUFFER after 6 micro-steps, with COUNT the header and no byte written. -/
def Obligations.DecodeDetectsTruncation : Prop :=
  ∀ (s : State), s.busy = false → s.inbox = [] → 4 ≤ s.srcLen.toNat →
    s.srcAddr.toNat + s.srcLen.toNat ≤ 4294967296 → Reaches s s.srcAddr.toNat 4 →
    s.srcLen.toNat < 4 + (9 * (memWord s.mem s.srcAddr.toNat).toNat + 7) / 8 →
    ∃ t, transaction .decode 6 s = .next t ∧
      t.busy = false ∧ t.err = true ∧ t.done = false ∧ t.errCode = some .truncatedBuffer ∧
      t.errIndex = 0#32 ∧ t.errValue = 0#32 ∧ t.outLen = 0#32 ∧
      t.count = memWord s.mem s.srcAddr.toNat ∧ t.inPos = 4#32 ∧ t.mem = s.mem

/-- Rules R111, R122, R164: the empty transactions succeed in one micro-step, with no memory access and nothing
written. -/
def Obligations.EmptyTransactions : Prop :=
  ∀ (s : State), s.busy = false → s.inbox = [] → s.srcLen = 0#32 →
    ∀ i, i = .encode ∨ i = .decode →
      ∃ t, transaction i 1 s = .next t ∧
        t.busy = false ∧ t.done = true ∧ t.err = false ∧ t.outLen = 0#32 ∧ t.count = 0#32 ∧ t.mem = s.mem

/-- Rules R49 and R166: every transaction, whatever memory holds, ends within a bound linear in SRC_LEN (rule R119's
count for ENCODE, a bound of this statement's own for DECODE) or is stuck at an address the block cannot reach. -/
def Obligations.EveryTransactionEnds : Prop :=
  ∀ (s : State), s.busy = false → s.inbox = [] →
    ((∃ t, transaction .encode (5 + 2 * s.srcLen.toNat + (9 * s.srcLen.toNat + 7) / 8) s = .next t ∧
        t.busy = false) ∨
      transaction .encode (5 + 2 * s.srcLen.toNat + (9 * s.srcLen.toNat + 7) / 8) s = .fault .stuckAccess) ∧
    ((∃ t, transaction .decode (6 + 2 * s.srcLen.toNat) s = .next t ∧ t.busy = false) ∨
      transaction .decode (6 + 2 * s.srcLen.toNat) s = .fault .stuckAccess)

/-- Rule R67: a byte another agent writes during a transaction keeps its former value among those a later block read
may return; the bytes of other addresses are as they were, and no register of the block changes. The list of values is the model's (log entries 11, 12). -/
def Obligations.HostWriteDuringTransactionRaces : Prop :=
  ∀ (s : State) a v rest, s.busy = true → s.inbox = .hostWrite a v :: rest → a < 4294967296 →
    ∃ t, step s = .next t ∧
      t = { s with inbox := rest, mem := t.mem, stale := t.stale, dstSeen := t.dstSeen, draws := t.draws } ∧
      memByte s.mem a ∈ staleAt t a ∧ (∀ b x, x ∈ staleAt s b → x ∈ staleAt t b) ∧
      (memByte t.mem a = v ∨ (blockHasWritten a s = true ∧ memByte t.mem a = memByte s.mem a)) ∧
      (∀ b, b ≠ a → memByte t.mem b = memByte s.mem b ∧ staleAt t b = staleAt s b)

/-- Rule R67: in a race each byte the block reads is one of the values that byte had since the command, drawn afresh for
each read; the step is otherwise the one of rules R112, R114, R123 and R126. The choice is free (log entry 11). -/
def Obligations.RacedReadIsSomeValue : Prop :=
  (∀ (s₀ s : State), BlockTurnAt s₀ s → s.busy = true → s.phase = .eValidate →
    Reaches s (s.srcAddr.toNat + s.inPos.toNat) 4 →
    ∃ (w : Word) (n : Nat),
      (∀ j, j < 4 → wordByte w j ∈ memByte s.mem (s.srcAddr.toNat + s.inPos.toNat + j) ::
        staleAt s (s.srcAddr.toNat + s.inPos.toNat + j)) ∧
      step s₀ = .next (
        if w.toNat < 1 ∨ 300 < w.toNat then
          raise .outOfRange (BitVec.ofNat 32 (s.inPos.toNat / 4)) w { s with draws := n }
        else if (s.inPos + 4#32).toNat = 4 * s.count.toNat then
          { s with inPos := 0#32, phase := .eHeader, draws := n }
        else { s with inPos := s.inPos + 4#32, draws := n })) ∧
  (∀ (s₀ s : State), BlockTurnAt s₀ s → s.busy = true → s.phase = .eLoad → s.held.toNat ≤ 7 →
    s.acc.toNat < 2 ^ s.held.toNat → Reaches s (s.srcAddr.toNat + s.inPos.toNat) 4 →
    ∃ (w : Word) (n : Nat),
      (∀ j, j < 4 → wordByte w j ∈ memByte s.mem (s.srcAddr.toNat + s.inPos.toNat + j) ::
        staleAt s (s.srcAddr.toNat + s.inPos.toNat + j)) ∧
      step s₀ = .next { s with
        acc := BitVec.ofNat 16 (s.acc.toNat * 512 + (w.toNat + 511) % 512)
        held := BitVec.ofNat 5 (s.held.toNat + 9)
        inPos := s.inPos + 4#32
        phase := .eEmit
        draws := n }) ∧
  (∀ (s₀ s : State), BlockTurnAt s₀ s → s.busy = true → s.phase = .dHeader →
    ramAt s (s.srcAddr.toNat + s.inPos.toNat) = true →
    ∃ (b : Byte) (n : Nat),
      b ∈ memByte s.mem (s.srcAddr.toNat + s.inPos.toNat) :: staleAt s (s.srcAddr.toNat + s.inPos.toNat) ∧
      step s₀ = .next { s with
        count := BitVec.ofNat 32 (s.count.toNat * 256 + b.toNat)
        inPos := s.inPos + 1#32
        phase := if s.inPos = 3#32 then .dCheck else .dHeader
        draws := n }) ∧
  (∀ (s₀ s : State), BlockTurnAt s₀ s → s.busy = true → s.phase = .dFill → s.inPos ≠ s.srcLen → s.held.toNat ≤ 8 →
    s.acc.toNat < 2 ^ s.held.toNat → ramAt s (s.srcAddr.toNat + s.inPos.toNat) = true →
    ∃ (b : Byte) (n : Nat),
      b ∈ memByte s.mem (s.srcAddr.toNat + s.inPos.toNat) :: staleAt s (s.srcAddr.toNat + s.inPos.toNat) ∧
      step s₀ = .next { s with
        acc := BitVec.ofNat 16 (s.acc.toNat * 256 + b.toNat)
        held := BitVec.ofNat 5 (s.held.toNat + 8)
        inPos := s.inPos + 1#32
        phase := if 1 ≤ s.held.toNat then .dExtract else .dFill
        draws := n })

/-- Rule R67: a destination byte that another agent wrote during the transaction ends with its value or the block's;
without such a write it is the block's, and nothing else changes. The choice is free (log entry 12). -/
def Obligations.RacedDestinationByteIsEither : Prop :=
  ∀ (s : State) a b,
    (memByte (writeByte a b s).mem a = b ∨
      (staleAt s a ≠ [] ∧ memByte (writeByte a b s).mem a = memByte s.mem a)) ∧
    writeByte a b s = { s with
      mem := (writeByte a b s).mem
      dstSeen := (a, b) :: (a, memByte s.mem a) :: s.dstSeen
      draws := (writeByte a b s).draws } ∧
    ∀ x, x ≠ a → memByte (writeByte a b s).mem x = memByte s.mem x

/-- Rules R58 and R64: outside a transaction another agent reads the byte of memory and changes nothing, and so it does
during one at an address outside [DST_ADDR, + DST_CAP) or in the source range; a write outside a transaction stores its
byte and changes no other. That accesses are events of one byte is the model's (log entries 1 and 24). -/
def Obligations.HostMemoryAccessOutsideRaces : Prop :=
  (∀ (s : State) a rest, s.inbox = .hostRead a :: rest → a < 4294967296 → s.busy = false →
    step s = .next { s with inbox := rest, busRdata := (memByte s.mem a).setWidth 32 }) ∧
  (∀ (s : State) a rest, s.inv = true → s.busy = true → s.inbox = .hostRead a :: rest → a < 4294967296 →
    (a < s.dstAddr.toNat ∨ s.dstAddr.toNat + s.dstCap.toNat ≤ a ∨
      (s.srcAddr.toNat ≤ a ∧
        a < s.srcAddr.toNat + (if s.op = some .encode then 4 * s.srcLen.toNat else s.srcLen.toNat))) →
    step s = .next { s with
      inbox := rest, busRdata := (memByte s.mem a).setWidth 32, draws := s.draws + 1 }) ∧
  (∀ (s : State) a v rest, s.inbox = .hostWrite a v :: rest → a < 4294967296 → s.busy = false →
    ∃ t, step s = .next t ∧ t = { s with inbox := rest, mem := t.mem } ∧ memByte t.mem a = v ∧
      ∀ b, b ≠ a → memByte t.mem b = memByte s.mem b)

/-- Rules R132 and R160: reading registers never changes the block: its steps do not depend on what the host has
read. -/
def Obligations.HostReadsDoNotDisturbBlock : Prop :=
  ∀ (s₀ s : State) v, BlockTurnAt s₀ s →
    (∀ (t : State), step s₀ = .next t → step { s₀ with busRdata := v } = .next { t with busRdata := v }) ∧
    (∀ f, step s₀ = .fault f → step { s₀ with busRdata := v } = .fault f)

/-- Rule R9: no step of any agent changes the platform's parameters, which the model keeps in State (log entry 8). -/
def Obligations.PlatformIsConstant : Prop :=
  ∀ (s t : State), step s = .next t → t.plat = s.plat

/-- Rule R67: in a race each storing micro-step leaves each of its destination bytes with the block's value, or, where
another agent has written that byte during the transaction, with the value it has; every other byte and every register
are as rules R113, R115, R116 and R127 say. The choice is free (log entry 12). -/
def Obligations.RacedStoreIsEither : Prop :=
  (∀ (s₀ s : State), BlockTurnAt s₀ s → s.busy = true → s.phase = .eHeader → s.outPos.toNat < 4 →
    ramAt s (s.dstAddr.toNat + s.outPos.toNat) = true →
    ∃ t, step s₀ = .next t ∧ StoredOrRaced s t.mem 1 (fun _ => s.count.toNat / 2 ^ (24 - 8 * s.outPos.toNat)) ∧
      t = { s with
        mem := t.mem, draws := t.draws, dstSeen := t.dstSeen
        outPos := s.outPos + 1#32
        phase := if s.outPos.toNat = 3 then .eLoad else .eHeader }) ∧
  (∀ (s₀ s : State), BlockTurnAt s₀ s → s.busy = true → s.phase = .eEmit → 8 ≤ s.held.toNat → s.held.toNat ≤ 16 →
    s.acc.toNat < 2 ^ s.held.toNat → ramAt s (s.dstAddr.toNat + s.outPos.toNat) = true →
    ∃ t u, step s₀ = .next t ∧ StoredOrRaced s u.mem 1 (fun _ => s.acc.toNat / 2 ^ (s.held.toNat - 8)) ∧
      u = { s with
        mem := u.mem, draws := u.draws, dstSeen := u.dstSeen
        acc := BitVec.ofNat 16 (s.acc.toNat % 2 ^ (s.held.toNat - 8))
        held := BitVec.ofNat 5 (s.held.toNat - 8)
        outPos := s.outPos + 1#32 } ∧
      t = (if s.held.toNat = 16 then u
        else if s.inPos.toNat < 4 * s.count.toNat then { u with phase := .eLoad }
        else if 8 < s.held.toNat then { u with phase := .eFlush }
        else finish u)) ∧
  (∀ (s₀ s : State), BlockTurnAt s₀ s → s.busy = true → s.phase = .eFlush → 1 ≤ s.held.toNat → s.held.toNat ≤ 7 →
    s.acc.toNat < 2 ^ s.held.toNat → ramAt s (s.dstAddr.toNat + s.outPos.toNat) = true →
    ∃ t, step s₀ = .next t ∧ StoredOrRaced s t.mem 1 (fun _ => s.acc.toNat * 2 ^ (8 - s.held.toNat)) ∧
      t = finish { s with mem := t.mem, draws := t.draws, outPos := s.outPos + 1#32 }) ∧
  (∀ (s₀ s : State), BlockTurnAt s₀ s → s.busy = true → s.phase = .dExtract → 9 ≤ s.held.toNat → s.held.toNat ≤ 16 →
    s.acc.toNat < 2 ^ s.held.toNat → Reaches s (s.dstAddr.toNat + s.outPos.toNat) 4 →
    ∃ t u, step s₀ = .next t ∧
      StoredOrRaced s u.mem 4 (fun j => (s.acc.toNat / 2 ^ (s.held.toNat - 9) + 1) / 2 ^ (24 - 8 * j)) ∧
      u = { s with
        mem := u.mem, draws := u.draws, dstSeen := u.dstSeen
        acc := BitVec.ofNat 16 (s.acc.toNat % 2 ^ (s.held.toNat - 9))
        held := BitVec.ofNat 5 (s.held.toNat - 9)
        outPos := s.outPos + 4#32 } ∧
      t = (if (s.outPos + 4#32).toNat = 4 * s.count.toNat then finish u else { u with phase := .dFill }))

/-- Rule R67, first clause: while BUSY = 1 another agent's read of any byte answers a next state that differs only in the
event taken, the data returned and the draw count, and the data is the byte memory holds, a value the byte has had since
the command, a value stored there, or a value this same transaction stores there later in the run of the machine.
Admitting a value stored later is the rule's letter, read by the model over the events of the inbox (log entry 13). -/
def Obligations.HostReadDuringTransaction : Prop :=
  ∀ (s : State) a rest, s.busy = true → s.inbox = .hostRead a :: rest → a < 4294967296 →
    ∃ t b, step s = .next t ∧
      t = { s with inbox := rest, busRdata := b.setWidth 32, draws := s.draws + 1 } ∧
      (b = memByte s.mem a ∨
        ((seenAt s a ≠ [] ∨ ∃ c, StoresLater t a c) ∧ (b ∈ seenAt s a ∨ b ∈ staleAt s a)) ∨
        StoresLater t a b)

/-- Rules R124 and R131: a DECODE of L ≥ 4 reachable bytes whose header is 0 succeeds after 6 micro-steps with no element and no
byte written. -/
def Obligations.DecodeOfZeroCount : Prop :=
  ∀ (s : State), s.busy = false → s.inbox = [] → 4 ≤ s.srcLen.toNat →
    s.srcAddr.toNat + s.srcLen.toNat ≤ 4294967296 → Reaches s s.srcAddr.toNat 4 →
    memWord s.mem s.srcAddr.toNat = 0#32 →
    ∃ t, transaction .decode 6 s = .next t ∧
      t.busy = false ∧ t.done = true ∧ t.err = false ∧ t.errCode = none ∧ t.outLen = 0#32 ∧
      t.count = 0#32 ∧ t.inPos = 4#32 ∧ t.outPos = 0#32 ∧ t.mem = s.mem
end

