-- ==== Sys2Proof/Laws/BitBuffer.lean ====
section
/-! SUPPORT. The bit-buffer operations as arithmetic on ACC and HELD (rules R99 to R105). -/

namespace Sys2Proof.Machine

theorem maskLow_eq_mod (x h : Nat) : maskLow x h = x % 2 ^ h := by
  rw [maskLow, Nat.one_shiftLeft, Nat.and_two_pow_sub_one_eq_mod]

theorem shift_or_eq_add (a v k : Nat) (hv : v < 2 ^ k) : (a <<< k) ||| v = a * 2 ^ k + v := by
  rw [Nat.shiftLeft_eq, Nat.mul_comm, Nat.two_pow_add_eq_or_of_lt hv]

theorem acc_bound_pow {a h k : Nat} (ha : a < 2 ^ h) (hk : h ≤ k) : a < 2 ^ k :=
  lt_of_lt_of_le ha (Nat.pow_le_pow_right (by norm_num) hk)

theorem push9_held (v : Group) (s : State) (h : s.held.toNat ≤ 7) :
    (push9 v s).held.toNat = s.held.toNat + 9 := by
  simp only [push9, BitVec.toNat_ofNat]; omega

theorem push9_acc (v : Group) (s : State) (h : s.held.toNat ≤ 7) (ha : s.acc.toNat < 2 ^ s.held.toNat) :
    (push9 v s).acc.toNat = s.acc.toNat * 512 + v.toNat := by
  have hv : v.toNat < 2 ^ 9 := v.isLt
  have hb := acc_bound_pow ha h
  simp only [push9, BitVec.toNat_ofNat, shift_or_eq_add _ _ 9 hv]
  omega

theorem push9_keeps_bound (v : Group) (s : State) (h : s.held.toNat ≤ 7) (ha : s.acc.toNat < 2 ^ s.held.toNat) :
    (push9 v s).acc.toNat < 2 ^ (push9 v s).held.toNat := by
  have hv : v.toNat < 512 := v.isLt
  rw [push9_acc v s h ha, push9_held v s h, pow_add]
  omega

theorem fill8_held (b : Byte) (s : State) (h : s.held.toNat ≤ 8) :
    (fill8 b s).held.toNat = s.held.toNat + 8 := by
  simp only [fill8, BitVec.toNat_ofNat]; omega

theorem fill8_acc (b : Byte) (s : State) (h : s.held.toNat ≤ 8) (ha : s.acc.toNat < 2 ^ s.held.toNat) :
    (fill8 b s).acc.toNat = s.acc.toNat * 256 + b.toNat := by
  have hv : b.toNat < 2 ^ 8 := b.isLt
  have hb := acc_bound_pow ha h
  simp only [fill8, BitVec.toNat_ofNat, shift_or_eq_add _ _ 8 hv]
  omega

theorem fill8_keeps_bound (b : Byte) (s : State) (h : s.held.toNat ≤ 8) (ha : s.acc.toNat < 2 ^ s.held.toNat) :
    (fill8 b s).acc.toNat < 2 ^ (fill8 b s).held.toNat := by
  have hv : b.toNat < 256 := b.isLt
  rw [fill8_acc b s h ha, fill8_held b s h, pow_add]
  omega

theorem emit8_held (s : State) (h : 8 ≤ s.held.toNat) : (emit8 s).2.held.toNat = s.held.toNat - 8 := by
  simp only [emit8, BitVec.toNat_ofNat]; omega

theorem emit8_acc (s : State) (h : s.held.toNat ≤ 16) :
    (emit8 s).2.acc.toNat = s.acc.toNat % 2 ^ (s.held.toNat - 8) := by
  simp only [emit8, BitVec.toNat_ofNat, maskLow_eq_mod]
  exact Nat.mod_eq_of_lt (acc_bound_pow (Nat.mod_lt _ (by positivity)) (by omega))

theorem emit8_byte (s : State) :
    (emit8 s).1.toNat = s.acc.toNat / 2 ^ (s.held.toNat - 8) % 256 := by
  have h : (0xFF : Nat) = 2 ^ 8 - 1 := by norm_num
  simp only [emit8, BitVec.toNat_ofNat, h, Nat.and_two_pow_sub_one_eq_mod, Nat.shiftRight_eq_div_pow]
  omega

theorem emit8_keeps_bound (s : State) (h8 : 8 ≤ s.held.toNat) (h : s.held.toNat ≤ 16) :
    (emit8 s).2.acc.toNat < 2 ^ (emit8 s).2.held.toNat := by
  rw [emit8_acc s h, emit8_held s h8]
  exact Nat.mod_lt _ (by positivity)

theorem pull9_held (s : State) (h : 9 ≤ s.held.toNat) : (pull9 s).2.held.toNat = s.held.toNat - 9 := by
  simp only [pull9, BitVec.toNat_ofNat]; omega

theorem pull9_acc (s : State) (h : s.held.toNat ≤ 16) :
    (pull9 s).2.acc.toNat = s.acc.toNat % 2 ^ (s.held.toNat - 9) := by
  simp only [pull9, BitVec.toNat_ofNat, maskLow_eq_mod]
  exact Nat.mod_eq_of_lt (acc_bound_pow (Nat.mod_lt _ (by positivity)) (by omega))

theorem pull9_group (s : State) :
    (pull9 s).1.toNat = s.acc.toNat / 2 ^ (s.held.toNat - 9) % 512 := by
  have h : (0x1FF : Nat) = 2 ^ 9 - 1 := by norm_num
  simp only [pull9, BitVec.toNat_ofNat, h, Nat.and_two_pow_sub_one_eq_mod, Nat.shiftRight_eq_div_pow]
  omega

theorem pull9_keeps_bound (s : State) (h9 : 9 ≤ s.held.toNat) (h : s.held.toNat ≤ 16) :
    (pull9 s).2.acc.toNat < 2 ^ (pull9 s).2.held.toNat := by
  rw [pull9_acc s h, pull9_held s h9]
  exact Nat.mod_lt _ (by positivity)

theorem padFlush_byte (s : State) (h : s.held.toNat ≤ 7) (ha : s.acc.toNat < 2 ^ s.held.toNat) :
    (padFlush s).1.toNat = s.acc.toNat * 2 ^ (8 - s.held.toNat) := by
  have hF : (0xFF : Nat) = 2 ^ 8 - 1 := by norm_num
  have hlt : s.acc.toNat * 2 ^ (8 - s.held.toNat) < 2 ^ 8 := by
    have h8 : (2 : Nat) ^ 8 = 2 ^ s.held.toNat * 2 ^ (8 - s.held.toNat) := by rw [← pow_add]; congr 1; omega
    rw [h8]
    exact Nat.mul_lt_mul_of_pos_right ha (by positivity)
  simp only [padFlush, BitVec.toNat_ofNat, hF, Nat.and_two_pow_sub_one_eq_mod, Nat.shiftLeft_eq]
  omega

theorem push9_eq (v : Group) (s : State) :
    push9 v s = { s with
      acc := BitVec.ofNat 16 (s.acc.toNat * 512 + v.toNat), held := BitVec.ofNat 5 (s.held.toNat + 9) } := by
  have hv : v.toNat < 2 ^ 9 := v.isLt
  simp [push9, shift_or_eq_add _ _ 9 hv]

theorem fill8_eq (b : Byte) (s : State) :
    fill8 b s = { s with
      acc := BitVec.ofNat 16 (s.acc.toNat * 256 + b.toNat), held := BitVec.ofNat 5 (s.held.toNat + 8) } := by
  have hv : b.toNat < 2 ^ 8 := b.isLt
  simp [fill8, shift_or_eq_add _ _ 8 hv]

theorem emit8_eq (s : State) :
    emit8 s = (BitVec.ofNat 8 (s.acc.toNat / 2 ^ (s.held.toNat - 8)),
      { s with
        held := BitVec.ofNat 5 (s.held.toNat - 8)
        acc := BitVec.ofNat 16 (s.acc.toNat % 2 ^ (s.held.toNat - 8)) }) := by
  have h : (emit8 s).1 = BitVec.ofNat 8 (s.acc.toNat / 2 ^ (s.held.toNat - 8)) :=
    BitVec.eq_of_toNat_eq (by rw [emit8_byte, BitVec.toNat_ofNat])
  rw [← h, ← maskLow_eq_mod]
  rfl

theorem pull9_eq (s : State) :
    pull9 s = (BitVec.ofNat 9 (s.acc.toNat / 2 ^ (s.held.toNat - 9)),
      { s with
        held := BitVec.ofNat 5 (s.held.toNat - 9)
        acc := BitVec.ofNat 16 (s.acc.toNat % 2 ^ (s.held.toNat - 9)) }) := by
  have h : (pull9 s).1 = BitVec.ofNat 9 (s.acc.toNat / 2 ^ (s.held.toNat - 9)) :=
    BitVec.eq_of_toNat_eq (by rw [pull9_group, BitVec.toNat_ofNat])
  rw [← h, ← maskLow_eq_mod]
  rfl

theorem padFlush_eq (s : State) (h : s.held.toNat ≤ 7) (ha : s.acc.toNat < 2 ^ s.held.toNat) :
    padFlush s = (BitVec.ofNat 8 (s.acc.toNat * 2 ^ (8 - s.held.toNat)), { s with acc := 0#16, held := 0#5 }) := by
  have hb : (padFlush s).1 = BitVec.ofNat 8 (s.acc.toNat * 2 ^ (8 - s.held.toNat)) := by
    apply BitVec.eq_of_toNat_eq
    rw [padFlush_byte s h ha, BitVec.toNat_ofNat, Nat.mod_eq_of_lt]
    rw [← padFlush_byte s h ha]
    exact (padFlush s).1.isLt
  rw [← hb]
  rfl

/-- A group pulled within the bound is the number above the bits left (rule R103). -/
theorem pulled_lt (s : State) (h9 : 9 ≤ s.held.toNat) (ha : s.acc.toNat < 2 ^ s.held.toNat) :
    s.acc.toNat / 2 ^ (s.held.toNat - 9) < 512 := by
  rw [Nat.div_lt_iff_lt_mul (by positivity), show (512 : Nat) = 2 ^ 9 by norm_num, ← pow_add]
  rwa [show 9 + (s.held.toNat - 9) = s.held.toNat by omega]

end Sys2Proof.Machine
end

