-- ==== Sys2Proof/Laws/Checks.lean ====
section
/-! SUPPORT. The descriptor checks as arithmetic on the registers' numbers (rules R92 to R97). -/

namespace Sys2Proof.Machine

theorem elementInRange_iff (w : Word) : elementInRange w = true ↔ 1 ≤ w.toNat ∧ w.toNat ≤ 300 := by
  simp [elementInRange]

theorem wraps_iff (a len : Nat) : wraps a len = true ↔ 0 < len ∧ 4294967296 < a + len := by
  simp [wraps]

theorem overlaps_iff (a la d ld : Nat) :
    overlaps a la d ld = true ↔ 0 < la ∧ 0 < ld ∧ a < d + ld ∧ d < a + la := by
  simp [overlaps, and_assoc]

theorem toNat_ne_zero {w : Word} (h : w ≠ 0#32) : w.toNat ≠ 0 :=
  fun e => h (BitVec.eq_of_toNat_eq (by simpa using e))

/-- What ENCODE's checks have established once they pass (rule R96). -/
theorem encodeCheck_none {s : State} (h : encodeCheck s = none) (h0 : s.count.toNat ≠ 0) :
    s.srcAddr.toNat + 4 * s.count.toNat ≤ 4294967296 ∧
    4 + payload s.count.toNat ≤ s.dstCap.toNat ∧
    s.dstAddr.toNat + (4 + payload s.count.toNat) ≤ 4294967296 ∧
    (s.srcAddr.toNat + 4 * s.count.toNat ≤ s.dstAddr.toNat ∨
      s.dstAddr.toNat + (4 + payload s.count.toNat) ≤ s.srcAddr.toNat) := by
  simp only [encodeCheck, wraps_iff, overlaps_iff, capacityFits, decide_eq_true_eq, encOut, encIn, h0, if_false] at h
  split at h
  · cases h
  split at h
  · cases h
  split at h
  · cases h
  split at h
  · cases h
  omega

/-- What DECODE's first checks have established once they pass (rule R97, steps 2 and 3). -/
theorem decodeCheck0_none {s : State} (h : decodeCheck0 s = none) :
    s.srcAddr.toNat + s.srcLen.toNat ≤ 4294967296 ∧ 4 ≤ s.srcLen.toNat := by
  simp only [decodeCheck0, wraps_iff] at h
  split at h
  · cases h
  split at h
  · cases h
  omega

/-- What DECODE's later checks have established once they pass with n ≠ 0 (rule R97, steps 4 to 7). -/
theorem decodeCheck_none {s : State} (h : decodeCheck s = none) (h0 : s.count.toNat ≠ 0) :
    4 + payload s.count.toNat ≤ s.srcLen.toNat ∧ 4 * s.count.toNat ≤ s.dstCap.toNat ∧
    s.dstAddr.toNat + 4 * s.count.toNat ≤ 4294967296 ∧
    (s.srcAddr.toNat + s.srcLen.toNat ≤ s.dstAddr.toNat ∨
      s.dstAddr.toNat + 4 * s.count.toNat ≤ s.srcAddr.toNat) := by
  simp only [decodeCheck, wraps_iff, overlaps_iff, capacityFits, decide_eq_true_eq, decNeed, decOut] at h
  split at h
  · cases h
  split at h
  · cases h
  split at h
  · cases h
  split at h
  · cases h
  omega

/-- Descriptors whose ranges fit and are disjoint pass ENCODE's checks. -/
theorem encodeCheck_pass {s : State} (h0 : s.count.toNat ≠ 0)
    (h1 : s.srcAddr.toNat + 4 * s.count.toNat ≤ 4294967296) (h2 : 4 + payload s.count.toNat ≤ s.dstCap.toNat)
    (h3 : s.dstAddr.toNat + (4 + payload s.count.toNat) ≤ 4294967296)
    (h4 : s.srcAddr.toNat + 4 * s.count.toNat ≤ s.dstAddr.toNat ∨
      s.dstAddr.toNat + (4 + payload s.count.toNat) ≤ s.srcAddr.toNat) : encodeCheck s = none := by
  simp only [encodeCheck, wraps_iff, overlaps_iff, capacityFits, decide_eq_true_eq, encOut, encIn, h0, if_false]
  rw [if_neg (by omega), if_neg (by omega), if_neg (by omega), if_neg (by omega)]

/-- Descriptors whose ranges fit and are disjoint pass DECODE's later checks. -/
theorem decodeCheck_pass {s : State} (h1 : 4 + payload s.count.toNat ≤ s.srcLen.toNat)
    (h2 : 4 * s.count.toNat ≤ s.dstCap.toNat) (h3 : s.dstAddr.toNat + 4 * s.count.toNat ≤ 4294967296)
    (h4 : s.srcAddr.toNat + s.srcLen.toNat ≤ s.dstAddr.toNat ∨
      s.dstAddr.toNat + 4 * s.count.toNat ≤ s.srcAddr.toNat) : decodeCheck s = none := by
  simp only [decodeCheck, wraps_iff, overlaps_iff, capacityFits, decide_eq_true_eq, decNeed, decOut]
  rw [if_neg (by omega), if_neg (by omega), if_neg (by omega), if_neg (by omega)]

/-- A source range that neither wraps nor is shorter than a header passes DECODE's first checks. -/
theorem decodeCheck0_pass {s : State} (h1 : s.srcAddr.toNat + s.srcLen.toNat ≤ 4294967296)
    (h2 : 4 ≤ s.srcLen.toNat) : decodeCheck0 s = none := by
  simp only [decodeCheck0, wraps_iff]
  rw [if_neg (by omega), if_neg (by omega)]

end Sys2Proof.Machine
end

