-- ==== Sys2Proof/Laws/Decode.lean ====
section
/-! SUPPORT. The decoder's and the encoder's small laws. -/

namespace Sys2Proof

/-- Rule R73: exactly two words are valid commands. -/
theorem decodeCmd_eq (w : Word) :
    decodeCmd w = if w = 1#32 then some .encode else if w = 2#32 then some .decode else none := by
  have hw := w.isLt
  have e1 : w = 1#32 ↔ w.toNat = 1 := by rw [← BitVec.toNat_inj]; rfl
  have e2 : w = 2#32 ↔ w.toNat = 2 := by rw [← BitVec.toNat_inj]; rfl
  have f0 : w.extractLsb' 4 28 = 0#28 ↔ w.toNat < 16 := by
    rw [← BitVec.toNat_inj, BitVec.extractLsb'_toNat, BitVec.toNat_ofNat, Nat.shiftRight_eq_div_pow]; omega
  have f1 : w.extractLsb' 0 4 = 1#4 ↔ w.toNat % 16 = 1 := by
    rw [← BitVec.toNat_inj, BitVec.extractLsb'_toNat, BitVec.toNat_ofNat, Nat.shiftRight_zero]
  have f2 : w.extractLsb' 0 4 = 2#4 ↔ w.toNat % 16 = 2 := by
    rw [← BitVec.toNat_inj, BitVec.extractLsb'_toNat, BitVec.toNat_ofNat, Nat.shiftRight_zero]
  simp only [decodeCmd, ne_eq, e1, e2, f0, f1, f2]
  by_cases h0 : w.toNat < 16
  · simp only [h0, not_true_eq_false, if_false, Nat.mod_eq_of_lt h0]
  · rw [if_pos h0, if_neg (by omega), if_neg (by omega)]

theorem decodeCmdWrite_reserved {w : Word} (h : (Instr.wrCmd w).wellFormed = true) :
    decodeCmdWrite w = .wrCmd w := by
  simp only [Instr.wellFormed, Bool.and_eq_true, bne_iff_ne] at h
  simp [decodeCmdWrite, decodeCmd_eq, h.1, h.2]

/-- Every register lies in the window at a multiple of 4 (rule R18). -/
theorem offset_in_window (i : Instr) : i.offset < 64 ∧ i.offset % 4 = 0 := by
  cases i <;> simp [Instr.offset]

/-- Inside the window, an aligned 32-bit access decodes by its register number and direction. -/
theorem decodeAccess_admitted (base o : Nat) (d : Direction) (h : o < 64) (h4 : o % 4 = 0) :
    decodeAccess base { addr := base + o, bytes := 4, dir := d } =
      match d with
      | .read => decodeRead (o / 4)
      | .write w => decodeWrite (o / 4) w := by
  have h1 : ¬ (base + o < base ∨ base + Config.windowBytes ≤ base + o) := by
    simp only [Config.windowBytes]; omega
  cases d <;> simp only [decodeAccess, h1, if_false, ne_eq, not_true_eq_false, Nat.add_sub_cancel_left, h4]

/-- What is not an aligned 32-bit access to the window is rejected (rule R55). -/
theorem decodeAccess_ok {base : Nat} {a : BusAccess} {i : Instr} (h : decodeAccess base a = .ok i) :
    base ≤ a.addr ∧ a.addr < base + 64 ∧ a.bytes = 4 ∧ (a.addr - base) % 4 = 0 := by
  simp only [decodeAccess, Config.windowBytes] at h
  by_cases h1 : a.addr < base ∨ base + 64 ≤ a.addr
  · rw [if_pos h1] at h; cases h
  · by_cases h2 : a.bytes ≠ 4
    · rw [if_neg h1, if_pos h2] at h; cases h
    · by_cases h3 : (a.addr - base) % 4 ≠ 0
      · rw [if_neg h1, if_neg h2, if_pos h3] at h; cases h
      · omega

/-- An instruction's number stands for its access. -/
theorem accessOfTableWord_tableWord (base : Nat) (i : Instr) :
    accessOfTableWord base 40 i.tableWord = encodeAccess base i := by
  have ho := (offset_in_window i).1
  simp only [accessOfTableWord, encodeAccess, if_neg (by decide : ¬ (40 = 32))]
  rcases hd : i.direction with _ | w
  · have ht : i.tableWord = i.offset := by simp [Instr.tableWord, hd]
    have h2 : i.offset / 64 % 2 = 0 := by omega
    rw [ht, Nat.mod_eq_of_lt ho, if_pos h2]
  · have hw := w.isLt
    have ht : i.tableWord = i.offset + 64 + 256 * w.toNat := by simp [Instr.tableWord, hd]
    have h1 : (i.offset + 64 + 256 * w.toNat) % 64 = i.offset := by omega
    have h2 : ¬ ((i.offset + 64 + 256 * w.toNat) / 64 % 2 = 0) := by omega
    have h3 : (i.offset + 64 + 256 * w.toNat) / 256 = w.toNat := by omega
    rw [ht, h1, if_neg h2, h3, BitVec.ofNat_toNat, BitVec.setWidth_eq]

end Sys2Proof
end

