-- ==== Sys2Proof/Laws/Memory.lean ====
section
/-! SUPPORT. The laws of the data memory: read after write, and that every write keeps the canonical form. -/

namespace Sys2Proof.Machine

/-- The byte written is the byte read, whatever the list's form. -/
theorem memGet?_memSet_self (m : Memory) (a : Nat) (v : Byte) : memGet? (memSet m a v) a = some v := by
  induction m with
  | nil => simp [memSet, memGet?]
  | cons c rest ih =>
    obtain ⟨k, x⟩ := c
    by_cases h1 : a < k
    · simp [memSet, h1, memGet?]
    · by_cases h2 : a = k
      · subst h2; simp [memSet, memGet?]
      · simp only [memSet, h1, h2, if_false, memGet?, ih]
        exact if_neg (fun h => h2 h.symm)

@[simp] theorem memByte_memSet_self (m : Memory) (a : Nat) (v : Byte) : memByte (memSet m a v) a = v := by
  simp only [memByte, memGet?_memSet_self]

/-- A write leaves every other byte, whatever the list's form. -/
theorem memGet?_memSet_ne (m : Memory) (a b : Nat) (v : Byte) (h : a ≠ b) :
    memGet? (memSet m a v) b = memGet? m b := by
  induction m with
  | nil => simp [memSet, memGet?, h]
  | cons c rest ih =>
    obtain ⟨k, x⟩ := c
    by_cases h1 : a < k
    · simp [memSet, h1, memGet?, h]
    · by_cases h2 : a = k
      · subst h2; simp [memSet, memGet?, h]
      · simp [memSet, h1, h2, memGet?, ih]

theorem memByte_memSet_ne (m : Memory) (a b : Nat) (v : Byte) (h : a ≠ b) :
    memByte (memSet m a v) b = memByte m b := by
  simp only [memByte, memGet?_memSet_ne m a b v h]

theorem memByte_memSet (m : Memory) (a b : Nat) (v : Byte) :
    memByte (memSet m a v) b = if a = b then v else memByte m b := by
  by_cases h : a = b
  · subst h; simp
  · rw [if_neg h, memByte_memSet_ne m a b v h]

theorem memSet_head_lt (m : Memory) (a k : Nat) (v : Byte) (hk : k < a)
    (h : (match m with | [] => true | (j, _) :: _ => decide (k < j)) = true) :
    (match memSet m a v with | [] => true | (j, _) :: _ => decide (k < j)) = true := by
  cases m with
  | nil => simp [memSet, hk]
  | cons c rest =>
    obtain ⟨j, x⟩ := c
    by_cases h1 : a < j
    · simp [memSet, h1, hk]
    · by_cases h2 : a = j
      · subst h2; simp [memSet, hk]
      · simpa only [memSet, h1, h2, if_false] using h

/-- Every write inside the data memory keeps the canonical form. -/
theorem Memory.wf_memSet (m : Memory) (a : Nat) (v : Byte) (ha : a < addrSpace) (h : Memory.wf m = true) :
    Memory.wf (memSet m a v) = true := by
  induction m with
  | nil => simp [memSet, Memory.wf, ha]
  | cons c rest ih =>
    obtain ⟨k, x⟩ := c
    by_cases h1 : a < k
    · simp only [memSet, h1, if_true]
      simp only [Memory.wf, Bool.and_eq_true, decide_eq_true_eq] at h ⊢
      exact ⟨⟨ha, h1⟩, h⟩
    · by_cases h2 : a = k
      · subst h2
        simp only [memSet, lt_irrefl, if_false, if_true]
        exact h
      · simp only [memSet, h1, h2, if_false]
        simp only [Memory.wf, Bool.and_eq_true, decide_eq_true_eq] at h
        simp only [Memory.wf, Bool.and_eq_true, decide_eq_true_eq]
        exact ⟨⟨h.1.1, memSet_head_lt rest a k v (by omega) h.1.2⟩, ih h.2⟩

end Sys2Proof.Machine
end

