-- ==== Sys2Proof/Laws/State.lean ====
section
/-! SUPPORT. What each update of the state does to each field, so that no proof unfolds an update. -/

namespace Sys2Proof.Machine

@[simp] theorem finish_fields (s : State) :
    (finish s).busy = false ∧ (finish s).done = true ∧ (finish s).err = s.err ∧ (finish s).cmdRej = s.cmdRej ∧
    (finish s).op = s.op ∧ (finish s).errCode = s.errCode ∧ (finish s).phase = .idle ∧
    (finish s).doneIe = s.doneIe ∧ (finish s).errIe = s.errIe ∧ (finish s).srcAddr = s.srcAddr ∧
    (finish s).srcLen = s.srcLen ∧ (finish s).dstAddr = s.dstAddr ∧ (finish s).dstCap = s.dstCap ∧
    (finish s).count = s.count ∧ (finish s).outLen = s.outPos ∧ (finish s).errIndex = s.errIndex ∧
    (finish s).errValue = s.errValue ∧ (finish s).acc = 0#16 ∧ (finish s).held = 0#5 ∧
    (finish s).inPos = s.inPos ∧ (finish s).outPos = s.outPos ∧ (finish s).mem = s.mem ∧
    (finish s).busRdata = s.busRdata ∧ (finish s).inbox = s.inbox ∧ (finish s).stale = [] ∧
    (finish s).dstSeen = [] ∧ (finish s).draws = s.draws ∧ (finish s).plat = s.plat := by
  simp [finish]

@[simp] theorem raise_fields (e : ErrCode) (i v : Word) (s : State) :
    (raise e i v s).busy = false ∧ (raise e i v s).done = s.done ∧ (raise e i v s).err = true ∧
    (raise e i v s).cmdRej = s.cmdRej ∧ (raise e i v s).op = s.op ∧ (raise e i v s).errCode = some e ∧
    (raise e i v s).phase = .idle ∧ (raise e i v s).doneIe = s.doneIe ∧ (raise e i v s).errIe = s.errIe ∧
    (raise e i v s).srcAddr = s.srcAddr ∧ (raise e i v s).srcLen = s.srcLen ∧
    (raise e i v s).dstAddr = s.dstAddr ∧ (raise e i v s).dstCap = s.dstCap ∧
    (raise e i v s).count = s.count ∧ (raise e i v s).outLen = 0#32 ∧ (raise e i v s).errIndex = i ∧
    (raise e i v s).errValue = v ∧ (raise e i v s).acc = 0#16 ∧ (raise e i v s).held = 0#5 ∧
    (raise e i v s).inPos = s.inPos ∧ (raise e i v s).outPos = s.outPos ∧ (raise e i v s).mem = s.mem ∧
    (raise e i v s).busRdata = s.busRdata ∧ (raise e i v s).inbox = s.inbox ∧ (raise e i v s).stale = [] ∧
    (raise e i v s).dstSeen = [] ∧ (raise e i v s).draws = s.draws ∧ (raise e i v s).plat = s.plat := by
  simp [raise]

@[simp] theorem reject_fields (s : State) :
    (reject s).busy = s.busy ∧ (reject s).done = s.done ∧ (reject s).err = s.err ∧ (reject s).cmdRej = true ∧
    (reject s).op = s.op ∧ (reject s).errCode = s.errCode ∧ (reject s).phase = s.phase ∧
    (reject s).doneIe = s.doneIe ∧ (reject s).errIe = s.errIe ∧ (reject s).srcAddr = s.srcAddr ∧
    (reject s).srcLen = s.srcLen ∧ (reject s).dstAddr = s.dstAddr ∧ (reject s).dstCap = s.dstCap ∧
    (reject s).count = s.count ∧ (reject s).outLen = s.outLen ∧ (reject s).errIndex = s.errIndex ∧
    (reject s).errValue = s.errValue ∧ (reject s).acc = s.acc ∧ (reject s).held = s.held ∧
    (reject s).inPos = s.inPos ∧ (reject s).outPos = s.outPos ∧ (reject s).mem = s.mem ∧
    (reject s).busRdata = s.busRdata ∧ (reject s).inbox = s.inbox ∧ (reject s).stale = s.stale ∧
    (reject s).dstSeen = s.dstSeen ∧ (reject s).draws = s.draws ∧ (reject s).plat = s.plat := by
  simp [reject]

@[simp] theorem accept_fields (c : Cmd) (s : State) :
    (accept c s).busy = true ∧ (accept c s).done = false ∧ (accept c s).err = false ∧
    (accept c s).cmdRej = s.cmdRej ∧ (accept c s).op = some c ∧ (accept c s).errCode = none ∧
    (accept c s).doneIe = s.doneIe ∧ (accept c s).errIe = s.errIe ∧ (accept c s).srcAddr = s.srcAddr ∧
    (accept c s).srcLen = s.srcLen ∧ (accept c s).dstAddr = s.dstAddr ∧ (accept c s).dstCap = s.dstCap ∧
    (accept c s).outLen = 0#32 ∧ (accept c s).errIndex = 0#32 ∧ (accept c s).errValue = 0#32 ∧
    (accept c s).acc = 0#16 ∧ (accept c s).held = 0#5 ∧ (accept c s).inPos = 0#32 ∧
    (accept c s).outPos = 0#32 ∧ (accept c s).mem = s.mem ∧ (accept c s).busRdata = s.busRdata ∧
    (accept c s).inbox = s.inbox ∧ (accept c s).stale = [] ∧
    (accept c s).dstSeen = [] ∧ (accept c s).draws = s.draws ∧ (accept c s).plat = s.plat := by
  simp [accept]

@[simp] theorem accept_encode_fields (s : State) :
    (accept .encode s).count = s.srcLen ∧ (accept .encode s).phase = .eCheck := ⟨rfl, rfl⟩

@[simp] theorem accept_decode_fields (s : State) :
    (accept .decode s).count = 0#32 ∧ (accept .decode s).phase = .dCheck0 := ⟨rfl, rfl⟩

@[simp] theorem push9_fields (v : Group) (s : State) :
    (push9 v s).busy = s.busy ∧ (push9 v s).done = s.done ∧ (push9 v s).err = s.err ∧
    (push9 v s).cmdRej = s.cmdRej ∧ (push9 v s).op = s.op ∧ (push9 v s).errCode = s.errCode ∧
    (push9 v s).phase = s.phase ∧ (push9 v s).srcAddr = s.srcAddr ∧ (push9 v s).srcLen = s.srcLen ∧
    (push9 v s).dstAddr = s.dstAddr ∧ (push9 v s).dstCap = s.dstCap ∧ (push9 v s).count = s.count ∧
    (push9 v s).outLen = s.outLen ∧ (push9 v s).inPos = s.inPos ∧ (push9 v s).outPos = s.outPos ∧
    (push9 v s).mem = s.mem ∧ (push9 v s).inbox = s.inbox ∧ (push9 v s).stale = s.stale ∧
    (push9 v s).dstSeen = s.dstSeen ∧ (push9 v s).draws = s.draws ∧ (push9 v s).plat = s.plat := by
  simp [push9]

@[simp] theorem fill8_fields (b : Byte) (s : State) :
    (fill8 b s).busy = s.busy ∧ (fill8 b s).done = s.done ∧ (fill8 b s).err = s.err ∧
    (fill8 b s).cmdRej = s.cmdRej ∧ (fill8 b s).op = s.op ∧ (fill8 b s).errCode = s.errCode ∧
    (fill8 b s).phase = s.phase ∧ (fill8 b s).srcAddr = s.srcAddr ∧ (fill8 b s).srcLen = s.srcLen ∧
    (fill8 b s).dstAddr = s.dstAddr ∧ (fill8 b s).dstCap = s.dstCap ∧ (fill8 b s).count = s.count ∧
    (fill8 b s).outLen = s.outLen ∧ (fill8 b s).inPos = s.inPos ∧ (fill8 b s).outPos = s.outPos ∧
    (fill8 b s).mem = s.mem ∧ (fill8 b s).inbox = s.inbox ∧ (fill8 b s).stale = s.stale ∧
    (fill8 b s).dstSeen = s.dstSeen ∧ (fill8 b s).draws = s.draws ∧ (fill8 b s).plat = s.plat := by
  simp [fill8]

@[simp] theorem emit8_fields (s : State) :
    (emit8 s).2.busy = s.busy ∧ (emit8 s).2.done = s.done ∧ (emit8 s).2.err = s.err ∧
    (emit8 s).2.cmdRej = s.cmdRej ∧ (emit8 s).2.op = s.op ∧ (emit8 s).2.errCode = s.errCode ∧
    (emit8 s).2.phase = s.phase ∧ (emit8 s).2.srcAddr = s.srcAddr ∧ (emit8 s).2.srcLen = s.srcLen ∧
    (emit8 s).2.dstAddr = s.dstAddr ∧ (emit8 s).2.dstCap = s.dstCap ∧ (emit8 s).2.count = s.count ∧
    (emit8 s).2.outLen = s.outLen ∧ (emit8 s).2.inPos = s.inPos ∧ (emit8 s).2.outPos = s.outPos ∧
    (emit8 s).2.mem = s.mem ∧ (emit8 s).2.inbox = s.inbox ∧ (emit8 s).2.stale = s.stale ∧
    (emit8 s).2.dstSeen = s.dstSeen ∧ (emit8 s).2.draws = s.draws ∧ (emit8 s).2.plat = s.plat := by
  simp [emit8]

@[simp] theorem pull9_fields (s : State) :
    (pull9 s).2.busy = s.busy ∧ (pull9 s).2.done = s.done ∧ (pull9 s).2.err = s.err ∧
    (pull9 s).2.cmdRej = s.cmdRej ∧ (pull9 s).2.op = s.op ∧ (pull9 s).2.errCode = s.errCode ∧
    (pull9 s).2.phase = s.phase ∧ (pull9 s).2.srcAddr = s.srcAddr ∧ (pull9 s).2.srcLen = s.srcLen ∧
    (pull9 s).2.dstAddr = s.dstAddr ∧ (pull9 s).2.dstCap = s.dstCap ∧ (pull9 s).2.count = s.count ∧
    (pull9 s).2.outLen = s.outLen ∧ (pull9 s).2.inPos = s.inPos ∧ (pull9 s).2.outPos = s.outPos ∧
    (pull9 s).2.mem = s.mem ∧ (pull9 s).2.inbox = s.inbox ∧ (pull9 s).2.stale = s.stale ∧
    (pull9 s).2.dstSeen = s.dstSeen ∧ (pull9 s).2.draws = s.draws ∧ (pull9 s).2.plat = s.plat := by
  simp [pull9]

@[simp] theorem padFlush_fields (s : State) :
    (padFlush s).2.busy = s.busy ∧ (padFlush s).2.done = s.done ∧ (padFlush s).2.err = s.err ∧
    (padFlush s).2.cmdRej = s.cmdRej ∧ (padFlush s).2.op = s.op ∧ (padFlush s).2.errCode = s.errCode ∧
    (padFlush s).2.phase = s.phase ∧ (padFlush s).2.srcAddr = s.srcAddr ∧ (padFlush s).2.srcLen = s.srcLen ∧
    (padFlush s).2.dstAddr = s.dstAddr ∧ (padFlush s).2.dstCap = s.dstCap ∧ (padFlush s).2.count = s.count ∧
    (padFlush s).2.outLen = s.outLen ∧ (padFlush s).2.acc = 0#16 ∧ (padFlush s).2.held = 0#5 ∧
    (padFlush s).2.inPos = s.inPos ∧ (padFlush s).2.outPos = s.outPos ∧ (padFlush s).2.mem = s.mem ∧
    (padFlush s).2.inbox = s.inbox ∧ (padFlush s).2.stale = s.stale ∧
    (padFlush s).2.dstSeen = s.dstSeen ∧ (padFlush s).2.draws = s.draws ∧ (padFlush s).2.plat = s.plat := by
  simp [padFlush]

end Sys2Proof.Machine
end

