-- ==== Sys2Proof/Laws/Ops.lean ====
section
/-! SUPPORT. Everything each shared operation can do, said once: the block's reads and writes with and without a
race, and a presented command. -/

namespace Sys2Proof.Machine

/-- A free choice is one of the values offered. -/
theorem pickByte_mem (b : Byte) (o : List Byte) (n : Nat) : pickByte b o n ∈ b :: o := by
  cases o with
  | nil => exact List.mem_cons_self
  | cons c rest =>
    have hlt : Config.freeChoice n % ((c :: rest).length + 1) < (b :: c :: rest).length := Nat.mod_lt _ (by simp)
    simp only [pickByte, List.getD_eq_getElem?_getD, List.getElem?_eq_getElem hlt, Option.getD_some]
    exact List.getElem_mem hlt

theorem pickByte_nil (b : Byte) (n : Nat) : pickByte b [] n = b := rfl

/-- A draw answers one of its values and at most counts itself. -/
theorem drawByte_spec (b : Byte) (o : List Byte) (s : State) :
    (drawByte b o s).1 ∈ b :: o ∧ ∃ n, (drawByte b o s).2 = { s with draws := n } := by
  cases o with
  | nil => exact ⟨by simp [drawByte], s.draws, rfl⟩
  | cons c rest => exact ⟨pickByte_mem _ _ _, s.draws + 1, rfl⟩

theorem drawByte_eq (b : Byte) (o : List Byte) (s : State) :
    ∃ v n, v ∈ b :: o ∧ drawByte b o s = (v, { s with draws := n }) := by
  obtain ⟨hv, n, h⟩ := drawByte_spec b o s
  exact ⟨_, n, hv, by rw [← h]⟩

theorem drawByte_nil (b : Byte) (s : State) : drawByte b [] s = (b, s) := rfl

theorem readByte_spec (a : Nat) (s : State) :
    (readByte a s).1 ∈ memByte s.mem a :: staleAt s a ∧ ∃ n, (readByte a s).2 = { s with draws := n } :=
  drawByte_spec _ _ _

theorem staleAt_nil {s : State} (h : s.stale = []) (a : Nat) : staleAt s a = [] := by
  simp [staleAt, bytesAt, h]

/-- Without a race at that byte the block reads Mem[a]. -/
theorem readByte_no_race {s : State} {a : Nat} (h : staleAt s a = []) : readByte a s = (memByte s.mem a, s) := by
  simp [readByte, h, drawByte_nil]

theorem readWord_no_race {s : State} {a : Nat} (h : ∀ j, j < 4 → staleAt s (a + j) = []) :
    readWord a s = (memWord s.mem a, s) := by
  have h0 : readByte a s = (memByte s.mem a, s) := readByte_no_race (h 0 (by omega))
  simp [readWord, h0, readByte_no_race (h 1 (by omega)), readByte_no_race (h 2 (by omega)),
    readByte_no_race (h 3 (by omega)), memWord]

theorem readWord_state (a : Nat) (s : State) : ∃ n, (readWord a s).2 = { s with draws := n } := by
  simp only [readWord]
  obtain ⟨-, n0, h0⟩ := readByte_spec a s
  obtain ⟨-, n1, h1⟩ := readByte_spec (a + 1) (readByte a s).2
  obtain ⟨-, n2, h2⟩ := readByte_spec (a + 2) (readByte (a + 1) (readByte a s).2).2
  obtain ⟨-, n3, h3⟩ := readByte_spec (a + 3) (readByte (a + 2) (readByte (a + 1) (readByte a s).2).2).2
  exact ⟨n3, by rw [h3, h2, h1, h0]⟩

/-- The bytes of a word put together from bytes (rules R13, R52). -/
theorem wordByte_wordOfBytes (b0 b1 b2 b3 : Byte) :
    wordByte (wordOfBytes b0 b1 b2 b3) 0 = b0 ∧ wordByte (wordOfBytes b0 b1 b2 b3) 1 = b1 ∧
    wordByte (wordOfBytes b0 b1 b2 b3) 2 = b2 ∧ wordByte (wordOfBytes b0 b1 b2 b3) 3 = b3 := by
  simp only [wordByte, wordOfBytes]
  refine ⟨?_, ?_, ?_, ?_⟩ <;> apply BitVec.eq_of_getLsbD_eq <;> intro i hi <;>
    simp only [BitVec.getLsbD_extractLsb', BitVec.getLsbD_append, hi, decide_true, Bool.true_and]
  · simp [show ¬ 24 - 8 * 0 + i < 8 by omega, show ¬ 24 - 8 * 0 + i - 8 < 8 by omega,
      show ¬ 24 - 8 * 0 + i - 8 - 8 < 8 by omega, show 24 - 8 * 0 + i - 8 - 8 - 8 = i by omega]
  · simp [show ¬ 24 - 8 * 1 + i < 8 by omega, show ¬ 24 - 8 * 1 + i - 8 < 8 by omega,
      show 24 - 8 * 1 + i - 8 - 8 = i by omega, show ¬ 8 ≤ i by omega]
  · simp [show ¬ 24 - 8 * 2 + i < 8 by omega, show 24 - 8 * 2 + i - 8 = i by omega, show ¬ 8 ≤ i by omega]
  · simp [hi]

/-- In a race each byte of the word read is one of the values it had (rule R67). -/
theorem readWord_spec (a : Nat) (s : State) :
    ∃ w n, readWord a s = (w, { s with draws := n }) ∧
      ∀ j, j < 4 → wordByte w j ∈ memByte s.mem (a + j) :: staleAt s (a + j) := by
  obtain ⟨b0, n0, h0, e0⟩ := drawByte_eq (memByte s.mem a) (staleAt s a) s
  obtain ⟨b1, n1, h1, e1⟩ := drawByte_eq (memByte s.mem (a + 1)) (staleAt s (a + 1)) { s with draws := n0 }
  obtain ⟨b2, n2, h2, e2⟩ := drawByte_eq (memByte s.mem (a + 2)) (staleAt s (a + 2)) { s with draws := n1 }
  obtain ⟨b3, n3, h3, e3⟩ := drawByte_eq (memByte s.mem (a + 3)) (staleAt s (a + 3)) { s with draws := n2 }
  have e : readWord a s = (wordOfBytes b0 b1 b2 b3, { s with draws := n3 }) := by
    have r1 : readByte (a + 1) { s with draws := n0 } = (b1, { s with draws := n1 }) := e1
    have r2 : readByte (a + 2) { s with draws := n1 } = (b2, { s with draws := n2 }) := e2
    have r3 : readByte (a + 3) { s with draws := n2 } = (b3, { s with draws := n3 }) := e3
    simp only [readWord, readByte] at *
    rw [e0]
    simp only [r1, r2, r3]
  obtain ⟨w0, w1, w2, w3⟩ := wordByte_wordOfBytes b0 b1 b2 b3
  refine ⟨_, n3, e, fun j hj => ?_⟩
  interval_cases j
  · rw [w0]; exact h0
  · rw [w1]; exact h1
  · rw [w2]; exact h2
  · rw [w3]; exact h3

/-- A byte the block writes lands at its address, as itself or, in a race, as the value there. -/
theorem writeByte_spec (a : Nat) (b : Byte) (s : State) :
    ∃ v n, writeByte a b s =
        { s with mem := memSet s.mem a v, draws := n, dstSeen := (a, b) :: (a, memByte s.mem a) :: s.dstSeen } ∧
      (v = b ∨ (staleAt s a ≠ [] ∧ v = memByte s.mem a)) := by
  obtain ⟨v, n, hv, h⟩ := drawByte_eq b (if staleAt s a = [] then [] else [memByte s.mem a]) s
  refine ⟨v, n, by simp only [writeByte, h], ?_⟩
  split at hv
  · exact .inl (by simpa using hv)
  · exact (List.mem_cons.1 hv).imp id fun hm => ⟨‹_›, by simpa using hm⟩

theorem writeByte_no_race {s : State} {a : Nat} (h : staleAt s a = []) (b : Byte) :
    writeByte a b s =
      { s with mem := memSet s.mem a b, dstSeen := (a, b) :: (a, memByte s.mem a) :: s.dstSeen } := by
  simp [writeByte, h, drawByte_nil]

/-- The stores of a word are recorded at its four addresses only. -/
theorem writeWord_spec (a : Nat) (w : Word) (s : State) :
    ∃ v0 v1 v2 v3 n l, writeWord a w s =
        { s with
          mem := memSet (memSet (memSet (memSet s.mem a v0) (a + 1) v1) (a + 2) v2) (a + 3) v3
          draws := n
          dstSeen := l ++ s.dstSeen } ∧
      (∀ c ∈ l, a ≤ c.1 ∧ c.1 < a + 4) ∧
      (v0 = wordByte w 0 ∨ (staleAt s a ≠ [] ∧ v0 = memByte s.mem a)) ∧
      (v1 = wordByte w 1 ∨ (staleAt s (a + 1) ≠ [] ∧ v1 = memByte s.mem (a + 1))) ∧
      (v2 = wordByte w 2 ∨ (staleAt s (a + 2) ≠ [] ∧ v2 = memByte s.mem (a + 2))) ∧
      (v3 = wordByte w 3 ∨ (staleAt s (a + 3) ≠ [] ∧ v3 = memByte s.mem (a + 3))) := by
  obtain ⟨v0, n0, h0, c0⟩ := writeByte_spec a (wordByte w 0) s
  obtain ⟨v1, n1, h1, c1⟩ := writeByte_spec (a + 1) (wordByte w 1) { s with
    mem := memSet s.mem a v0, draws := n0, dstSeen := (a, wordByte w 0) :: (a, memByte s.mem a) :: s.dstSeen }
  obtain ⟨v2, n2, h2, c2⟩ := writeByte_spec (a + 2) (wordByte w 2) { s with
    mem := memSet (memSet s.mem a v0) (a + 1) v1, draws := n1
    dstSeen := (a + 1, wordByte w 1) :: (a + 1, memByte (memSet s.mem a v0) (a + 1)) :: (a, wordByte w 0) ::
      (a, memByte s.mem a) :: s.dstSeen }
  obtain ⟨v3, n3, h3, c3⟩ := writeByte_spec (a + 3) (wordByte w 3) { s with
    mem := memSet (memSet (memSet s.mem a v0) (a + 1) v1) (a + 2) v2, draws := n2
    dstSeen := (a + 2, wordByte w 2) :: (a + 2, memByte (memSet (memSet s.mem a v0) (a + 1) v1) (a + 2)) ::
      (a + 1, wordByte w 1) :: (a + 1, memByte (memSet s.mem a v0) (a + 1)) :: (a, wordByte w 0) ::
      (a, memByte s.mem a) :: s.dstSeen }
  refine ⟨v0, v1, v2, v3, n3,
    [(a + 3, wordByte w 3), (a + 3, memByte s.mem (a + 3)), (a + 2, wordByte w 2), (a + 2, memByte s.mem (a + 2)),
      (a + 1, wordByte w 1), (a + 1, memByte s.mem (a + 1)), (a, wordByte w 0), (a, memByte s.mem a)],
    ?_, ?_, c0, ?_, ?_, ?_⟩
  · rw [writeWord, h0, h1, h2, h3]
    simp [memByte_memSet]
  · simp
  · simpa [staleAt, memByte_memSet] using c1
  · simpa [staleAt, memByte_memSet] using c2
  · simpa [staleAt, memByte_memSet] using c3

theorem writeWord_no_race {s : State} {a : Nat} (h : ∀ j, j < 4 → staleAt s (a + j) = []) (w : Word) :
    ∃ l, writeWord a w s =
        { s with
          mem := memSet (memSet (memSet (memSet s.mem a (wordByte w 0)) (a + 1) (wordByte w 1)) (a + 2)
            (wordByte w 2)) (a + 3) (wordByte w 3)
          dstSeen := l ++ s.dstSeen } ∧
      ∀ c ∈ l, a ≤ c.1 ∧ c.1 < a + 4 := by
  have h0 : staleAt s a = [] := h 0 (by omega)
  have hs : ∀ j, j < 4 → ∀ (m : Memory) (l : List Host.Cell),
      staleAt { s with mem := m, dstSeen := l } (a + j) = [] := fun j hj _ _ => h j hj
  refine ⟨[(a + 3, wordByte w 3), (a + 3, memByte s.mem (a + 3)), (a + 2, wordByte w 2),
    (a + 2, memByte s.mem (a + 2)), (a + 1, wordByte w 1), (a + 1, memByte s.mem (a + 1)), (a, wordByte w 0),
    (a, memByte s.mem a)], ?_, by simp⟩
  rw [writeWord, writeByte_no_race h0, writeByte_no_race (hs 1 (by omega) _ _),
    writeByte_no_race (hs 2 (by omega) _ _), writeByte_no_race (hs 3 (by omega) _ _)]
  simp [memByte_memSet]

theorem blockReadByte_some {a : Nat} {s t : State} {b : Byte} (h : blockReadByte a s = some (b, t)) :
    ramAt s a = true ∧ b ∈ memByte s.mem a :: staleAt s a ∧ ∃ n, t = { s with draws := n } := by
  simp only [blockReadByte] at h
  split at h
  · simp only [Option.some.injEq] at h
    obtain ⟨hb, n, ht⟩ := readByte_spec a s
    rw [h] at hb ht
    exact ⟨‹_›, hb, n, ht⟩
  · cases h

theorem blockReadWord_some {a : Nat} {s t : State} {w : Word} (h : blockReadWord a s = some (w, t)) :
    ramWord s a = true ∧ ∃ n, t = { s with draws := n } := by
  simp only [blockReadWord] at h
  split at h
  · simp only [Option.some.injEq] at h
    obtain ⟨n, ht⟩ := readWord_state a s
    rw [h] at ht
    exact ⟨‹_›, n, ht⟩
  · cases h

theorem blockWriteByte_some {a : Nat} {b : Byte} {s t : State} (h : blockWriteByte a b s = some t) :
    ramAt s a = true ∧ ∃ v n, t =
        { s with mem := memSet s.mem a v, draws := n, dstSeen := (a, b) :: (a, memByte s.mem a) :: s.dstSeen } ∧
      (v = b ∨ (staleAt s a ≠ [] ∧ v = memByte s.mem a)) := by
  simp only [blockWriteByte] at h
  split at h
  · obtain rfl := Option.some.inj h
    exact ⟨‹_›, writeByte_spec a b s⟩
  · cases h

theorem blockWriteWord_some {a : Nat} {w : Word} {s t : State} (h : blockWriteWord a w s = some t) :
    ramWord s a = true ∧ ∃ v0 v1 v2 v3 n l, t =
        { s with
          mem := memSet (memSet (memSet (memSet s.mem a v0) (a + 1) v1) (a + 2) v2) (a + 3) v3
          draws := n
          dstSeen := l ++ s.dstSeen } ∧
      (∀ c ∈ l, a ≤ c.1 ∧ c.1 < a + 4) ∧
      (v0 = wordByte w 0 ∨ (staleAt s a ≠ [] ∧ v0 = memByte s.mem a)) ∧
      (v1 = wordByte w 1 ∨ (staleAt s (a + 1) ≠ [] ∧ v1 = memByte s.mem (a + 1))) ∧
      (v2 = wordByte w 2 ∨ (staleAt s (a + 2) ≠ [] ∧ v2 = memByte s.mem (a + 2))) ∧
      (v3 = wordByte w 3 ∨ (staleAt s (a + 3) ≠ [] ∧ v3 = memByte s.mem (a + 3))) := by
  simp only [blockWriteWord] at h
  split at h
  · obtain rfl := Option.some.inj h
    exact ⟨‹_›, writeWord_spec a w s⟩
  · cases h

/-- The block's accesses at a reachable address without a race there. -/
theorem blockReadByte_no_race {s : State} {a : Nat} (h : staleAt s a = []) (hr : ramAt s a = true) :
    blockReadByte a s = some (memByte s.mem a, s) := by
  rw [blockReadByte, if_pos hr, readByte_no_race h]

theorem blockReadWord_no_race {s : State} {a : Nat} (h : ∀ j, j < 4 → staleAt s (a + j) = [])
    (hr : ramWord s a = true) : blockReadWord a s = some (memWord s.mem a, s) := by
  rw [blockReadWord, if_pos hr, readWord_no_race h]

theorem blockWriteByte_no_race {s : State} {a : Nat} (b : Byte) (h : staleAt s a = []) (hr : ramAt s a = true) :
    blockWriteByte a b s = some
      { s with mem := memSet s.mem a b, dstSeen := (a, b) :: (a, memByte s.mem a) :: s.dstSeen } := by
  rw [blockWriteByte, if_pos hr, writeByte_no_race h]

theorem blockWriteWord_no_race {s : State} {a : Nat} (w : Word) (h : ∀ j, j < 4 → staleAt s (a + j) = [])
    (hr : ramWord s a = true) :
    ∃ l, blockWriteWord a w s = some { s with
        mem := memSet (memSet (memSet (memSet s.mem a (wordByte w 0)) (a + 1) (wordByte w 1)) (a + 2)
          (wordByte w 2)) (a + 3) (wordByte w 3)
        dstSeen := l ++ s.dstSeen } ∧
      ∀ c ∈ l, a ≤ c.1 ∧ c.1 < a + 4 := by
  obtain ⟨l, e, hl⟩ := writeWord_no_race h w
  exact ⟨l, by rw [blockWriteWord, if_pos hr, e], hl⟩

/-- Whether an address is reachable depends on the platform alone. -/
theorem ramAt_of_plat {s t : State} (h : s.plat = t.plat) (a : Nat) : ramAt s a = ramAt t a := by
  simp only [ramAt, h]

theorem ramWord_of_plat {s t : State} (h : s.plat = t.plat) (a : Nat) : ramWord s a = ramWord t a := by
  simp only [ramWord, ramAt_of_plat h]

theorem ramWord_iff (s : State) (a : Nat) : ramWord s a = true ↔ ∀ i, i < 4 → ramAt s (a + i) = true := by
  simp only [ramWord, Bool.and_eq_true]
  constructor
  · intro h i hi
    interval_cases i
    · exact h.1.1.1
    · exact h.1.1.2
    · exact h.1.2
    · exact h.2
  · exact fun h => ⟨⟨⟨h 0 (by omega), h 1 (by omega)⟩, h 2 (by omega)⟩, h 3 (by omega)⟩

/-- A byte of a word as a number (rules R13, R50). -/
theorem wordByte_eq (w : Word) (j : Nat) : wordByte w j = BitVec.ofNat 8 (w.toNat / 2 ^ (24 - 8 * j)) := by
  apply BitVec.eq_of_toNat_eq
  simp [wordByte, BitVec.extractLsb'_toNat, Nat.shiftRight_eq_div_pow]

/-- The group packed for a word, as a number (rule R78). -/
theorem groupOf_toNat (w : Word) : (groupOf w).toNat = (w.toNat + 511) % 512 := by
  have := w.isLt
  simp only [groupOf, BitVec.toNat_setWidth, BitVec.toNat_sub, BitVec.toNat_ofNat]
  omega

/-- The element written for a group, as a number (rule R78). -/
theorem elementOf_toNat (g : Group) : (elementOf g).toNat = g.toNat + 1 := by
  have := g.isLt
  simp only [elementOf, BitVec.toNat_add, BitVec.toNat_setWidth, BitVec.toNat_ofNat]
  omega

/-- The word written and read back (rules R13, R52). -/
theorem wordOfBytes_wordByte (w : Word) :
    wordOfBytes (wordByte w 0) (wordByte w 1) (wordByte w 2) (wordByte w 3) = w := by
  apply BitVec.eq_of_getLsbD_eq
  intro i hi
  simp only [wordOfBytes, wordByte, BitVec.getLsbD_append, BitVec.getLsbD_extractLsb']
  rcases Nat.lt_or_ge i 8 with h | h
  · simp [h]
  · rcases Nat.lt_or_ge i 16 with h2 | h2
    · have e : 8 + (i - 8) = i := by omega
      have h3 : i - 8 < 8 := by omega
      simp [show ¬ i < 8 by omega, h3, e]
    · rcases Nat.lt_or_ge i 24 with h4 | h4
      · have e : 16 + (i - 8 - 8) = i := by omega
        have h3 : i - 8 - 8 < 8 := by omega
        simp [show ¬ i < 8 by omega, show ¬ i - 8 < 8 by omega, h3, e]
      · have e : 24 + (i - 8 - 8 - 8) = i := by omega
        have h3 : i - 8 - 8 - 8 < 8 := by omega
        simp [show ¬ i < 8 by omega, show ¬ i - 8 < 8 by omega, show ¬ i - 8 - 8 < 8 by omega, h3, e]

/-- A word written byte by byte is the word read (rules R13, R52). -/
theorem memWord_memSet_word (m : Memory) (a : Nat) (w : Word) :
    memWord (memSet (memSet (memSet (memSet m a (wordByte w 0)) (a + 1) (wordByte w 1)) (a + 2) (wordByte w 2))
      (a + 3) (wordByte w 3)) a = w := by
  simp [memWord, memByte_memSet, wordOfBytes_wordByte]

theorem addr_lt_of_ramAt {s : State} {a : Nat} (h : ramAt s a = true) : a < addrSpace := by
  simp only [ramAt, Bool.and_eq_true, decide_eq_true_eq] at h
  exact h.1

theorem addr_lt_of_ramWord {s : State} {a : Nat} (h : ramWord s a = true) : a + 3 < addrSpace := by
  simp only [ramWord, Bool.and_eq_true] at h
  exact addr_lt_of_ramAt h.2

/-- Everything a presented command can do (rules R87 to R90). -/
theorem presentCommand_cases (w : Word) (s : State) :
    (s.busy = false ∧ w = 1#32 ∧ presentCommand w s = accept .encode s) ∨
    (s.busy = false ∧ w = 2#32 ∧ presentCommand w s = accept .decode s) ∨
    ((s.busy = true ∨ (w ≠ 1#32 ∧ w ≠ 2#32)) ∧ presentCommand w s = reject s) := by
  simp only [presentCommand, decodeCmd_eq]
  by_cases hb : s.busy = true
  · exact .inr (.inr ⟨.inl hb, by simp [hb]⟩)
  · by_cases h1 : w = 1#32
    · exact .inl ⟨by simpa using hb, h1, by simp [hb, h1]⟩
    · by_cases h2 : w = 2#32
      · exact .inr (.inl ⟨by simpa using hb, h2, by simp [hb, h2]⟩)
      · exact .inr (.inr ⟨.inr ⟨h1, h2⟩, by simp [hb, h1, h2]⟩)

end Sys2Proof.Machine
end

