-- ==== Sys2Proof/Laws/Exec.lean ====
section
/-! SUPPORT. Everything an instruction, an event and a step can do, said once (rules R10, R132 to R141, R161, R162). -/

namespace Sys2Proof.Machine

/-- Every instruction completes: it answers a next state in every state. -/
theorem exec_next (i : Instr) (s : State) : ∃ t, exec i s = .next t := by
  cases i <;> exact ⟨_, rfl⟩

/-- The five kinds of instruction. -/
theorem exec_cases {i : Instr} {s t : State} (h : exec i s = .next t) :
    (i.direction = .read ∧ ∃ v, t = busReturn v s) ∨
    (∃ w, i.direction = .write w ∧ i.offset = 0x04 ∧ t = presentCommand w s) ∨
    (∃ w, i = .wrStatus w ∧ t = clearStatus w s) ∨
    (∃ w, i = .wrIrqEn w ∧ t = setIrqEn w s) ∨
    (∃ w, i = .wrSrcAddr w ∧ t = whenIdle (fun u => { u with srcAddr := w }) s) ∨
    (∃ w, i = .wrSrcLen w ∧ t = whenIdle (fun u => { u with srcLen := w }) s) ∨
    (∃ w, i = .wrDstAddr w ∧ t = whenIdle (fun u => { u with dstAddr := w }) s) ∨
    (∃ w, i = .wrDstCap w ∧ t = whenIdle (fun u => { u with dstCap := w }) s) ∨
    (i.direction ≠ .read ∧ i.offset ≠ 0x04 ∧ t = s) := by
  cases i <;> simp only [exec] at h <;> have e := (Host.Outcome.next.inj h).symm
  case encode => exact .inr (.inl ⟨1#32, rfl, rfl, e⟩)
  case decode => exact .inr (.inl ⟨2#32, rfl, rfl, e⟩)
  case wrCmd w => exact .inr (.inl ⟨w, rfl, rfl, e⟩)
  case wrStatus w => exact .inr (.inr (.inl ⟨w, rfl, e⟩))
  case wrIrqEn w => exact .inr (.inr (.inr (.inl ⟨w, rfl, e⟩)))
  case wrSrcAddr w => exact .inr (.inr (.inr (.inr (.inl ⟨w, rfl, e⟩))))
  case wrSrcLen w => exact .inr (.inr (.inr (.inr (.inr (.inl ⟨w, rfl, e⟩)))))
  case wrDstAddr w => exact .inr (.inr (.inr (.inr (.inr (.inr (.inl ⟨w, rfl, e⟩))))))
  case wrDstCap w => exact .inr (.inr (.inr (.inr (.inr (.inr (.inr (.inl ⟨w, rfl, e⟩)))))))
  all_goals first
    | exact .inl ⟨rfl, _, e⟩
    | exact .inr (.inr (.inr (.inr (.inr (.inr (.inr (.inr ⟨by simp [Instr.direction], by decide, e⟩)))))))
    | exact .inr (.inr (.inr (.inr (.inr (.inr (.inr (.inr
        ⟨by simp [Instr.direction], by simp [Instr.offset], e⟩)))))))

/-- A descriptor write, busy or idle (rule R34). -/
theorem whenIdle_cases (f : State → State) (s : State) :
    (s.busy = true ∧ whenIdle f s = s) ∨ (s.busy = false ∧ whenIdle f s = f s) := by
  cases hb : s.busy
  · exact .inr ⟨rfl, by simp [whenIdle, hb]⟩
  · exact .inl ⟨rfl, by simp [whenIdle, hb]⟩

/-- A read by another agent draws at most one free choice (rules R58, R67). -/
theorem afterRead_eq (s : State) : ∃ n, afterRead s = { s with draws := n } := by
  unfold afterRead
  split
  · exact ⟨_, rfl⟩
  · exact ⟨s.draws, rfl⟩

/-- A byte read by another agent changes at most the data returned and the draw count (rule R67). -/
theorem hostReadByte_cases {a : Nat} {s t : State} (h : hostReadByte a s = .next t) :
    a < addrSpace ∧ ∃ v, t = { afterRead s with busRdata := v } := by
  unfold hostReadByte at h
  split at h
  · cases h
  · exact ⟨by omega, _, (Host.Outcome.next.inj h).symm⟩

/-- The values rule R67 adds to memory's at an address: none where the transaction neither has stored nor will store. -/
theorem racedValues_mem {a : Nat} {s : State} {b : Byte} (h : b ∈ racedValues a s) :
    (seenAt s a ≠ [] ∨ storesAhead (s.inbox.length + transactionBound) a (afterRead s) ≠ []) ∧
    (b ∈ seenAt s a ∨ b ∈ storesAhead (s.inbox.length + transactionBound) a (afterRead s) ∨ b ∈ staleAt s a) := by
  unfold racedValues at h
  split at h
  · cases h
  · rename_i c others he
    constructor
    · by_contra hn
      simp only [not_or, not_not] at hn
      simp [hn.1, hn.2] at he
    · rcases List.mem_append.1 h with h | h
      · rw [← he, List.mem_append] at h
        exact h.imp id .inl
      · exact .inr (.inr h)

/-- Everything a read of a byte by another agent can answer (rules R58, R67). -/
theorem hostReadByte_next {a : Nat} (ha : a < addrSpace) (s : State) :
    ∃ b, (b = memByte s.mem a ∨ (s.busy = true ∧ b ∈ racedValues a s)) ∧
      hostReadByte a s = .next { afterRead s with busRdata := b.setWidth 32 } := by
  refine ⟨_, ?_, by rw [hostReadByte, if_neg (Nat.not_le.2 ha)]⟩
  split
  · exact (List.mem_cons.1 (pickByte_mem (memByte s.mem a) (racedValues a s) s.draws)).imp id fun h => ⟨‹_›, h⟩
  · exact .inl rfl

/-- A byte written by another agent changes memory at its address, the racing bytes and the draw count (rule R67). -/
theorem hostWriteByte_cases {a : Nat} {v : Byte} {s t : State} (h : hostWriteByte a v s = .next t) :
    a < addrSpace ∧ ∃ b n, t = { s with
      mem := memSet s.mem a b
      draws := n
      stale := if s.busy then (a, memByte s.mem a) :: s.stale else s.stale
      dstSeen := if blockHasWritten a s then (a, v) :: s.dstSeen else s.dstSeen } := by
  unfold hostWriteByte at h
  split at h
  · cases h
  · rename_i ha
    obtain ⟨b, n, -, e⟩ := drawByte_eq v (if blockHasWritten a s then [memByte s.mem a] else []) s
    rw [e] at h
    exact ⟨by omega, b, n, (Host.Outcome.next.inj h).symm⟩

/-- Free bytes are written from a on, n of them, and nowhere else (rule R163). -/
theorem scribble_spec (n a : Nat) (s : State) :
    ∃ m k, scribble n a s = { s with mem := m, draws := k } ∧
      (Memory.wf s.mem = true → Memory.wf m = true) ∧
      ∀ x, x < a ∨ a + n ≤ x → memByte m x = memByte s.mem x := by
  induction n generalizing a s with
  | zero => exact ⟨s.mem, s.draws, rfl, id, fun _ _ => rfl⟩
  | succ n ih =>
    by_cases ha : a < addrSpace
    · obtain ⟨m, k, e, hw, hm⟩ := ih (a + 1)
        { s with mem := memSet s.mem a (Config.freeByte s.draws), draws := s.draws + 1 }
      refine ⟨m, k, by rw [scribble, if_pos ha, e], fun h => hw (Memory.wf_memSet _ _ _ ha h), fun x hx => ?_⟩
      rw [hm x (by omega)]
      exact memByte_memSet_ne _ _ _ _ (by omega)
    · obtain ⟨m, k, e, hw, hm⟩ := ih (a + 1) s
      exact ⟨m, k, by rw [scribble, if_neg ha, e], hw, fun x hx => hm x (by omega)⟩

/-- The next event: the block's turn, or the head of the inbox. -/
theorem nextEvent_cases (s : State) :
    (s.inbox = [] ∧ nextEvent s = (.block, s)) ∨
    ∃ e rest, s.inbox = e :: rest ∧ nextEvent s = (e, { s with inbox := rest }) := by
  cases hi : s.inbox with
  | nil => exact .inl ⟨rfl, by simp only [nextEvent, hi]⟩
  | cons e rest => exact .inr ⟨e, rest, rfl, by simp only [nextEvent, hi]⟩

theorem nextEvent_block {s s' : State} (h : nextEvent s = (.block, s')) : BlockTurnAt s s' := by
  rcases nextEvent_cases s with ⟨hi, e⟩ | ⟨e, rest, hi, he⟩
  · rw [e] at h
    exact .inl ⟨hi, (Prod.mk.inj h).2.symm⟩
  · rw [he] at h
    obtain ⟨rfl, h2⟩ := Prod.mk.inj h
    exact .inr ⟨rest, hi, h2.symm⟩

/-- A read apart, an event does what it does as far as the block and memory go. -/
theorem serve_eq_serveUnread {e : Event} (h : ∀ a, e ≠ .hostRead a) (s : State) : serve e s = serveUnread e s := by
  cases e with
  | hostRead a => exact absurd rfl (h a)
  | block => rfl
  | bus a => rfl
  | hostWrite a v => rfl
  | reset => rfl

/-- With nothing in the inbox a busy block takes the micro-step of its phase. -/
theorem step_busy {s : State} (hb : s.busy = true) (hi : s.inbox = []) : step s = microStep s := by
  simp [step, serveNext, nextEvent, serve, serveUnread, hi, blockTurn, hb]

/-- In the block's turn a busy block takes the micro-step of its phase, whatever comes after in the inbox. -/
theorem step_blockTurn {s₀ s : State} (h : BlockTurnAt s₀ s) : step s₀ = blockTurn s := by
  obtain ⟨hi, rfl⟩ | ⟨rest, hi, rfl⟩ := h <;> simp [step, serveNext, nextEvent, serve, serveUnread, hi]

/-- The block's turn: nothing while idle, a micro-step while BUSY. -/
theorem blockTurn_cases {s t : State} (h : blockTurn s = .next t) :
    (s.busy = false ∧ t = s) ∨ (s.busy = true ∧ microStep s = .next t) := by
  unfold blockTurn at h
  split at h
  · exact .inr ⟨‹_›, h⟩
  · exact .inl ⟨Bool.eq_false_iff.2 ‹_›, (Host.Outcome.next.inj h).symm⟩

/-- Everything one step can be. -/
theorem step_cases {s t : State} (h : step s = .next t) :
    (s.inbox = [] ∧ blockTurn s = .next t) ∨
    ∃ e rest, s.inbox = e :: rest ∧
      ((e = .block ∧ blockTurn { s with inbox := rest } = .next t) ∨
       (∃ a i, e = .bus a ∧ decodeAccess s.plat.base a = .ok i ∧ exec i { s with inbox := rest } = .next t) ∨
       (∃ a, e = .hostRead a ∧ hostReadByte a { s with inbox := rest } = .next t) ∨
       (∃ a v, e = .hostWrite a v ∧ hostWriteByte a v { s with inbox := rest } = .next t) ∨
       (e = .reset ∧ t = resetBlock { s with inbox := rest })) := by
  cases hin : s.inbox with
  | nil => exact .inl ⟨rfl, by simpa [step, serveNext, nextEvent, serve, serveUnread, hin] using h⟩
  | cons e rest =>
    simp only [step, serveNext, nextEvent, hin] at h
    refine .inr ⟨e, rest, rfl, ?_⟩
    cases e with
    | block => exact .inl ⟨rfl, h⟩
    | bus a =>
      simp only [serve, serveUnread, busAccess] at h
      split at h
      · exact .inr (.inl ⟨a, _, rfl, ‹_›, h⟩)
      · cases h
    | hostRead a => exact .inr (.inr (.inl ⟨a, rfl, h⟩))
    | hostWrite a v => exact .inr (.inr (.inr (.inl ⟨a, v, rfl, h⟩)))
    | reset => exact .inr (.inr (.inr (.inr ⟨rfl, (Host.Outcome.next.inj h).symm⟩)))

end Sys2Proof.Machine
end

