-- ==== Sys2Proof/Laws/MicroStep.lean ====
section
/-! SUPPORT. Everything each micro-step can do, said once per phase (rules R110 to R127). -/

namespace Sys2Proof.Machine

theorem microECheck_cases (s : State) :
    (s.count.toNat = 0 ∧ microECheck s = .next (finish s)) ∨
    (s.count.toNat ≠ 0 ∧ ∃ e, encodeCheck s = some e ∧ microECheck s = .next (raise e 0#32 0#32 s)) ∨
    (s.count.toNat ≠ 0 ∧ encodeCheck s = none ∧ microECheck s = .next { s with phase := .eValidate }) := by
  by_cases h : s.count.toNat = 0
  · exact .inl ⟨h, by simp [microECheck, h]⟩
  · cases he : encodeCheck s with
    | none => exact .inr (.inr ⟨h, rfl, by simp [microECheck, h, he]⟩)
    | some e => exact .inr (.inl ⟨h, e, rfl, by simp [microECheck, h, he]⟩)

theorem microEValidate_cases {s t : State} (h : microEValidate s = .next t) :
    ∃ w n, ramWord s (s.srcAddr.toNat + s.inPos.toNat) = true ∧
      ((elementInRange w = true ∧ t = validateNext { s with draws := n }) ∨
        (elementInRange w = false ∧
          t = raise .outOfRange (BitVec.ofNat 32 (s.inPos.toNat / 4)) w { s with draws := n })) := by
  unfold microEValidate at h
  split at h
  · cases h
  · rename_i w u hw
    obtain ⟨hr, n, rfl⟩ := blockReadWord_some hw
    refine ⟨w, n, hr, ?_⟩
    split at h
    · exact .inl ⟨‹_›, (Host.Outcome.next.inj h).symm⟩
    · exact .inr ⟨Bool.eq_false_iff.2 ‹_›, (Host.Outcome.next.inj h).symm⟩

theorem microEHeader_cases {s t : State} (h : microEHeader s = .next t) :
    s.outPos.toNat ≤ 3 ∧ ramAt s (s.dstAddr.toNat + s.outPos.toNat) = true ∧
      ∃ v n l, t = headerNext { s with
          mem := memSet s.mem (s.dstAddr.toNat + s.outPos.toNat) v, draws := n, dstSeen := l ++ s.dstSeen } ∧
        (∀ c ∈ l, c.1 = s.dstAddr.toNat + s.outPos.toNat) ∧
        (v = wordByte s.count s.outPos.toNat ∨ (staleAt s (s.dstAddr.toNat + s.outPos.toNat) ≠ [] ∧
          v = memByte s.mem (s.dstAddr.toNat + s.outPos.toNat))) := by
  unfold microEHeader at h
  split at h
  · cases h
  · split at h
    · cases h
    · rename_i u hw
      obtain ⟨hr, v, n, rfl, hv⟩ := blockWriteByte_some hw
      exact ⟨by omega, hr, v, n, [_, _], (Host.Outcome.next.inj h).symm, by simp, hv⟩

theorem microELoad_cases {s t : State} (h : microELoad s = .next t) :
    ∃ g n, ramWord s (s.srcAddr.toNat + s.inPos.toNat) = true ∧
      t = { push9 g { s with draws := n } with inPos := s.inPos + 4#32, phase := .eEmit } := by
  unfold microELoad at h
  split at h
  · cases h
  · rename_i w u hw
    obtain ⟨hr, n, rfl⟩ := blockReadWord_some hw
    exact ⟨groupOf w, n, hr, (Host.Outcome.next.inj h).symm⟩

theorem microEEmit_cases {s t : State} (h : microEEmit s = .next t) :
    8 ≤ s.held.toNat ∧ ramAt s (s.dstAddr.toNat + s.outPos.toNat) = true ∧
      ∃ v n l, t = emitNext { (emit8 s).2 with
          mem := memSet s.mem (s.dstAddr.toNat + s.outPos.toNat) v, draws := n, outPos := s.outPos + 1#32
          dstSeen := l ++ s.dstSeen } ∧
        (∀ c ∈ l, c.1 = s.dstAddr.toNat + s.outPos.toNat) ∧
        (v = (emit8 s).1 ∨ (staleAt s (s.dstAddr.toNat + s.outPos.toNat) ≠ [] ∧
          v = memByte s.mem (s.dstAddr.toNat + s.outPos.toNat))) := by
  unfold microEEmit at h
  split at h
  · cases h
  · split at h
    rename_i b u hb
    obtain rfl : u = (emit8 s).2 := by rw [hb]
    split at h
    · cases h
    · rename_i _ x hw
      obtain ⟨hr, v, n, rfl, hv⟩ := blockWriteByte_some hw
      obtain rfl : b = (emit8 s).1 := by rw [hb]
      exact ⟨by omega, hr, v, n, [_, _], (Host.Outcome.next.inj h).symm, by simp, hv⟩

theorem microEFlush_cases {s t : State} (h : microEFlush s = .next t) :
    1 ≤ s.held.toNat ∧ s.held.toNat ≤ 7 ∧ ramAt s (s.dstAddr.toNat + s.outPos.toNat) = true ∧
      ∃ v n, t = finish { s with
          mem := memSet s.mem (s.dstAddr.toNat + s.outPos.toNat) v, draws := n, outPos := s.outPos + 1#32 } ∧
        (v = (padFlush s).1 ∨ (staleAt s (s.dstAddr.toNat + s.outPos.toNat) ≠ [] ∧
          v = memByte s.mem (s.dstAddr.toNat + s.outPos.toNat))) := by
  unfold microEFlush at h
  split at h
  · cases h
  · split at h
    rename_i b u hb
    obtain rfl : u = (padFlush s).2 := by rw [hb]
    split at h
    · cases h
    · rename_i _ x hw
      obtain ⟨hr, v, n, rfl, hv⟩ := blockWriteByte_some hw
      obtain rfl : b = (padFlush s).1 := by rw [hb]
      exact ⟨by omega, by omega, hr, v, n, (Host.Outcome.next.inj h).symm, hv⟩

theorem microDCheck0_cases (s : State) :
    (s.srcLen.toNat = 0 ∧ microDCheck0 s = .next (finish s)) ∨
    (s.srcLen.toNat ≠ 0 ∧ ∃ e, decodeCheck0 s = some e ∧ microDCheck0 s = .next (raise e 0#32 0#32 s)) ∨
    (s.srcLen.toNat ≠ 0 ∧ decodeCheck0 s = none ∧ microDCheck0 s = .next { s with phase := .dHeader }) := by
  by_cases h : s.srcLen.toNat = 0
  · exact .inl ⟨h, by simp [microDCheck0, h]⟩
  · cases he : decodeCheck0 s with
    | none => exact .inr (.inr ⟨h, rfl, by simp [microDCheck0, h, he]⟩)
    | some e => exact .inr (.inl ⟨h, e, rfl, by simp [microDCheck0, h, he]⟩)

theorem microDHeader_cases {s t : State} (h : microDHeader s = .next t) :
    ramAt s (s.srcAddr.toNat + s.inPos.toNat) = true ∧
      ∃ b n, t = headerShift b { s with draws := n } := by
  unfold microDHeader at h
  split at h
  · cases h
  · rename_i b u hw
    obtain ⟨hr, -, n, rfl⟩ := blockReadByte_some hw
    exact ⟨hr, b, n, (Host.Outcome.next.inj h).symm⟩

theorem microDCheck_cases (s : State) :
    (∃ e, decodeCheck s = some e ∧ microDCheck s = .next (raise e 0#32 0#32 s)) ∨
    (decodeCheck s = none ∧ s.count.toNat = 0 ∧ microDCheck s = .next (finish s)) ∨
    (decodeCheck s = none ∧ s.count.toNat ≠ 0 ∧ microDCheck s = .next { s with phase := .dFill }) := by
  cases he : decodeCheck s with
  | some e => exact .inl ⟨e, rfl, by simp [microDCheck, he]⟩
  | none =>
    by_cases h : s.count.toNat = 0
    · exact .inr (.inl ⟨rfl, h, by simp [microDCheck, he, h]⟩)
    · exact .inr (.inr ⟨rfl, h, by simp [microDCheck, he, h]⟩)

theorem microDFill_cases {s t : State} (h : microDFill s = .next t) :
    (s.inPos = s.srcLen ∧ t = raise .truncatedBuffer 0#32 0#32 s) ∨
    (s.inPos ≠ s.srcLen ∧ ramAt s (s.srcAddr.toNat + s.inPos.toNat) = true ∧
      ∃ b n, t = fillNext (fill8 b { s with draws := n })) := by
  unfold microDFill at h
  split at h
  · exact .inl ⟨‹_›, (Host.Outcome.next.inj h).symm⟩
  · split at h
    · cases h
    · rename_i hne _ b u hw
      obtain ⟨hr, -, n, rfl⟩ := blockReadByte_some hw
      exact .inr ⟨hne, hr, b, n, (Host.Outcome.next.inj h).symm⟩

theorem microDExtract_cases {s t : State} (h : microDExtract s = .next t) :
    9 ≤ s.held.toNat ∧ ramWord s (s.dstAddr.toNat + s.outPos.toNat) = true ∧
      ∃ v0 v1 v2 v3 n l, t = extractNext { (pull9 s).2 with
          mem := memSet (memSet (memSet (memSet s.mem (s.dstAddr.toNat + s.outPos.toNat) v0)
            (s.dstAddr.toNat + s.outPos.toNat + 1) v1) (s.dstAddr.toNat + s.outPos.toNat + 2) v2)
            (s.dstAddr.toNat + s.outPos.toNat + 3) v3
          draws := n
          dstSeen := l ++ s.dstSeen } ∧
        (∀ c ∈ l, s.dstAddr.toNat + s.outPos.toNat ≤ c.1 ∧ c.1 < s.dstAddr.toNat + s.outPos.toNat + 4) ∧
        (v0 = wordByte (elementOf (pull9 s).1) 0 ∨ (staleAt s (s.dstAddr.toNat + s.outPos.toNat) ≠ [] ∧
          v0 = memByte s.mem (s.dstAddr.toNat + s.outPos.toNat))) ∧
        (v1 = wordByte (elementOf (pull9 s).1) 1 ∨ (staleAt s (s.dstAddr.toNat + s.outPos.toNat + 1) ≠ [] ∧
          v1 = memByte s.mem (s.dstAddr.toNat + s.outPos.toNat + 1))) ∧
        (v2 = wordByte (elementOf (pull9 s).1) 2 ∨ (staleAt s (s.dstAddr.toNat + s.outPos.toNat + 2) ≠ [] ∧
          v2 = memByte s.mem (s.dstAddr.toNat + s.outPos.toNat + 2))) ∧
        (v3 = wordByte (elementOf (pull9 s).1) 3 ∨ (staleAt s (s.dstAddr.toNat + s.outPos.toNat + 3) ≠ [] ∧
          v3 = memByte s.mem (s.dstAddr.toNat + s.outPos.toNat + 3))) := by
  unfold microDExtract at h
  split at h
  · cases h
  · split at h
    rename_i g u hg
    obtain rfl : u = (pull9 s).2 := by rw [hg]
    split at h
    · cases h
    · rename_i _ x hw
      obtain rfl : g = (pull9 s).1 := by rw [hg]
      obtain ⟨hr, v0, v1, v2, v3, n, l, rfl, hl, h0, h1, h2, h3⟩ := blockWriteWord_some hw
      exact ⟨by omega, hr, v0, v1, v2, v3, n, l, (Host.Outcome.next.inj h).symm, hl, h0, h1, h2, h3⟩

end Sys2Proof.Machine
end

