-- ==== Sys2Proof/Laws/PerInstr.lean ====
section
/-! SUPPORT. The family of statements about every instruction as syntax: its access is an aligned word of the window,
and decodes to it wherever the window is (rules R18, R55, R83). -/

namespace Sys2Proof.Laws.Encoding

/-- An instruction lies in the window at a multiple of 4, and if well formed is what its access decodes to. -/
def Statement (i : Instr) : Prop :=
  i.offset < 64 ∧ i.offset % 4 = 0 ∧
  (i.wellFormed = true → ∀ base, decodeAccess base (encodeAccess base i) = .ok i)

/-- The statement of an instruction whose register number and direction decode to it. -/
theorem statement_of_decode (i : Instr)
    (h : i.wellFormed = true → (match i.direction with
      | .read => decodeRead (i.offset / 4)
      | .write w => decodeWrite (i.offset / 4) w) = .ok i) : Statement i := by
  obtain ⟨h1, h2⟩ := offset_in_window i
  exact ⟨h1, h2, fun hw base => (decodeAccess_admitted base i.offset i.direction h1 h2).trans (h hw)⟩

theorem encode : Statement .encode :=
  statement_of_decode _ fun _ => by decide

theorem decode : Statement .decode :=
  statement_of_decode _ fun _ => by decide

theorem rdId : Statement .rdId := statement_of_decode _ fun _ => rfl

theorem wrId (w : Word) : Statement (.wrId w) :=
  statement_of_decode _ fun _ => by simp [Instr.offset, Instr.direction, decodeWrite]

theorem rdCmd : Statement .rdCmd := statement_of_decode _ fun _ => rfl

theorem wrCmd (w : Word) : Statement (.wrCmd w) :=
  statement_of_decode _ fun h => by simp [Instr.offset, Instr.direction, decodeWrite, decodeCmdWrite_reserved h]

theorem rdStatus : Statement .rdStatus := statement_of_decode _ fun _ => rfl

theorem wrStatus (w : Word) : Statement (.wrStatus w) :=
  statement_of_decode _ fun _ => by simp [Instr.offset, Instr.direction, decodeWrite]

theorem rdIrqEn : Statement .rdIrqEn := statement_of_decode _ fun _ => rfl

theorem wrIrqEn (w : Word) : Statement (.wrIrqEn w) :=
  statement_of_decode _ fun _ => by simp [Instr.offset, Instr.direction, decodeWrite]

theorem rdSrcAddr : Statement .rdSrcAddr := statement_of_decode _ fun _ => rfl

theorem wrSrcAddr (w : Word) : Statement (.wrSrcAddr w) :=
  statement_of_decode _ fun _ => by simp [Instr.offset, Instr.direction, decodeWrite]

theorem rdSrcLen : Statement .rdSrcLen := statement_of_decode _ fun _ => rfl

theorem wrSrcLen (w : Word) : Statement (.wrSrcLen w) :=
  statement_of_decode _ fun _ => by simp [Instr.offset, Instr.direction, decodeWrite]

theorem rdDstAddr : Statement .rdDstAddr := statement_of_decode _ fun _ => rfl

theorem wrDstAddr (w : Word) : Statement (.wrDstAddr w) :=
  statement_of_decode _ fun _ => by simp [Instr.offset, Instr.direction, decodeWrite]

theorem rdDstCap : Statement .rdDstCap := statement_of_decode _ fun _ => rfl

theorem wrDstCap (w : Word) : Statement (.wrDstCap w) :=
  statement_of_decode _ fun _ => by simp [Instr.offset, Instr.direction, decodeWrite]

theorem rdCount : Statement .rdCount := statement_of_decode _ fun _ => rfl

theorem wrCount (w : Word) : Statement (.wrCount w) :=
  statement_of_decode _ fun _ => by simp [Instr.offset, Instr.direction, decodeWrite]

theorem rdOutLen : Statement .rdOutLen := statement_of_decode _ fun _ => rfl

theorem wrOutLen (w : Word) : Statement (.wrOutLen w) :=
  statement_of_decode _ fun _ => by simp [Instr.offset, Instr.direction, decodeWrite]

theorem rdErrIndex : Statement .rdErrIndex := statement_of_decode _ fun _ => rfl

theorem wrErrIndex (w : Word) : Statement (.wrErrIndex w) :=
  statement_of_decode _ fun _ => by simp [Instr.offset, Instr.direction, decodeWrite]

theorem rdErrValue : Statement .rdErrValue := statement_of_decode _ fun _ => rfl

theorem wrErrValue (w : Word) : Statement (.wrErrValue w) :=
  statement_of_decode _ fun _ => by simp [Instr.offset, Instr.direction, decodeWrite]

theorem rdAcc : Statement .rdAcc := statement_of_decode _ fun _ => rfl

theorem wrAcc (w : Word) : Statement (.wrAcc w) :=
  statement_of_decode _ fun _ => by simp [Instr.offset, Instr.direction, decodeWrite]

theorem rdHeld : Statement .rdHeld := statement_of_decode _ fun _ => rfl

theorem wrHeld (w : Word) : Statement (.wrHeld w) :=
  statement_of_decode _ fun _ => by simp [Instr.offset, Instr.direction, decodeWrite]

theorem rdInPos : Statement .rdInPos := statement_of_decode _ fun _ => rfl

theorem wrInPos (w : Word) : Statement (.wrInPos w) :=
  statement_of_decode _ fun _ => by simp [Instr.offset, Instr.direction, decodeWrite]

theorem rdOutPos : Statement .rdOutPos := statement_of_decode _ fun _ => rfl

theorem wrOutPos (w : Word) : Statement (.wrOutPos w) :=
  statement_of_decode _ fun _ => by simp [Instr.offset, Instr.direction, decodeWrite]

end Sys2Proof.Laws.Encoding
end

