-- ==== Sys2Proof/Machine/Notation.lean ====
section
/-! DEFINITION. The notation for host programs (rules R84 to R86): a line's host access, the expansions of the
pseudo-instructions, and the directives that lay out a start state. -/

namespace Sys2Proof.Machine

/-- A register by its name (rules R18, R84). -/
inductive RegName where
  | id
  | cmd
  | status
  | irqEn
  | srcAddr
  | srcLen
  | dstAddr
  | dstCap
  | count
  | outLen
  | errIndex
  | errValue
  | acc
  | held
  | inPos
  | outPos
  deriving DecidableEq, Repr

/-- The offset of a named register (rule R18). -/
def regOffset (r : RegName) : Nat :=
  match r with
  | .id => 0x00
  | .cmd => 0x04
  | .status => 0x08
  | .irqEn => 0x0C
  | .srcAddr => 0x10
  | .srcLen => 0x14
  | .dstAddr => 0x18
  | .dstCap => 0x1C
  | .count => 0x20
  | .outLen => 0x24
  | .errIndex => 0x28
  | .errValue => 0x2C
  | .acc => 0x30
  | .held => 0x34
  | .inPos => 0x38
  | .outPos => 0x3C

/-- A line that makes host accesses (rule R84). -/
inductive HostLine where
  | wr (r : RegName) (w : Word)
  | rd (r : RegName)
  | poll (r : RegName) (mask val : Word)
  deriving DecidableEq, Repr

/-- The host access of a line; of a POLL, each of its reads (rule R84). -/
def lineAccess (base : Nat) (l : HostLine) : BusAccess :=
  match l with
  | .wr r w => { addr := base + regOffset r, bytes := 4, dir := .write w }
  | .rd r => { addr := base + regOffset r, bytes := 4, dir := .read }
  | .poll r _ _ => { addr := base + regOffset r, bytes := 4, dir := .read }

/-- Whether the line is over once its read has answered v: a POLL repeats until (v & mask) = val (rule R84). -/
def lineOver (v : Word) (l : HostLine) : Bool :=
  match l with
  | .wr _ _ => true
  | .rd _ => true
  | .poll _ mask val => (v &&& mask) == val

/-- The pseudo-instructions (rule R86). -/
inductive Pseudo where
  | enc (src n dst cap : Word)
  | dec (src len dst cap : Word)
  | wait
  | ack
  deriving DecidableEq, Repr

/-- Their expansions (rule R86), with the command words of rule R85. -/
def expandPseudo (p : Pseudo) : List HostLine :=
  match p with
  | .enc src n dst cap =>
    [.wr .srcAddr src, .wr .srcLen n, .wr .dstAddr dst, .wr .dstCap cap, .wr .cmd 0x00000001#32]
  | .dec src len dst cap =>
    [.wr .srcAddr src, .wr .srcLen len, .wr .dstAddr dst, .wr .dstCap cap, .wr .cmd 0x00000002#32]
  | .wait => [.poll .status 0x1#32 0x0#32]
  | .ack => [.wr .status 0xE#32]

/-- The directive .byte: bytes from address a on (rule R84). -/
def placeBytes (a : Nat) (bs : List Byte) (m : Memory) : Memory :=
  match bs with
  | [] => m
  | b :: rest => placeBytes (a + 1) rest (memSet m a b)

/-- The directive .word: 32-bit big-endian words from address a on (rule R84). -/
def placeWords (a : Nat) (ws : List Word) (m : Memory) : Memory :=
  match ws with
  | [] => m
  | w :: rest => placeWords (a + 4) rest
      (placeBytes a [wordByte w 0, wordByte w 1, wordByte w 2, wordByte w 3] m)

end Sys2Proof.Machine
end

