-- ==== Sys2Proof/Tests/Slice0.lean ====
section
/-! SUPPORT. Tests of one step each, with results taken from the spec (spec/95_test_vectors.md and the examples of the
rules), and a witness for the hypotheses of every statement. -/

namespace Sys2Proof.Tests

open Sys2Proof Sys2Proof.Machine

/-- Bytes laid out from address a on. -/
def cellsFrom (a : Nat) (bs : List Byte) : Memory :=
  match bs with
  | [] => []
  | b :: rest => (a, b) :: cellsFrom (a + 1) rest

/-- The state an outcome answers, if it answers one. -/
def reached (o : Host.Outcome State Fault Refusal) : Option State :=
  match o with
  | .next s => some s
  | .fault _ => none
  | .refused _ => none

/-- The fault an outcome answers, if it answers one. -/
def faulted (o : Host.Outcome State Fault Refusal) : Option Fault :=
  match o with
  | .next _ => none
  | .fault f => some f
  | .refused _ => none

/-- ENCODE of the elements [150] at 0x1000 to 0x2000, at some point of its trace (V-ENC-1). -/
def encAt (p : Phase) (inPos outPos : Word) (acc : BitVec 16) (held : BitVec 5) : State :=
  { State.reset with
    busy := true, op := some .encode, phase := p, srcAddr := 0x1000#32, srcLen := 1#32, dstAddr := 0x2000#32,
    dstCap := 6#32, count := 1#32, inPos := inPos, outPos := outPos, acc := acc, held := held,
    mem := cellsFrom 0x1000 [0x00#8, 0x00#8, 0x00#8, 0x96#8] }

/-- DECODE of 00 00 00 01 4A 80 at 0x1000 to 0x2000, at some point of its trace (V-DEC-6). -/
def decAt (p : Phase) (count inPos outPos : Word) (acc : BitVec 16) (held : BitVec 5) : State :=
  { State.reset with
    busy := true, op := some .decode, phase := p, srcAddr := 0x1000#32, srcLen := 6#32, dstAddr := 0x2000#32,
    dstCap := 4#32, count := count, inPos := inPos, outPos := outPos, acc := acc, held := held,
    mem := cellsFrom 0x1000 [0x00#8, 0x00#8, 0x00#8, 0x01#8, 0x4A#8, 0x80#8] }

/-- Idle, with the descriptors and the element of V-ENC-1. -/
def encReady : State :=
  { State.reset with
    srcAddr := 0x1000#32, srcLen := 1#32, dstAddr := 0x2000#32, dstCap := 6#32,
    mem := cellsFrom 0x1000 [0x00#8, 0x00#8, 0x00#8, 0x96#8] }

/-- Idle, with the descriptors and the bytes of V-DEC-6. -/
def decReady : State :=
  { State.reset with
    srcAddr := 0x1000#32, srcLen := 6#32, dstAddr := 0x2000#32, dstCap := 4#32,
    mem := cellsFrom 0x1000 [0x00#8, 0x00#8, 0x00#8, 0x01#8, 0x4A#8, 0x80#8] }

/-- The same state with other bytes from 0x1000 on. -/
def withBytes (bs : List Byte) (s : State) : State := { s with mem := cellsFrom 0x1000 bs }

/-- A platform whose block reaches nothing. -/
def deaf (s : State) : State := { s with plat := { base := 0, ram := [] } }

/-! ## Well-formed instructions and platforms -/

/-- Rule R73: 1 and 2 written to CMD are ENCODE and DECODE, not a reserved word. -/
theorem test_wrCmd_wellFormed :
    (Instr.wrCmd 1#32).wellFormed = false ∧ (Instr.wrCmd 2#32).wellFormed = false ∧
    (Instr.wrCmd 3#32).wellFormed = true ∧ Instr.encode.wellFormed = true := by decide

/-- Rule R9: BASE is a multiple of 0x40. -/
theorem test_base_wellFormed :
    Platform.wellFormed { base := 0x20, ram := [] } = false ∧
    Platform.wellFormed { base := 0x40, ram := [] } = true := by decide

/-! ## Decoding: rules R18, R55, R72 to R75, R83 -/

/-- The command words of rule R73 and reserved words of rule R75. -/
theorem test_decode_command_words :
    decodeCmd 0b00000000000000000000000000000001#32 = some .encode ∧
    decodeCmd 0b00000000000000000000000000000010#32 = some .decode ∧
    decodeCmd 0x00000000#32 = none ∧ decodeCmd 0x00000003#32 = none ∧ decodeCmd 0x0000000F#32 = none ∧
    decodeCmd 0x00000011#32 = none ∧ decodeCmd 0x80000001#32 = none := by decide

/-- The reads, each at its offset in rule R18's table, bits [5:0] written out. -/
theorem test_decode_reads :
    decodeTableWord 8 0b00000000 = some .rdId ∧ decodeTableWord 8 0b00000100 = some .rdCmd ∧
    decodeTableWord 8 0b00001000 = some .rdStatus ∧ decodeTableWord 8 0b00001100 = some .rdIrqEn ∧
    decodeTableWord 8 0b00010000 = some .rdSrcAddr ∧ decodeTableWord 8 0b00010100 = some .rdSrcLen ∧
    decodeTableWord 8 0b00011000 = some .rdDstAddr ∧ decodeTableWord 8 0b00011100 = some .rdDstCap ∧
    decodeTableWord 8 0b00100000 = some .rdCount ∧ decodeTableWord 8 0b00100100 = some .rdOutLen ∧
    decodeTableWord 8 0b00101000 = some .rdErrIndex ∧ decodeTableWord 8 0b00101100 = some .rdErrValue ∧
    decodeTableWord 8 0b00110000 = some .rdAcc ∧ decodeTableWord 8 0b00110100 = some .rdHeld ∧
    decodeTableWord 8 0b00111000 = some .rdInPos ∧ decodeTableWord 8 0b00111100 = some .rdOutPos := by decide

/-- The writes (offset, W, data) of rule R83 as bus accesses at BASE = 0x40. -/
theorem test_decode_writes :
    ([0x00, 0x04, 0x08, 0x0C, 0x10, 0x14, 0x18, 0x1C, 0x20, 0x24, 0x28, 0x2C, 0x30, 0x34, 0x38, 0x3C].map
      fun o => decodeAccess 0x40 { addr := 0x40 + o, bytes := 4, dir := .write 7#32 }) =
    ([Instr.wrId 7#32, .wrCmd 7#32, .wrStatus 7#32, .wrIrqEn 7#32, .wrSrcAddr 7#32, .wrSrcLen 7#32, .wrDstAddr 7#32,
      .wrDstCap 7#32, .wrCount 7#32, .wrOutLen 7#32, .wrErrIndex 7#32, .wrErrValue 7#32, .wrAcc 7#32, .wrHeld 7#32,
      .wrInPos 7#32, .wrOutPos 7#32].map Decoded.ok) := by decide

/-- The writes of 1 and 2 to CMD (rule R73). -/
theorem test_decode_commands :
    decodeAccess 0 { addr := 0x04, bytes := 4, dir := .write 1#32 } = .ok .encode ∧
    decodeAccess 0 { addr := 0x04, bytes := 4, dir := .write 2#32 } = .ok .decode := by decide

/-- Accesses that are not admitted (rule R55), by name. -/
theorem test_decode_rejects :
    decodeAccess 0x40 { addr := 0x42, bytes := 4, dir := .read } = .rejected .misaligned ∧
    decodeAccess 0x40 { addr := 0x44, bytes := 2, dir := .read } = .rejected .notWord ∧
    decodeAccess 0x40 { addr := 0x3C, bytes := 4, dir := .read } = .rejected .outsideWindow ∧
    decodeAccess 0x40 { addr := 0x80, bytes := 4, dir := .read } = .rejected .outsideWindow := by decide

/-! ## Commands: rules R87 to R89 -/

/-- V-CMD-1: after WR CMD, 1 with SRC_LEN = 3, STATUS = 0x00001011 and COUNT = 3. -/
theorem test_encode_accepts :
    (reached (exec .encode { State.reset with srcLen := 3#32 })).map (fun t => (statusWord t, t.count)) =
      some (0x00001011#32, 3#32) := by decide

/-- V-CMD-8: acceptance clears the record of the last error; CMD_REJ stays. -/
theorem test_encode_clears_error :
    (reached (exec .encode { State.reset with
      err := true, op := some .decode, errCode := some .truncatedBuffer, cmdRej := true })).map statusWord =
      some 0x00001019#32 := by decide

/-- V-CMD-2: after WR CMD, 2, STATUS = 0x00007021. -/
theorem test_decode_accepts :
    (reached (exec .decode { State.reset with srcLen := 3#32 })).map (fun t => (statusWord t, t.count)) =
      some (0x00007021#32, 0#32) := by decide

/-- V-CMD-3 and V-CMD-6: a reserved word sets CMD_REJ only. -/
theorem test_wrCmd_reserved :
    (reached (exec (.wrCmd 0x00000000#32) State.reset)).map statusWord = some 0x00000008#32 ∧
    (reached (exec (.wrCmd 0x80000001#32) State.reset)).map statusWord = some 0x00000008#32 := by decide

/-- V-CMD-7: DECODE while an ENCODE runs is rejected, and the ENCODE goes on. -/
theorem test_decode_busy :
    (reached (exec .decode (encAt .eLoad 0#32 4#32 0#16 0#5))).map statusWord = some 0x00004019#32 := by decide

/-! ## Register access: rules R133 to R141 -/

/-- V-REG-1 and V-REG-3. -/
theorem test_rdId :
    (reached (exec .rdId State.reset)).map (·.busRdata) = some 0x46575039#32 ∧
    (reached (exec .rdCmd { State.reset with busRdata := 9#32 })).map (·.busRdata) = some 0#32 := by decide

/-- V-REG-4: STATUS after a successful ENCODE. -/
theorem test_rdStatus_done :
    (reached (exec .rdStatus { State.reset with done := true, op := some .encode })).map (·.busRdata) =
      some 0x00000012#32 := by decide

/-- V-REG-7: STATUS after a DECODE that found its buffer truncated. -/
theorem test_rdStatus_err :
    (reached (exec .rdStatus { State.reset with
      err := true, op := some .decode, errCode := some .truncatedBuffer })).map (·.busRdata) =
      some 0x00000324#32 := by decide

/-- V-REG-6: 0xFFFFFFFF clears the three bits and nothing else. -/
theorem test_wrStatus :
    (reached (exec (.wrStatus 0xFFFFFFFF#32) { State.reset with
      done := true, cmdRej := true, op := some .encode })).map statusWord = some 0x00000010#32 := by decide

/-- V-REG-8: clearing ERR leaves ERRCODE. -/
theorem test_wrStatus_err :
    (reached (exec (.wrStatus 4#32) { State.reset with
      err := true, op := some .decode, errCode := some .truncatedBuffer })).map statusWord =
      some 0x00000320#32 := by decide

/-- V-REG-9 and V-REG-10: enabling ERR_IE while ERR = 1 raises IRQ at once; reserved bits read 0. -/
theorem test_wrIrqEn :
    (reached (exec (.wrIrqEn 2#32) { State.reset with err := true })).map irq = some true ∧
    (reached (exec (.wrIrqEn 0xFFFFFFFF#32) State.reset)).map irqEnWord = some 3#32 := by decide

/-- V-REG-11 and V-REG-12: SRC_LEN written while idle, and not while BUSY. -/
theorem test_wrSrcLen :
    (reached (exec (.wrSrcLen 1000#32) State.reset)).map (·.srcLen) = some 1000#32 ∧
    (reached (exec (.wrSrcLen 5#32) (encAt .eCheck 0#32 0#32 0#16 0#5))).map (·.srcLen) = some 1#32 := by decide

/-- Rule R137 for the other three descriptors. -/
theorem test_wr_descriptors :
    (reached (exec (.wrSrcAddr 0x1003#32) State.reset)).map (·.srcAddr) = some 0x1003#32 ∧
    (reached (exec (.wrDstAddr 0x2001#32) State.reset)).map (·.dstAddr) = some 0x2001#32 ∧
    (reached (exec (.wrDstCap 16#32) State.reset)).map (·.dstCap) = some 16#32 := by decide

/-- V-REG-13: the record of V-ENC-14's error. -/
theorem test_rd_error_record :
    (reached (exec .rdErrIndex { State.reset with errIndex := 1#32, errValue := 0x12D#32 })).map (·.busRdata) =
      some 1#32 ∧
    (reached (exec .rdErrValue { State.reset with errIndex := 1#32, errValue := 0x12D#32 })).map (·.busRdata) =
      some 0x12D#32 := by decide

/-- V-REG-14: ACC and HELD during V-ENC-1 after E_LOAD, zero-extended. -/
theorem test_rd_progress :
    (reached (exec .rdAcc (encAt .eEmit 4#32 4#32 0x95#16 9#5))).map (·.busRdata) = some 0x95#32 ∧
    (reached (exec .rdHeld (encAt .eEmit 4#32 4#32 0x95#16 9#5))).map (·.busRdata) = some 9#32 ∧
    (reached (exec .rdInPos (encAt .eEmit 4#32 5#32 0x95#16 9#5))).map (·.busRdata) = some 4#32 ∧
    (reached (exec .rdOutPos (encAt .eEmit 4#32 5#32 0x95#16 9#5))).map (·.busRdata) = some 5#32 := by decide

/-- V-REG-17: ACC is read-only. -/
theorem test_wrAcc_ignored :
    (reached (exec (.wrAcc 0xFFFF#32) State.reset)).map (·.acc) = some 0#16 := by decide

/-! ## Check primitives: rules R92 to R95 -/

/-- The table of wraps in spec/95_test_vectors.md. -/
theorem test_wraps :
    wraps 0xFFFFFFFC 4 = false ∧ wraps 0xFFFFFFFC 5 = true ∧ wraps 0xFFFFFFFF 0 = false ∧
    wraps 0xFFFFFFFF 1 = false ∧ wraps 0 4294967296 = false := by decide

/-- The table of overlaps in spec/95_test_vectors.md. -/
theorem test_overlaps :
    overlaps 0x1000 4 0x1004 6 = false ∧ overlaps 0x1000 4 0x1003 6 = true ∧ overlaps 0x1000 4 0x0FFA 6 = false ∧
    overlaps 0x1000 4 0x0FFB 6 = true ∧ overlaps 0x1000 0 0x1000 6 = false := by decide

/-- The length functions' table in spec/95_test_vectors.md. -/
theorem test_lengths :
    payload 0 = 0 ∧ payload 1 = 2 ∧ payload 8 = 9 ∧ payload 9 = 11 ∧ encOut 0 = 0 ∧ encOut 1 = 6 ∧ encOut 8 = 13 ∧
    decNeed 0 = 4 ∧ decNeed 1 = 6 ∧ decNeed 4294967295 = 4831838211 := by decide

/-- The three orders of failing checks V-ERR-1, V-ERR-2 and V-ERR-3 (rule R96). -/
theorem test_encode_check_order :
    encodeCheck { encReady with count := 1#32, dstCap := 5#32 } = some .capacity ∧
    encodeCheck { encReady with srcAddr := 0xFFFFFFFC#32, count := 2#32, dstCap := 5#32 } = some .invalidInput ∧
    encodeCheck { encReady with count := 1#32, dstAddr := 0x1003#32, dstCap := 5#32 } = some .capacity ∧
    encodeCheck { encReady with count := 1#32, dstAddr := 0x1003#32 } = some .invalidInput ∧
    encodeCheck { encReady with count := 1#32, dstAddr := 0x1004#32 } = none ∧
    encodeCheck { encReady with count := 1#32, dstAddr := 0xFFFFFFFB#32 } = some .invalidInput ∧
    encodeCheck { encReady with count := 1#32, dstAddr := 0xFFFFFFFA#32 } = none := by decide

/-- V-ERR-5, V-ERR-6 and V-ERR-7, V-DEC-17 and V-DEC-24 (rule R97). -/
theorem test_decode_check_order :
    decodeCheck0 { decReady with srcAddr := 0xFFFFFFFE#32, srcLen := 3#32 } = some .invalidInput ∧
    decodeCheck0 { decReady with srcLen := 3#32 } = some .truncatedBuffer ∧
    decodeCheck { decReady with count := 2#32, dstCap := 0#32 } = some .truncatedBuffer ∧
    decodeCheck { decReady with count := 1#32, dstCap := 3#32, dstAddr := 0x1005#32 } = some .capacity ∧
    decodeCheck { decReady with count := 1#32, dstAddr := 0x1005#32 } = some .invalidInput ∧
    decodeCheck { decReady with count := 1#32, dstAddr := 0x1006#32 } = none ∧
    decodeCheck { decReady with count := 1#32, dstAddr := 0xFFFFFFFE#32 } = some .invalidInput := by decide

/-! ## The bit buffer: rules R99 to R103 -/

/-- ACC and HELD of a state. -/
def buffer (s : State) : BitVec 16 × BitVec 5 := (s.acc, s.held)

/-- A state with only its bit buffer set. -/
def holding (acc : BitVec 16) (held : BitVec 5) : State := { State.reset with acc := acc, held := held }

/-- V-BB-1 and V-BB-4. -/
theorem test_push9 :
    buffer (push9 149#9 (holding 0#16 0#5)) = (0x0095#16, 9#5) ∧
    buffer (push9 511#9 (holding 0x007F#16 7#5)) = (0xFFFF#16, 16#5) := by decide

/-- V-BB-2 and V-BB-4a. -/
theorem test_emit8 :
    (emit8 (holding 0x0095#16 9#5)).1 = 0x4A#8 ∧ buffer (emit8 (holding 0x0095#16 9#5)).2 = (0x0001#16, 1#5) ∧
    (emit8 (holding 0xFFFF#16 16#5)).1 = 0xFF#8 ∧
    buffer (emit8 (holding 0xFFFF#16 16#5)).2 = (0x00FF#16, 8#5) := by decide

/-- V-BB-3 and V-BB-6. -/
theorem test_padFlush :
    (padFlush (holding 0x0001#16 1#5)).1 = 0x80#8 ∧ buffer (padFlush (holding 0x0001#16 1#5)).2 = (0#16, 0#5) ∧
    (padFlush (holding 0x0005#16 3#5)).1 = 0xA0#8 ∧ (padFlush (holding 0x007F#16 7#5)).1 = 0xFE#8 := by decide

/-- V-BB-7. -/
theorem test_fill8 :
    buffer (fill8 0x4A#8 (holding 0#16 0#5)) = (0x004A#16, 8#5) ∧
    buffer (fill8 0x80#8 (holding 0x004A#16 8#5)) = (0x4A80#16, 16#5) := by decide

/-- V-BB-7 and V-BB-7a. -/
theorem test_pull9 :
    (pull9 (holding 0x4A80#16 16#5)).1 = 149#9 ∧ buffer (pull9 (holding 0x4A80#16 16#5)).2 = (0#16, 7#5) ∧
    (pull9 (holding 0xFF01#16 16#5)).1 = 510#9 ∧
    buffer (pull9 (holding 0xFF01#16 16#5)).2 = (0x0001#16, 7#5) := by decide

/-! ## Micro-steps: rules R110 to R127, with the traces V-ENC-1 and V-DEC-6 -/

/-- E_CHECK passes V-ENC-1, and V-ENC-16 fails with CAPACITY. -/
theorem test_eCheck :
    (reached (step (encAt .eCheck 0#32 0#32 0#16 0#5))).map (·.phase) = some .eValidate ∧
    (reached (step { encAt .eCheck 0#32 0#32 0#16 0#5 with dstCap := 5#32 })).map statusWord =
      some 0x00000514#32 := by decide

/-- E_VALIDATE passes 150 and goes on to E_HEADER with IN_POS = 0. -/
theorem test_eValidate :
    (reached (step (encAt .eValidate 0#32 0#32 0#16 0#5))).map (fun t => (t.phase, t.inPos)) =
      some (.eHeader, 0#32) := by decide

/-- V-ENC-12: E_VALIDATE of 301. -/
theorem test_eValidate_301 :
    (reached (step (withBytes [0x00#8, 0x00#8, 0x01#8, 0x2D#8] (encAt .eValidate 0#32 0#32 0#16 0#5)))).map
        (fun t => (statusWord t, t.errIndex, t.errValue)) = some (0x00000214#32, 0#32, 0x12D#32) := by decide

/-- E_HEADER writes the last byte 01 and goes on to E_LOAD. -/
theorem test_eHeader :
    (reached (step (encAt .eHeader 0#32 3#32 0#16 0#5))).map
      (fun t => (memGet? t.mem 0x2003, t.outPos, t.phase)) = some (some 0x01#8, 4#32, .eLoad) := by decide

/-- Rule R114's example. -/
theorem test_eLoad :
    (reached (step (encAt .eLoad 0#32 4#32 0#16 0#5))).map (fun t => (buffer t, t.inPos, t.phase)) =
      some ((0x0095#16, 9#5), 4#32, .eEmit) := by decide

/-- Rule R115's example. -/
theorem test_eEmit :
    (reached (step (encAt .eEmit 4#32 4#32 0x95#16 9#5))).map
      (fun t => (memGet? t.mem 0x2004, buffer t, t.phase)) = some (some 0x4A#8, (0x0001#16, 1#5), .eFlush) := by
  decide

/-- Rule R116's example, and the end of V-ENC-1: STATUS = 0x00000012, OUT_LEN = 6. -/
theorem test_eFlush :
    (reached (step (encAt .eFlush 4#32 5#32 1#16 1#5))).map
      (fun t => (memGet? t.mem 0x2005, t.outLen, statusWord t)) = some (some 0x80#8, 6#32, 0x00000012#32) := by
  decide

/-- D_CHECK0: rule R121's example, and L = 3 fails. -/
theorem test_dCheck0 :
    (reached (step (decAt .dCheck0 0#32 0#32 0#32 0#16 0#5))).map (·.phase) = some .dHeader ∧
    (reached (step { decAt .dCheck0 0#32 0#32 0#32 0#16 0#5 with srcLen := 3#32 })).map statusWord =
      some 0x00000324#32 := by decide

/-- D_HEADER reads the last header byte: COUNT = 1. -/
theorem test_dHeader :
    (reached (step (decAt .dHeader 0#32 3#32 0#32 0#16 0#5))).map (fun t => (t.count, t.inPos, t.phase)) =
      some (1#32, 4#32, .dCheck) := by decide

/-- D_CHECK passes n = 1 with L = 6, and V-DEC-12's header of all ones fails. -/
theorem test_dCheck :
    (reached (step (decAt .dCheck 1#32 4#32 0#32 0#16 0#5))).map (·.phase) = some .dFill ∧
    (reached (step (decAt .dCheck 0xFFFFFFFF#32 4#32 0#32 0#16 0#5))).map statusWord = some 0x00000324#32 := by
  decide

/-- Rule R126's example: (0, 0) and 0x4A. -/
theorem test_dFill :
    (reached (step (decAt .dFill 1#32 4#32 0#32 0#16 0#5))).map (fun t => (buffer t, t.inPos, t.phase)) =
      some ((0x004A#16, 8#5), 5#32, .dFill) := by decide

/-- Rule R127's example, and the end of V-DEC-6. -/
theorem test_dExtract :
    (reached (step (decAt .dExtract 1#32 6#32 0#32 0x4A80#16 16#5))).map
      (fun t => (memWord t.mem 0x2000, t.outLen, statusWord t)) = some (150#32, 4#32, 0x00000022#32) := by decide

/-- V-L1-9: the group 511 decodes to 512, unchecked (rule R128). -/
theorem test_dExtract_512 :
    (reached (step (decAt .dExtract 1#32 6#32 0#32 0xFF80#16 16#5))).map (fun t => memWord t.mem 0x2000) =
      some 512#32 := by decide

/-- Rule R49: an access the block cannot complete is stuck. -/
theorem test_stuck :
    faulted (step (deaf (encAt .eValidate 0#32 0#32 0#16 0#5))) = some .stuckAccess := by decide

/-- V-ERR-9: ENCODE [0] with ERR_IE = 1 raises IRQ. -/
theorem test_raise_irq :
    (reached (step (withBytes [0x00#8, 0x00#8, 0x00#8, 0x00#8]
      { encAt .eValidate 0#32 0#32 0#16 0#5 with errIe := true }))).map irq = some true := by decide

/-! ## Reset and the other agents -/

/-- V-RST-2: a reset in E_VALIDATE leaves memory unchanged and STATUS = 0. -/
theorem test_reset_before_writes :
    (reached (step (pushEvent .reset (encAt .eValidate 0#32 0#32 0#16 0#5)))).map
      (fun t => (statusWord t, t.srcAddr, t.mem)) = some (0#32, 0#32, encReady.mem) := by decide

/-- V-RST-3: a reset in E_HEADER draws one byte for each of 0x2000 to 0x2005. -/
theorem test_reset_after_writes :
    (reached (step (pushEvent .reset (encAt .eHeader 0#32 1#32 0#16 0#5)))).map
      (fun t => (statusWord t, t.draws, memGet? t.mem 0x1003, memGet? t.mem 0x2006)) =
        some (0#32, 6, some 0x96#8, none) := by decide

/-- Rules R48, R58: a host write and read of memory outside a transaction. -/
theorem test_host_memory :
    (reached (step (pushEvent (.hostWrite 0x3000 0x5A#8) State.reset))).map (·.mem) = some [(0x3000, 0x5A#8)] ∧
    (reached (step (pushEvent (.hostRead 0x1003) encReady))).map (·.busRdata) = some 0x96#32 ∧
    faulted (step (pushEvent (.hostRead 4294967296) encReady)) = some .noSuchAddress := by decide

/-- Rule R67: the bytes V-ENC-1 stores at 0x2004 and 0x2005, seen from E_LOAD, and none past them. -/
theorem test_stores_ahead :
    storesAhead 3 0x2004 (encAt .eLoad 0#32 4#32 0#16 0#5) = [0x4A#8] ∧
    storesAhead 3 0x2005 (encAt .eLoad 0#32 4#32 0#16 0#5) = [0x80#8] ∧
    storesAhead 3 0x2006 (encAt .eLoad 0#32 4#32 0#16 0#5) = [] := by decide

/-- Rules R58 and R67: seen from D_CHECK of V-DEC-6 with room for two words, another agent may read 0x96 at the last
byte of the one word, and no byte but memory's in the room left or in the source. -/
theorem test_raced_values :
    racedValues 0x2003 { decAt .dCheck 1#32 4#32 0#32 0#16 0#5 with dstCap := 8#32 } = [0x96#8] ∧
    racedValues 0x2004 { decAt .dCheck 1#32 4#32 0#32 0#16 0#5 with dstCap := 8#32 } = [] ∧
    racedValues 0x1004 { decAt .dCheck 1#32 4#32 0#32 0#16 0#5 with dstCap := 8#32 } = [] := by decide

/-- Rules R58 and R67: a read of a source byte during a transaction, and of a destination byte the block has written,
which keeps the value it had. -/
theorem test_host_read_busy :
    (reached (step (pushEvent (.hostRead 0x1003) (encAt .eFlush 4#32 5#32 1#16 1#5)))).map (·.busRdata) =
      some 0x96#32 ∧
    (reached (step (pushEvent (.hostRead 0x2005) (encAt .eFlush 4#32 5#32 1#16 1#5)))).map
      (fun t => (t.draws, t.inbox, t.phase)) = some (1, [], .eFlush) ∧
    (reached (step { encAt .eHeader 0#32 0#32 0#16 0#5 with mem := [(0x2000, 7#8)] })).map (fun t => seenAt t 0x2000) =
      some [0#8, 7#8] := by decide

/-- Rule R10: a turn of the busy block with another event to come after it. -/
theorem test_block_event :
    (reached (step { encAt .eEmit 4#32 4#32 0x95#16 9#5 with inbox := [.block, .hostRead 0x3000] })).map
      (fun t => (memGet? t.mem 0x2004, t.phase, t.inbox)) =
        some (some 0x4A#8, .eFlush, [.hostRead 0x3000]) := by decide

/-- The accesses of program P1's ENC line, a POLL that goes on and one that ends, and rule R52's layout of a word. -/
theorem test_notation :
    (expandPseudo (.enc 0x1000#32 1#32 0x2000#32 16#32)).map (fun l => decodeAccess 0 (lineAccess 0 l)) =
      [Instr.wrSrcAddr 0x1000#32, .wrSrcLen 1#32, .wrDstAddr 0x2000#32, .wrDstCap 16#32, .encode].map Decoded.ok ∧
    (expandPseudo .wait).map (lineOver 0x00001011#32) = [false] ∧
    (expandPseudo .wait).map (lineOver 0x00000012#32) = [true] ∧
    placeWords 0x1000 [150#32] [] = encReady.mem := by decide

/-! ## Witnesses: states that meet the hypotheses of the statements, each clause at its boundary -/

/-- ResetLeavesRegistersZero, ResetAtAnyTime: a reset next, idle and in both kinds of phase. -/
theorem test_witness_reset :
    Instr.rdId.direction = .read ∧
    ((pushEvent .reset State.reset).inbox = [.reset] ∧ (pushEvent .reset State.reset).busy = false) ∧
    ((pushEvent .reset (encAt .eCheck 0#32 0#32 0#16 0#5)).inbox = [.reset] ∧
      (pushEvent .reset (encAt .eCheck 0#32 0#32 0#16 0#5)).phase = .eCheck) ∧
    (0x1FFF < (encAt .eHeader 0#32 1#32 0#16 0#5).dstAddr.toNat ∧
      (encAt .eHeader 0#32 1#32 0#16 0#5).dstAddr.toNat + outputLength (encAt .eHeader 0#32 1#32 0#16 0#5) ≤
        0x2006) := by
  decide

/-- TableWordRoundTrip, AccessHasOneMeaning: the first and the last value written, and the edge of a reserved word. -/
theorem test_witness_encoding :
    (Instr.wrCmd 0#32).wellFormed = true ∧ (Instr.wrCmd 3#32).wellFormed = true ∧
    (Instr.wrOutPos 0xFFFFFFFF#32).wellFormed = true ∧
    decodeTableWord 40 (Instr.wrOutPos 0xFFFFFFFF#32).tableWord = some (.wrOutPos 0xFFFFFFFF#32) ∧
    decodeAccess 0x40 (encodeAccess 0x40 .rdOutPos) = .ok .rdOutPos := by decide

/-- OnlyAlignedWordsAdmitted: the last word of the window, a half word, and a misaligned word. -/
theorem test_witness_admitted :
    State.reset.plat.base ≤ 0x3C ∧ 0x3C < State.reset.plat.base + 0x40 ∧ (0x3C - State.reset.plat.base) % 4 = 0 ∧
    (pushEvent (.bus { addr := 0x3C, bytes := 4, dir := .read }) State.reset).inbox =
      [.bus { addr := 0x3C, bytes := 4, dir := .read }] ∧
    ¬ ((2 : Nat) = 4 ∧ (0x3C - State.reset.plat.base) % 4 = 0) ∧ 0x3E < State.reset.plat.base + 0x40 ∧
    ¬ ((4 : Nat) = 4 ∧ (0x3E - State.reset.plat.base) % 4 = 0) := by decide

/-- StepRunsDecodedAccess. -/
theorem test_witness_step_decoded :
    (pushEvent (.bus { addr := 0x08, bytes := 4, dir := .read }) State.reset).inbox =
      [.bus { addr := 0x08, bytes := 4, dir := .read }] ∧
    decodeAccess State.reset.plat.base { addr := 0x08, bytes := 4, dir := .read } = .ok .rdStatus ∧
    decodeTableWord 32 1 = some .encode ∧ decodeTableWord 8 0x3C = some .rdOutPos := by decide

/-- IdleBlockTakesNoStep, CommandAcceptance, CmdRegisterAccess, DescriptorRegisterAccess: idle and busy. -/
theorem test_witness_idle_and_busy :
    (State.reset.busy = false ∧ State.reset.inbox = []) ∧ (pushEvent .block State.reset).inbox = [.block] ∧
    (encAt .eCheck 0#32 0#32 0#16 0#5).busy = true ∧
    ¬ (State.reset.busy = false ∧ ((3#32 : Word) = 1#32 ∨ (3#32 : Word) = 2#32)) ∧
    ¬ ((encAt .eCheck 0#32 0#32 0#16 0#5).busy = false ∧ ((1#32 : Word) = 1#32 ∨ (1#32 : Word) = 2#32)) := by decide

/-- CommandRejection: one reserved word of each kind. -/
theorem test_witness_reserved :
    BitVec.extractLsb' 4 28 (0x10#32 : Word) ≠ 0#28 ∧ (0#32 : Word) = 0#32 ∧ 3 ≤ (3#32 : Word).toNat := by decide

/-- InterruptIsLevel: one bit and one enable cleared at a time, and instructions that complete. -/
theorem test_witness_irq :
    ((State.reset.err = false ∧ BitVec.getLsbD (2#32 : Word) 1 = true) ∧
      (reached (exec (.wrStatus 2#32) { State.reset with done := true, doneIe := true })).map irq = some false) ∧
    (State.reset.done = false ∧ BitVec.getLsbD (4#32 : Word) 2 = true) ∧
    (BitVec.getLsbD (2#32 : Word) 0 = false ∧
      (reached (exec (.wrIrqEn 2#32) { State.reset with done := true, doneIe := true })).map irq = some false) ∧
    (BitVec.getLsbD (1#32 : Word) 1 = false ∧
      (reached (exec (.wrIrqEn 1#32) { State.reset with err := true, errIe := true })).map irq = some false) ∧
    (reached (exec .encode State.reset)).isSome = true := by decide

/-- BlockTurnAt, the premise of the micro-steps' statements: the block alone, and with an event to come after it. -/
theorem test_witness_block_turn :
    BlockTurnAt (encAt .eLoad 0#32 4#32 0#16 0#5) (encAt .eLoad 0#32 4#32 0#16 0#5) ∧
    BlockTurnAt (pushEvent .block (pushEvent .reset (encAt .eLoad 0#32 4#32 0#16 0#5)))
      (pushEvent .reset (encAt .eLoad 0#32 4#32 0#16 0#5)) :=
  ⟨.inl ⟨rfl, rfl⟩, .inr ⟨_, rfl, rfl⟩⟩

/-- The micro-steps' premise of no race at the bytes they access, in a state with a race elsewhere. -/
theorem test_witness_race_elsewhere :
    staleAt { encAt .eHeader 0#32 3#32 0#16 0#5 with stale := [(0x3000, 1#8)] } 0x2003 = [] ∧
    staleAt { encAt .eLoad 0#32 4#32 0x7F#16 7#5 with stale := [(0x2000, 1#8)] } 0x1003 = [] ∧
    staleAt { decAt .dExtract 1#32 6#32 0#32 0xFFFF#16 16#5 with stale := [(0x2004, 1#8)] } 0x2003 = [] := by decide

/-- TransactionEndsByFinishOrRaise: one step that finishes and one that raises. -/
theorem test_witness_ends :
    ((encAt .eFlush 4#32 5#32 1#16 1#5).busy = true ∧ (encAt .eFlush 4#32 5#32 1#16 1#5).inbox = [] ∧
      (reached (step (encAt .eFlush 4#32 5#32 1#16 1#5))).map (·.busy) = some false) ∧
    (reached (step { encAt .eCheck 0#32 0#32 0#16 0#5 with dstCap := 5#32 })).map (·.busy) = some false := by decide

/-- The hypotheses of the ENCODE micro-steps' statements, at the edges of HELD. -/
theorem test_witness_encode_steps :
    ((encAt .eCheck 0#32 0#32 0#16 0#5).inbox = [] ∧ (encAt .eCheck 0#32 0#32 0#16 0#5).phase = .eCheck) ∧
    (ramWord (encAt .eValidate 0#32 0#32 0#16 0#5) 0x1000 = true ∧
      (encAt .eValidate 0#32 0#32 0#16 0#5).stale = []) ∧
    ((encAt .eHeader 0#32 3#32 0#16 0#5).outPos.toNat < 4 ∧
      ramAt (encAt .eHeader 0#32 3#32 0#16 0#5) 0x2003 = true) ∧
    ((encAt .eLoad 0#32 4#32 0x7F#16 7#5).held.toNat ≤ 7 ∧
      (encAt .eLoad 0#32 4#32 0x7F#16 7#5).acc.toNat < 2 ^ (encAt .eLoad 0#32 4#32 0x7F#16 7#5).held.toNat) ∧
    (8 ≤ (encAt .eEmit 4#32 4#32 0xFFFF#16 16#5).held.toNat ∧
      (encAt .eEmit 4#32 4#32 0xFFFF#16 16#5).held.toNat ≤ 16 ∧
      (encAt .eEmit 4#32 4#32 0xFFFF#16 16#5).acc.toNat <
        2 ^ (encAt .eEmit 4#32 4#32 0xFFFF#16 16#5).held.toNat) ∧
    (8 ≤ (encAt .eEmit 4#32 4#32 0xFF#16 8#5).held.toNat) ∧
    (1 ≤ (encAt .eFlush 4#32 5#32 0x7F#16 7#5).held.toNat ∧
      (encAt .eFlush 4#32 5#32 0x7F#16 7#5).held.toNat ≤ 7 ∧
      (encAt .eFlush 4#32 5#32 0x7F#16 7#5).acc.toNat < 2 ^ (encAt .eFlush 4#32 5#32 0x7F#16 7#5).held.toNat) := by
  decide

/-- The hypotheses of the DECODE micro-steps' statements, at the edges of HELD. -/
theorem test_witness_decode_steps :
    ((decAt .dCheck0 0#32 0#32 0#32 0#16 0#5).phase = .dCheck0 ∧
      (decAt .dCheck0 0#32 0#32 0#32 0#16 0#5).inbox = []) ∧
    ((decAt .dHeader 0#32 3#32 0#32 0#16 0#5).stale = [] ∧
      ramAt (decAt .dHeader 0#32 3#32 0#32 0#16 0#5) 0x1003 = true) ∧
    ((decAt .dFill 1#32 4#32 0#32 0xFF#16 8#5).inPos ≠ (decAt .dFill 1#32 4#32 0#32 0xFF#16 8#5).srcLen ∧
      (decAt .dFill 1#32 4#32 0#32 0xFF#16 8#5).held.toNat ≤ 8 ∧
      (decAt .dFill 1#32 4#32 0#32 0xFF#16 8#5).acc.toNat <
        2 ^ (decAt .dFill 1#32 4#32 0#32 0xFF#16 8#5).held.toNat) ∧
    (decAt .dFill 1#32 6#32 0#32 0#16 0#5).inPos = (decAt .dFill 1#32 6#32 0#32 0#16 0#5).srcLen ∧
    (9 ≤ (decAt .dExtract 1#32 6#32 0#32 0x1FF#16 9#5).held.toNat ∧
      (decAt .dExtract 1#32 6#32 0#32 0xFFFF#16 16#5).held.toNat ≤ 16 ∧
      (decAt .dExtract 1#32 6#32 0#32 0xFFFF#16 16#5).acc.toNat <
        2 ^ (decAt .dExtract 1#32 6#32 0#32 0xFFFF#16 16#5).held.toNat ∧
      ramWord (decAt .dExtract 1#32 6#32 0#32 0xFFFF#16 16#5) 0x2000 = true) := by decide

/-- UnreachableAccessIsStuck: a platform that reaches nothing, in each phase that accesses memory. -/
theorem test_witness_stuck :
    ramWord (deaf (encAt .eLoad 0#32 4#32 0#16 0#5)) 0x1000 = false ∧
    ramAt (deaf (encAt .eHeader 0#32 3#32 0#16 0#5)) 0x2003 = false ∧
    ramAt (deaf (encAt .eEmit 4#32 4#32 0xFF#16 8#5)) 0x2004 = false ∧
    ramAt (deaf (encAt .eFlush 4#32 5#32 0x7F#16 7#5)) 0x2005 = false ∧
    ramAt (deaf (decAt .dHeader 0#32 3#32 0#32 0#16 0#5)) 0x1003 = false ∧
    ramAt (deaf (decAt .dFill 1#32 4#32 0#32 0#16 0#5)) 0x1004 = false ∧
    ramWord (deaf (decAt .dExtract 1#32 6#32 0#32 0x1FF#16 9#5)) 0x2000 = false := by decide

/-- BitBufferActsOnHeldString: each operation's edges. -/
theorem test_witness_bit_buffer :
    (holding 0x7F#16 7#5).acc.toNat < 2 ^ (holding 0x7F#16 7#5).held.toNat ∧
    (holding 0xFF#16 8#5).acc.toNat < 2 ^ (holding 0xFF#16 8#5).held.toNat ∧
    (holding 0xFFFF#16 16#5).acc.toNat < 2 ^ (holding 0xFFFF#16 16#5).held.toNat ∧
    (holding 1#16 1#5).acc.toNat < 2 ^ (holding 1#16 1#5).held.toNat ∧
    heldBits (holding 0x5#16 3#5) = [true, false, true] := by decide

/-- EveryStepKeepsInvariant, PreconditionsAlwaysHold, StoresStayInDestination: the invariant in each phase of both
traces, and steps that complete from there. -/
theorem test_witness_invariant_encode :
    encReady.inv = true ∧ (encAt .eCheck 0#32 0#32 0#16 0#5).inv = true ∧
    (encAt .eValidate 0#32 0#32 0#16 0#5).inv = true ∧ (encAt .eHeader 0#32 3#32 0#16 0#5).inv = true ∧
    (encAt .eLoad 0#32 4#32 0#16 0#5).inv = true ∧ (encAt .eEmit 4#32 4#32 0x95#16 9#5).inv = true ∧
    (encAt .eFlush 4#32 5#32 1#16 1#5).inv = true ∧
    (reached (step (encAt .eEmit 4#32 4#32 0x95#16 9#5))).isSome = true := by decide

/-- The same for DECODE. -/
theorem test_witness_invariant_decode :
    decReady.inv = true ∧ (decAt .dCheck0 0#32 0#32 0#32 0#16 0#5).inv = true ∧
    (decAt .dHeader 0#32 3#32 0#32 0#16 0#5).inv = true ∧ (decAt .dCheck 1#32 4#32 0#32 0#16 0#5).inv = true ∧
    (decAt .dFill 1#32 5#32 0#32 0x4A#16 8#5).inv = true ∧
    (decAt .dExtract 1#32 6#32 0#32 0x4A80#16 16#5).inv = true ∧
    (reached (step (decAt .dFill 1#32 5#32 0#32 0x4A#16 8#5))).isSome = true := by decide

/-- InvariantAtReset: a memory in its form, a memory out of it, and a platform. -/
theorem test_witness_memory_form :
    Memory.wf encReady.mem = true ∧ Memory.wf [(1, 0#8), (1, 0#8)] = false ∧ Memory.wf [(2, 0#8), (1, 0#8)] = false ∧
    Memory.wf [(4294967296, 0#8)] = false ∧ Platform.wellFormed State.reset.plat = true := by decide

/-- FailureWritesNoMemory: a step from an invariant state that raises. -/
theorem test_witness_failure :
    State.inv { encAt .eCheck 0#32 0#32 0#16 0#5 with dstCap := 5#32 } = true ∧
    (reached (step { encAt .eCheck 0#32 0#32 0#16 0#5 with dstCap := 5#32 })).map (·.err) = some true := by decide

/-- MicroStepFootprint: a busy state whose step answers, with the byte before and the byte after the one stored. -/
theorem test_witness_footprint :
    (encAt .eHeader 0#32 0#32 0#16 0#5).busy = true ∧ (encAt .eHeader 0#32 0#32 0#16 0#5).inbox = [] ∧
    (reached (step (encAt .eHeader 0#32 0#32 0#16 0#5))).isSome = true ∧ 0x1FFF < 0x2000 + 0 ∧ 0x2000 + 0 + 1 ≤ 0x2001 ∧
    (reached (step (decAt .dExtract 1#32 6#32 0#32 0x4A80#16 16#5))).isSome = true := by decide

/-- InstructionFrame: instructions of each kind that complete. -/
theorem test_witness_frame :
    (reached (exec .rdStatus encReady)).isSome = true ∧ (reached (exec (.wrCount 5#32) encReady)).isSome = true ∧
    (reached (exec (.wrSrcAddr 5#32) encReady)).isSome = true ∧ (reached (exec .encode encReady)).isSome = true ∧
    Instr.rdStatus.direction = .read ∧ (Instr.wrCount 5#32).direction ≠ .read ∧
    (Instr.wrCount 5#32).offset ≠ 0x04 := by decide

/-- BusyChangesOnlyAsStated, DoneAndErrChangeOnlyAsStated, CmdRejAndOpChangeOnlyAsStated: steps that make each bit rise
and fall. -/
theorem test_witness_rises_and_falls :
    (reached (step (encReady.withFetchWord 32 1))).map (fun t => (encReady.busy, t.busy, t.op)) =
      some (false, true, some .encode) ∧
    (reached (step (encAt .eFlush 4#32 5#32 1#16 1#5))).map (fun t => (t.busy, t.done)) = some (false, true) ∧
    (reached (step (State.withFetchWord { State.reset with done := true, err := true, cmdRej := true } 40
      0x0000000E48))).map (fun t => (t.done, t.err, t.cmdRej)) = some (false, false, false) ∧
    (reached (step (State.reset.withFetchWord 32 3))).map (·.cmdRej) = some true := by decide

/-- DescriptorsFixedWhileBusy: a busy state with a descriptor write next. -/
theorem test_witness_descriptors :
    (encAt .eLoad 0#32 4#32 0#16 0#5).busy = true ∧
    (reached (step ((encAt .eLoad 0#32 4#32 0#16 0#5).withFetchWord 40 0x0000000950))).map (·.srcAddr) =
      some 0x1000#32 := by decide

/-- EncodeTransactionResult, RoundTripIdentity: one element, in range, and a destination for the decoded word right
behind the buffer. -/
theorem test_witness_encode_usable :
    EncodeUsable encReady ∧ 1 ≤ (sourceElement encReady 0).toNat ∧ (sourceElement encReady 0).toNat ≤ 300 ∧
    4 * encReady.srcLen.toNat ≤ (4#32 : Word).toNat ∧
    encReady.dstAddr.toNat + (4 + payload encReady.srcLen.toNat) ≤ (0x2006#32 : Word).toNat ∧
    Reaches encReady (0x2006#32 : Word).toNat (4 * encReady.srcLen.toNat) := by
  unfold EncodeUsable RangesUsable Reaches
  decide

/-- DecodeTransactionResult: the bytes of V-DEC-6 hold the one group 149. -/
theorem test_witness_decode_usable :
    DecodeUsable decReady 1 ∧ HoldsGroups decReady.mem decReady.srcAddr.toNat 1 (fun _ => 149#9) := by
  unfold DecodeUsable RangesUsable Reaches HoldsGroups
  decide

/-- EncodeReportsFirstBadElement: the elements 150 and 301, the second one bad. -/
theorem test_witness_bad_element :
    RangesUsable (withBytes [0x00#8, 0x00#8, 0x00#8, 0x96#8, 0x00#8, 0x00#8, 0x01#8, 0x2D#8]
      { encReady with srcLen := 2#32, dstCap := 7#32 }) (4 * 2) (4 + payload 2) ∧ 4 + payload 2 ≤ (7#32 : Word).toNat ∧
    Reaches encReady 0x1000 (4 * (1 + 1)) ∧
    sourceElement (withBytes [0x00#8, 0x00#8, 0x00#8, 0x96#8, 0x00#8, 0x00#8, 0x01#8, 0x2D#8] encReady) 1 = 301#32 ∧
    sourceElement (withBytes [0x00#8, 0x00#8, 0x00#8, 0x00#8] encReady) 0 = 0#32 := by
  unfold RangesUsable Reaches
  decide

/-- DecodeOfZeroCount: a header of 0 and nothing after it. -/
theorem test_witness_zero_count :
    4 ≤ ({ decReady with srcLen := 4#32 } : State).srcLen.toNat ∧ ramWord decReady 0x1000 = true ∧
    memWord (withBytes [0x00#8, 0x00#8, 0x00#8, 0x00#8] decReady).mem 0x1000 = 0#32 := by decide

/-- DecodeDetectsTruncation: V-DEC-9, one byte short. -/
theorem test_witness_truncation :
    ({ decReady with srcLen := 5#32 } : State).busy = false ∧ 4 ≤ (5#32 : Word).toNat ∧
    ramWord decReady 0x1000 = true ∧ (5#32 : Word).toNat < 4 + (9 * (memWord decReady.mem 0x1000).toNat + 7) / 8 := by
  decide

/-- EmptyTransactions, EveryTransactionEnds: straight after reset (V-RST-5). -/
theorem test_witness_empty :
    State.reset.busy = false ∧ State.reset.inbox = [] ∧ State.reset.srcLen = 0#32 ∧
    (reached (transaction .encode 1 State.reset)).map statusWord = some 0x00000012#32 ∧
    (reached (transaction .decode 1 State.reset)).map statusWord = some 0x00000022#32 := by decide

/-- HostWriteDuringTransactionRaces: a source byte, and a destination byte the block has written. -/
theorem test_witness_race :
    (pushEvent (.hostWrite 0x1003 1#8) (encAt .eLoad 0#32 4#32 0#16 0#5)).busy = true ∧
    (pushEvent (.hostWrite 0x1003 1#8) (encAt .eLoad 0#32 4#32 0#16 0#5)).inbox = [.hostWrite 0x1003 1#8] ∧
    blockHasWritten 0x2000 (encAt .eLoad 0#32 4#32 0#16 0#5) = true ∧
    blockHasWritten 0x2004 (encAt .eLoad 0#32 4#32 0#16 0#5) = false := by decide

/-- RacedReadIsSomeValue: an element byte and a payload byte with a former value each. -/
theorem test_witness_raced_read :
    staleAt { encAt .eLoad 0#32 4#32 0x7F#16 7#5 with stale := [(0x1003, 1#8)] } 0x1003 = [1#8] ∧
    ramWord { encAt .eLoad 0#32 4#32 0x7F#16 7#5 with stale := [(0x1003, 1#8)] } 0x1000 = true ∧
    staleAt { decAt .dFill 1#32 4#32 0#32 0xFF#16 8#5 with stale := [(0x1004, 1#8)] } 0x1004 = [1#8] ∧
    (reached (step { encAt .eLoad 0#32 4#32 0#16 0#5 with stale := [(0x1003, 1#8)] })).map (·.draws) = some 1 := by
  decide

/-- RacedStoreIsEither: a byte to be stored that another agent has written, in a storing phase. -/
theorem test_witness_raced_store :
    staleAt { encAt .eHeader 0#32 3#32 0#16 0#5 with stale := [(0x2003, 1#8)] } 0x2003 = [1#8] ∧
    (encAt .eHeader 0#32 3#32 0#16 0#5).outPos.toNat < 4 ∧
    ramAt { encAt .eHeader 0#32 3#32 0#16 0#5 with stale := [(0x2003, 1#8)] } 0x2003 = true ∧
    (reached (step { encAt .eHeader 0#32 3#32 0#16 0#5 with stale := [(0x2003, 1#8)] })).map
      (fun t => (t.draws, t.outPos, t.phase)) = some (1, 4#32, .eLoad) := by decide

/-- HostReadDuringTransaction: a destination byte the block has not stored yet, and one it has. -/
theorem test_witness_host_read :
    (pushEvent (.hostRead 0x2004) (encAt .eLoad 0#32 4#32 0#16 0#5)).busy = true ∧
    (pushEvent (.hostRead 0x2004) (encAt .eLoad 0#32 4#32 0#16 0#5)).inbox = [.hostRead 0x2004] ∧
    seenAt { encAt .eLoad 0#32 4#32 0#16 0#5 with dstSeen := [(0x2000, 0#8), (0x2000, 7#8)] } 0x2000 = [0#8, 7#8] := by
  decide

/-- HostMemoryAccessOutsideRaces: idle, and during a transaction the bytes next to its destination and of its source. -/
theorem test_witness_host :
    (pushEvent (.hostRead 4294967295) State.reset).busy = false ∧ (4294967295 : Nat) < 4294967296 ∧
    (pushEvent (.hostRead 0x1FFF) (encAt .eLoad 0#32 4#32 0#16 0#5)).inv = true ∧
    0x1FFF < (encAt .eLoad 0#32 4#32 0#16 0#5).dstAddr.toNat ∧
    (encAt .eLoad 0#32 4#32 0#16 0#5).dstAddr.toNat + (encAt .eLoad 0#32 4#32 0#16 0#5).dstCap.toNat ≤ 0x2006 ∧
    ((encAt .eLoad 0#32 4#32 0#16 0#5).srcAddr.toNat ≤ 0x1003 ∧
      0x1003 < (encAt .eLoad 0#32 4#32 0#16 0#5).srcAddr.toNat + 4 * (encAt .eLoad 0#32 4#32 0#16 0#5).srcLen.toNat) := by
  decide

/-- HostReadsDoNotDisturbBlock, PlatformIsConstant: a step that answers and a step that faults. -/
theorem test_witness_undisturbed :
    (encAt .eEmit 4#32 4#32 0x95#16 9#5).inbox = [] ∧
    (reached (step (encAt .eEmit 4#32 4#32 0x95#16 9#5))).isSome = true ∧
    faulted (step (deaf (decAt .dFill 1#32 4#32 0#32 0#16 0#5))) = some .stuckAccess := by decide

end Sys2Proof.Tests
end

section
/-! SUPPORT. The platform's parameters are constant (rule R9): what each operation of a step does to `plat`, per
agent, and the obligation about a step of any of them. -/

namespace Sys2Proof.Machine

/-! ## The ends of the micro-steps -/

@[simp] theorem validateNext_plat (s : State) : (validateNext s).plat = s.plat := by
  unfold validateNext
  split <;> rfl

@[simp] theorem headerNext_plat (s : State) : (headerNext s).plat = s.plat := rfl

@[simp] theorem emitNext_plat (s : State) : (emitNext s).plat = s.plat := by
  unfold emitNext
  split_ifs <;> rfl

@[simp] theorem headerShift_plat (b : Byte) (s : State) : (headerShift b s).plat = s.plat := rfl

@[simp] theorem fillNext_plat (s : State) : (fillNext s).plat = s.plat := rfl

@[simp] theorem extractNext_plat (s : State) : (extractNext s).plat = s.plat := by
  unfold extractNext
  split <;> rfl

/-! ## The block -/

/-- By the phase, whose micro-step ends in one of the updates above. -/
theorem microStep_plat {s t : State} (h : microStep s = .next t) : t.plat = s.plat := by
  cases hp : s.phase <;> simp only [microStep, hp] at h
  case idle => cases h; rfl
  case eCheck =>
    obtain ⟨-, e⟩ | ⟨-, _, -, e⟩ | ⟨-, -, e⟩ := microECheck_cases s <;> cases e.symm.trans h <;> simp
  case eValidate =>
    obtain ⟨w, n, -, ⟨-, rfl⟩ | ⟨-, rfl⟩⟩ := microEValidate_cases h <;> simp
  case eHeader =>
    obtain ⟨-, -, v, n, l, rfl, -⟩ := microEHeader_cases h
    simp
  case eLoad =>
    obtain ⟨g, n, -, rfl⟩ := microELoad_cases h
    simp
  case eEmit =>
    obtain ⟨-, -, v, n, l, rfl, -⟩ := microEEmit_cases h
    simp
  case eFlush =>
    obtain ⟨-, -, -, v, n, rfl, -⟩ := microEFlush_cases h
    simp
  case dCheck0 =>
    obtain ⟨-, e⟩ | ⟨-, _, -, e⟩ | ⟨-, -, e⟩ := microDCheck0_cases s <;> cases e.symm.trans h <;> simp
  case dHeader =>
    obtain ⟨-, b, n, rfl⟩ := microDHeader_cases h
    simp
  case dCheck =>
    obtain ⟨_, -, e⟩ | ⟨-, -, e⟩ | ⟨-, -, e⟩ := microDCheck_cases s <;> cases e.symm.trans h <;> simp
  case dFill =>
    obtain ⟨-, rfl⟩ | ⟨-, -, b, n, rfl⟩ := microDFill_cases h <;> simp
  case dExtract =>
    obtain ⟨-, -, v0, v1, v2, v3, n, l, rfl, -⟩ := microDExtract_cases h
    simp

theorem blockTurn_plat {s t : State} (h : blockTurn s = .next t) : t.plat = s.plat := by
  obtain ⟨-, rfl⟩ | ⟨-, hm⟩ := blockTurn_cases h
  · rfl
  · exact microStep_plat hm

/-! ## The other agents -/

@[simp] theorem presentCommand_plat (w : Word) (s : State) : (presentCommand w s).plat = s.plat := by
  obtain ⟨-, -, e⟩ | ⟨-, -, e⟩ | ⟨-, e⟩ := presentCommand_cases w s <;> simp [e]

/-- A descriptor write keeps the platform, if its update of the idle state does. -/
theorem whenIdle_plat {f : State → State} (hf : ∀ u, (f u).plat = u.plat) (s : State) :
    (whenIdle f s).plat = s.plat := by
  obtain ⟨-, e⟩ | ⟨-, e⟩ := whenIdle_cases f s
  · rw [e]
  · rw [e, hf]

theorem exec_plat {i : Instr} {s t : State} (h : exec i s = .next t) : t.plat = s.plat := by
  obtain ⟨-, v, rfl⟩ | ⟨w, -, -, rfl⟩ | ⟨w, -, rfl⟩ | ⟨w, -, rfl⟩ | ⟨w, -, rfl⟩ | ⟨w, -, rfl⟩ | ⟨w, -, rfl⟩ |
    ⟨w, -, rfl⟩ | ⟨-, -, rfl⟩ := exec_cases h
  · rfl
  · exact presentCommand_plat w s
  · rfl
  · rfl
  · exact whenIdle_plat (fun _ => by rfl) s
  · exact whenIdle_plat (fun _ => by rfl) s
  · exact whenIdle_plat (fun _ => by rfl) s
  · exact whenIdle_plat (fun _ => by rfl) s
  · rfl

theorem hostReadByte_plat {a : Nat} {s t : State} (h : hostReadByte a s = .next t) : t.plat = s.plat := by
  obtain ⟨-, v, rfl⟩ := hostReadByte_cases h
  obtain ⟨n, e⟩ := afterRead_eq s
  rw [e]

theorem hostWriteByte_plat {a : Nat} {v : Byte} {s t : State} (h : hostWriteByte a v s = .next t) :
    t.plat = s.plat := by
  obtain ⟨-, b, n, rfl⟩ := hostWriteByte_cases h
  rfl

@[simp] theorem resetBlock_plat (s : State) : (resetBlock s).plat = s.plat := rfl

/-! ## A step of any agent -/

theorem step_plat {s t : State} (h : step s = .next t) : t.plat = s.plat := by
  obtain ⟨-, hb⟩ | ⟨e, rest, -, ⟨-, hb⟩ | ⟨a, i, -, -, hx⟩ | ⟨a, -, hr⟩ | ⟨a, v, -, hw⟩ | ⟨-, rfl⟩⟩ := step_cases h
  · exact blockTurn_plat hb
  · exact (blockTurn_plat hb).trans rfl
  · exact (exec_plat hx).trans rfl
  · exact (hostReadByte_plat hr).trans rfl
  · exact (hostWriteByte_plat hw).trans rfl
  · exact (resetBlock_plat _).trans rfl

/-- Settles O56: by the agent whose step it is, each of which copies the platform from the state before. -/
theorem platformIsConstant : Obligations.PlatformIsConstant := fun _ _ h => step_plat h

end Sys2Proof.Machine
end

section
/-! SUPPORT. What one step can do to the flags, OP and the descriptors, said once per agent (rules R22 to R26, R34),
and the obligations about them. -/

namespace Sys2Proof.Machine

/-! ## The block: what a micro-step leaves alone, and how it ends -/

/-- u is s but for what the engine works on: PHASE, COUNT, the bit buffer, the positions, memory with the stores
recorded, and the free values drawn. -/
def EngineOnly (s u : State) : Prop :=
  u = { s with
    phase := u.phase, count := u.count, acc := u.acc, held := u.held, inPos := u.inPos, outPos := u.outPos
    mem := u.mem, dstSeen := u.dstSeen, draws := u.draws }

theorem EngineOnly.flags {s u : State} (h : EngineOnly s u) :
    u.busy = s.busy ∧ u.done = s.done ∧ u.err = s.err ∧ u.cmdRej = s.cmdRej ∧ u.op = s.op := by
  rw [h]
  exact ⟨rfl, rfl, rfl, rfl, rfl⟩

/-- No descriptor differs from s to t. -/
def DescriptorsKept (s t : State) : Prop :=
  t.srcAddr = s.srcAddr ∧ t.srcLen = s.srcLen ∧ t.dstAddr = s.dstAddr ∧ t.dstCap = s.dstCap

theorem EngineOnly.descriptors {s u : State} (h : EngineOnly s u) : DescriptorsKept s u := by
  rw [h]
  exact ⟨rfl, rfl, rfl, rfl⟩

/-- A micro-step from s answers t: it goes on, or it works and then ends the transaction (rules R117, R149). -/
def GoesOnOrEnds (s t : State) : Prop :=
  ∃ u, EngineOnly s u ∧ (t = u ∨ t = finish u ∨ ∃ e i v, t = raise e i v u)

theorem EngineOnly.goesOn {s t : State} (h : EngineOnly s t) : GoesOnOrEnds s t := ⟨t, h, .inl rfl⟩

theorem EngineOnly.finishes {s u : State} (h : EngineOnly s u) : GoesOnOrEnds s (finish u) := ⟨u, h, .inr (.inl rfl)⟩

theorem EngineOnly.raises {s u : State} {e : ErrCode} {i v : Word} (h : EngineOnly s u) :
    GoesOnOrEnds s (raise e i v u) := ⟨u, h, .inr (.inr ⟨e, i, v, rfl⟩)⟩

/-- After E_VALIDATE: on to E_HEADER after the last element, else to the next (rule R112). -/
theorem validateNext_cases (s : State) :
    ((s.inPos + 4#32).toNat = 4 * s.count.toNat ∧ validateNext s = { s with inPos := 0#32, phase := .eHeader }) ∨
    ((s.inPos + 4#32).toNat ≠ 4 * s.count.toNat ∧ validateNext s = { s with inPos := s.inPos + 4#32 }) := by
  unfold validateNext
  split
  · exact .inl ⟨‹_›, rfl⟩
  · exact .inr ⟨‹_›, rfl⟩

/-- After E_EMIT: another byte, the next element, the rest of the buffer, or the end (rule R115). -/
theorem emitNext_cases (s : State) :
    (8 ≤ s.held.toNat ∧ emitNext s = { s with phase := .eEmit }) ∨
    (s.held.toNat < 8 ∧ s.inPos.toNat < 4 * s.count.toNat ∧ emitNext s = { s with phase := .eLoad }) ∨
    (0 < s.held.toNat ∧ s.held.toNat < 8 ∧ 4 * s.count.toNat ≤ s.inPos.toNat ∧
      emitNext s = { s with phase := .eFlush }) ∨
    (s.held.toNat = 0 ∧ emitNext s = finish s) := by
  unfold emitNext
  split_ifs with h8 hin h0
  · exact .inl ⟨h8, rfl⟩
  · exact .inr (.inl ⟨by omega, hin, rfl⟩)
  · exact .inr (.inr (.inl ⟨h0, by omega, by simpa using hin, rfl⟩))
  · exact .inr (.inr (.inr ⟨by omega, rfl⟩))

/-- After D_EXTRACT: the end after the last element, else back to D_FILL (rule R127). -/
theorem extractNext_cases (s : State) :
    ((s.outPos + 4#32).toNat = 4 * s.count.toNat ∧ extractNext s = finish { s with outPos := s.outPos + 4#32 }) ∨
    ((s.outPos + 4#32).toNat ≠ 4 * s.count.toNat ∧
      extractNext s = { s with outPos := s.outPos + 4#32, phase := .dFill }) := by
  unfold extractNext
  split
  · exact .inl ⟨‹_›, rfl⟩
  · exact .inr ⟨‹_›, rfl⟩

/-- After E_HEADER: on to E_LOAD after the fourth byte (rule R113). -/
theorem headerNext_cases (s : State) :
    ((s.outPos + 1#32).toNat = 4 ∧ headerNext s = { s with outPos := s.outPos + 1#32, phase := .eLoad }) ∨
    ((s.outPos + 1#32).toNat ≠ 4 ∧ headerNext s = { s with outPos := s.outPos + 1#32 }) := by
  by_cases h4 : s.outPos + 1#32 = 4#32
  · exact .inl ⟨by simp [h4], by simp [headerNext, h4]⟩
  · exact .inr ⟨fun e => h4 (BitVec.eq_of_toNat_eq e), by simp [headerNext, h4]⟩

/-- After a byte of DECODE's header: COUNT takes it, and D_CHECK follows the fourth (rule R123). -/
theorem headerShift_cases (b : Byte) (s : State) :
    (s.inPos + 1#32 = 4#32 ∧ headerShift b s = { s with
      count := BitVec.ofNat 32 (s.count.toNat * 256 + b.toNat), inPos := s.inPos + 1#32, phase := .dCheck }) ∨
    (s.inPos + 1#32 ≠ 4#32 ∧ headerShift b s = { s with
      count := BitVec.ofNat 32 (s.count.toNat * 256 + b.toNat), inPos := s.inPos + 1#32 }) := by
  have hc : (s.count.toNat <<< 8) ||| b.toNat = s.count.toNat * 256 + b.toNat := shift_or_eq_add _ _ 8 b.isLt
  by_cases h4 : s.inPos + 1#32 = 4#32
  · exact .inl ⟨h4, by simp [headerShift, h4, hc]⟩
  · exact .inr ⟨h4, by simp [headerShift, h4, hc]⟩

/-- After D_FILL: on to D_EXTRACT once a group is held (rule R126). -/
theorem fillNext_cases (s : State) :
    (9 ≤ s.held.toNat ∧ fillNext s = { s with inPos := s.inPos + 1#32, phase := .dExtract }) ∨
    (s.held.toNat < 9 ∧ fillNext s = { s with inPos := s.inPos + 1#32 }) := by
  by_cases h9 : 9 ≤ s.held.toNat
  · exact .inl ⟨h9, by simp [fillNext, h9]⟩
  · exact .inr ⟨by omega, by simp [fillNext, h9]⟩

/-- By the phase: every micro-step works on the engine's own fields, and may then finish or raise. -/
theorem microStep_goesOnOrEnds {s t : State} (h : microStep s = .next t) : GoesOnOrEnds s t := by
  cases hp : s.phase <;> simp only [microStep, hp] at h
  case idle =>
    cases h
    exact EngineOnly.goesOn rfl
  case eCheck =>
    obtain ⟨-, e⟩ | ⟨-, _, -, e⟩ | ⟨-, -, e⟩ := microECheck_cases s <;> cases e.symm.trans h
    · exact EngineOnly.finishes rfl
    · exact EngineOnly.raises rfl
    · exact EngineOnly.goesOn rfl
  case eValidate =>
    obtain ⟨w, n, -, ⟨-, rfl⟩ | ⟨-, rfl⟩⟩ := microEValidate_cases h
    · obtain ⟨-, e⟩ | ⟨-, e⟩ := validateNext_cases { s with draws := n } <;> rw [e] <;> exact EngineOnly.goesOn rfl
    · exact EngineOnly.raises rfl
  case eHeader =>
    obtain ⟨-, -, v, n, l, rfl, -⟩ := microEHeader_cases h
    exact EngineOnly.goesOn rfl
  case eLoad =>
    obtain ⟨g, n, -, rfl⟩ := microELoad_cases h
    exact EngineOnly.goesOn rfl
  case eEmit =>
    obtain ⟨-, -, v, n, l, rfl, -⟩ := microEEmit_cases h
    obtain ⟨-, e⟩ | ⟨-, -, e⟩ | ⟨-, -, -, e⟩ | ⟨-, e⟩ := emitNext_cases _ <;> rw [e]
    · exact EngineOnly.goesOn rfl
    · exact EngineOnly.goesOn rfl
    · exact EngineOnly.goesOn rfl
    · exact EngineOnly.finishes rfl
  case eFlush =>
    obtain ⟨-, -, -, v, n, rfl, -⟩ := microEFlush_cases h
    exact EngineOnly.finishes rfl
  case dCheck0 =>
    obtain ⟨-, e⟩ | ⟨-, _, -, e⟩ | ⟨-, -, e⟩ := microDCheck0_cases s <;> cases e.symm.trans h
    · exact EngineOnly.finishes rfl
    · exact EngineOnly.raises rfl
    · exact EngineOnly.goesOn rfl
  case dHeader =>
    obtain ⟨-, b, n, rfl⟩ := microDHeader_cases h
    exact EngineOnly.goesOn rfl
  case dCheck =>
    obtain ⟨_, -, e⟩ | ⟨-, -, e⟩ | ⟨-, -, e⟩ := microDCheck_cases s <;> cases e.symm.trans h
    · exact EngineOnly.raises rfl
    · exact EngineOnly.finishes rfl
    · exact EngineOnly.goesOn rfl
  case dFill =>
    obtain ⟨-, rfl⟩ | ⟨-, -, b, n, rfl⟩ := microDFill_cases h
    · exact EngineOnly.raises rfl
    · exact EngineOnly.goesOn rfl
  case dExtract =>
    obtain ⟨-, -, v0, v1, v2, v3, n, l, rfl, -⟩ := microDExtract_cases h
    obtain ⟨-, e⟩ | ⟨-, e⟩ := extractNext_cases _ <;> rw [e]
    · exact EngineOnly.finishes rfl
    · exact EngineOnly.goesOn rfl

theorem GoesOnOrEnds.descriptors {s t : State} (h : GoesOnOrEnds s t) : DescriptorsKept s t := by
  obtain ⟨u, hu, rfl | rfl | ⟨e, i, v, rfl⟩⟩ := h <;> exact hu.descriptors

/-! ## The decoder: which instruction a command word is -/

theorem decodeCmdWrite_wellFormed (w : Word) : (decodeCmdWrite w).wellFormed = true := by
  simp only [decodeCmdWrite, decodeCmd_eq]
  by_cases h1 : w = 1#32
  · simp [h1, Instr.wellFormed]
  · by_cases h2 : w = 2#32
    · simp [h2, Instr.wellFormed]
    · simp [h1, h2, Instr.wellFormed]

theorem decodeRead_wellFormed {k : Nat} {i : Instr} (h : decodeRead k = .ok i) : i.wellFormed = true := by
  unfold decodeRead at h
  split at h <;> cases h <;> rfl

theorem decodeWrite_wellFormed {k : Nat} {w : Word} {i : Instr} (h : decodeWrite k w = .ok i) :
    i.wellFormed = true := by
  unfold decodeWrite at h
  split at h <;> cases h
  case h_2 => exact decodeCmdWrite_wellFormed w
  all_goals rfl

/-- The decoder answers well-formed instructions only: a valid command word is never WR_CMD (rule R73). -/
theorem decodeAccess_wellFormed {base : Nat} {a : BusAccess} {i : Instr} (h : decodeAccess base a = .ok i) :
    i.wellFormed = true := by
  unfold decodeAccess at h
  split_ifs at h
  split at h
  · exact decodeRead_wellFormed h
  · exact decodeWrite_wellFormed h

/-- By the instruction: of those at CMD's offset, WR_CMD of a valid word is ill formed (rule R73). -/
theorem eq_encode_or_decode {i : Instr} {w : Word} (hf : i.wellFormed = true) (ho : i.offset = 0x04)
    (hd : i.direction = .write w) (hw : w = 1#32 ∨ w = 2#32) : i = .encode ∨ i = .decode := by
  cases i <;> simp_all [Instr.offset, Instr.direction, Instr.wellFormed]

/-! ## What a step can do to the flags and OP -/

/-- Neither OP nor one of the flags differs from s to t. -/
def FlagsKept (s t : State) : Prop :=
  t.busy = s.busy ∧ t.done = s.done ∧ t.err = s.err ∧ t.cmdRej = s.cmdRej ∧ t.op = s.op

/-- Everything a step from s to t can do to BUSY, DONE, ERR, CMD_REJ and OP (rules R22 to R26). -/
inductive FlagStep (s t : State) : Prop where
  | kept (h : FlagsKept s t)
  | ended (hn : s.inbox = [] ∨ ∃ rest, s.inbox = .block :: rest) (hb : s.busy = true) (hb' : t.busy = false)
      (hd : t.done = true ∨ t.done = s.done) (he : t.err = true ∨ t.err = s.err)
      (hr : t.cmdRej = s.cmdRej) (ho : t.op = s.op)
  | reset (rest : List Event) (hn : s.inbox = .reset :: rest) (hb : t.busy = false) (hd : t.done = false)
      (he : t.err = false) (hr : t.cmdRej = false)
  | accepted (a : BusAccess) (rest : List Event) (hn : s.inbox = .bus a :: rest)
      (hi : decodeAccess s.plat.base a = .ok .encode ∨ decodeAccess s.plat.base a = .ok .decode)
      (hb : s.busy = false) (hb' : t.busy = true) (hd : t.done = false) (he : t.err = false) (hr : t.cmdRej = s.cmdRej)
  | rejected (a : BusAccess) (rest : List Event) (i : Instr) (hn : s.inbox = .bus a :: rest)
      (hi : decodeAccess s.plat.base a = .ok i) (ho : i.offset = 0x04) (hd : i.direction ≠ .read)
      (h : FlagsKept { s with cmdRej := true } t)
  | cleared (a : BusAccess) (rest : List Event) (w : Word) (hn : s.inbox = .bus a :: rest)
      (hi : decodeAccess s.plat.base a = .ok (.wrStatus w)) (h : FlagsKept (clearStatus w s) t)

/-- By how the micro-step ends: only `finish` and `raise` touch a flag (rules R117, R149). -/
theorem flagStep_of_blockTurn {s₀ s t : State} (hn : BlockTurnAt s₀ s) (h : blockTurn s = .next t) :
    FlagStep s₀ t := by
  have hs : FlagsKept s₀ s := by
    obtain ⟨-, rfl⟩ | ⟨rest, -, rfl⟩ := hn <;> exact ⟨rfl, rfl, rfl, rfl, rfl⟩
  obtain ⟨-, rfl⟩ | ⟨hb, hm⟩ := blockTurn_cases h
  · exact .kept hs
  have hn' : s₀.inbox = [] ∨ ∃ rest, s₀.inbox = .block :: rest := hn.imp And.left fun ⟨rest, e, _⟩ => ⟨rest, e⟩
  obtain ⟨hsb, hsd, hse, hsr, hso⟩ := hs
  obtain ⟨u, hu, ht⟩ := microStep_goesOnOrEnds hm
  obtain ⟨hub, hud, hue, hur, huo⟩ := hu.flags
  obtain rfl | rfl | ⟨e, i, v, rfl⟩ := ht
  · exact .kept ⟨hub.trans hsb, hud.trans hsd, hue.trans hse, hur.trans hsr, huo.trans hso⟩
  · exact .ended hn' (hsb ▸ hb) rfl (.inl rfl) (.inr (hue.trans hse)) (hur.trans hsr) (huo.trans hso)
  · exact .ended hn' (hsb ▸ hb) rfl (.inr (hud.trans hsd)) (.inl rfl) (hur.trans hsr) (huo.trans hso)

/-- By the kind of instruction: only a command and WR STATUS touch a flag (rules R87, R135). -/
theorem flagStep_of_bus {s t : State} {a : BusAccess} {rest : List Event} {i : Instr} (hn : s.inbox = .bus a :: rest)
    (hi : decodeAccess s.plat.base a = .ok i) (h : exec i { s with inbox := rest } = .next t) : FlagStep s t := by
  have kept_of_whenIdle (f : State → State) (hf : ∀ u, FlagsKept u (f u)) :
      FlagStep s (whenIdle f { s with inbox := rest }) := by
    obtain ⟨-, e⟩ | ⟨-, e⟩ := whenIdle_cases f { s with inbox := rest } <;> rw [e]
    · exact .kept ⟨rfl, rfl, rfl, rfl, rfl⟩
    · exact .kept (hf _)
  obtain ⟨-, v, rfl⟩ | ⟨w, hd, ho, rfl⟩ | ⟨w, rfl, rfl⟩ | ⟨w, -, rfl⟩ | ⟨w, -, rfl⟩ | ⟨w, -, rfl⟩ | ⟨w, -, rfl⟩ |
    ⟨w, -, rfl⟩ | ⟨-, -, rfl⟩ := exec_cases h
  · exact .kept ⟨rfl, rfl, rfl, rfl, rfl⟩
  · have hc (hw : w = 1#32 ∨ w = 2#32) :
        decodeAccess s.plat.base a = .ok .encode ∨ decodeAccess s.plat.base a = .ok .decode := by
      obtain rfl | rfl := eq_encode_or_decode (decodeAccess_wellFormed hi) ho hd hw
      · exact .inl hi
      · exact .inr hi
    obtain ⟨hb, hw, e⟩ | ⟨hb, hw, e⟩ | ⟨-, e⟩ := presentCommand_cases w { s with inbox := rest } <;> rw [e]
    · exact .accepted a rest hn (hc (.inl hw)) hb rfl rfl rfl rfl
    · exact .accepted a rest hn (hc (.inr hw)) hb rfl rfl rfl rfl
    · exact .rejected a rest i hn hi ho (by simp [hd]) ⟨rfl, rfl, rfl, rfl, rfl⟩
  · exact .cleared a rest w hn hi ⟨rfl, rfl, rfl, rfl, rfl⟩
  · exact .kept ⟨rfl, rfl, rfl, rfl, rfl⟩
  · exact kept_of_whenIdle _ fun _ => ⟨rfl, rfl, rfl, rfl, rfl⟩
  · exact kept_of_whenIdle _ fun _ => ⟨rfl, rfl, rfl, rfl, rfl⟩
  · exact kept_of_whenIdle _ fun _ => ⟨rfl, rfl, rfl, rfl, rfl⟩
  · exact kept_of_whenIdle _ fun _ => ⟨rfl, rfl, rfl, rfl, rfl⟩
  · exact .kept ⟨rfl, rfl, rfl, rfl, rfl⟩

/-- By the agent whose step it is. -/
theorem step_flagStep {s t : State} (h : step s = .next t) : FlagStep s t := by
  obtain ⟨hn, hb⟩ | ⟨e, rest, hn, ⟨rfl, hb⟩ | ⟨a, i, rfl, hi, hx⟩ | ⟨a, rfl, hr⟩ | ⟨a, v, rfl, hw⟩ | ⟨rfl, rfl⟩⟩ :=
    step_cases h
  · exact flagStep_of_blockTurn (.inl ⟨hn, rfl⟩) hb
  · exact flagStep_of_blockTurn (.inr ⟨rest, hn, rfl⟩) hb
  · exact flagStep_of_bus hn hi hx
  · obtain ⟨-, v, rfl⟩ := hostReadByte_cases hr
    obtain ⟨n, e⟩ := afterRead_eq { s with inbox := rest }
    rw [e]
    exact .kept ⟨rfl, rfl, rfl, rfl, rfl⟩
  · obtain ⟨-, b, n, rfl⟩ := hostWriteByte_cases hw
    exact .kept ⟨rfl, rfl, rfl, rfl, rfl⟩
  · exact .reset rest hn rfl rfl rfl rfl

/-- Settles O40, by what a step can do to the flags. -/
theorem busyChangesOnlyAsStated : Obligations.BusyChangesOnlyAsStated := by
  intro s t h
  cases step_flagStep h with
  | kept h => simp_all [FlagsKept]
  | ended hn hb hb' => exact ⟨by simp [hb], fun _ _ => hn.imp id .inl⟩
  | reset rest hn hb => exact ⟨by simp [hb], fun _ _ => .inr (.inr ⟨rest, hn⟩)⟩
  | accepted a rest hn hi hb => exact ⟨fun _ _ => ⟨a, rest, hn, hi⟩, by simp [hb]⟩
  | rejected _ _ _ _ _ _ _ h => simp_all [FlagsKept]
  | cleared _ _ _ _ _ h => simp_all [FlagsKept, clearStatus]

/-- Settles O41, by what a step can do to the flags. -/
theorem doneAndErrChangeOnlyAsStated : Obligations.DoneAndErrChangeOnlyAsStated := by
  intro s t h
  cases step_flagStep h with
  | kept h => simp_all [FlagsKept]
  | ended hn hb hb' hd he =>
    refine ⟨fun _ => ⟨hn, hb, hb'⟩, fun hfall => ?_⟩
    obtain hd | hd := hd <;> obtain he | he := he <;> simp_all
  | reset rest hn hb hd he => exact ⟨by simp [hd, he], fun _ => .inl ⟨rest, hn⟩⟩
  | accepted a rest hn hi hb hb' hd he =>
    exact ⟨by simp [hd, he], fun _ => .inr ⟨a, rest, hn, .inl ⟨hb, hb', hi⟩⟩⟩
  | rejected _ _ _ _ _ _ _ h => simp_all [FlagsKept]
  | cleared a rest w hn hi h =>
    obtain ⟨-, hd, he, -⟩ := h
    have hd' : t.done = (s.done && !w.getLsbD 1) := hd
    have he' : t.err = (s.err && !w.getLsbD 2) := he
    refine ⟨?_, fun _ => .inr ⟨a, rest, hn, .inr ⟨w, hi, ?_, ?_⟩⟩⟩
    · simp +contextual [hd', he']
    · simp +contextual [hd']
    · simp +contextual [he']

/-- Settles O42, by what a step can do to the flags. -/
theorem cmdRejAndOpChangeOnlyAsStated : Obligations.CmdRejAndOpChangeOnlyAsStated := by
  intro s t h
  cases step_flagStep h with
  | kept h => simp_all [FlagsKept]
  | ended _ _ _ _ _ hr ho => simp_all
  | reset rest hn hb hd he hr => exact ⟨by simp [hr], fun _ _ => .inl ⟨rest, hn⟩, fun _ => .inl ⟨rest, hn⟩⟩
  | accepted _ _ _ _ hb hb' _ _ hr => exact ⟨by simp_all, by simp_all, fun _ => .inr ⟨hb, hb'⟩⟩
  | rejected a rest i hn hi ho hd h =>
    obtain ⟨-, -, -, hr, hop⟩ := h
    exact ⟨fun _ _ => ⟨a, rest, i, hn, hi, ho, hd⟩, by simp [hr], fun hne => absurd hop.symm hne⟩
  | cleared a rest w hn hi h =>
    obtain ⟨-, -, -, hr, hop⟩ := h
    have hr' : t.cmdRej = (s.cmdRej && !w.getLsbD 3) := hr
    refine ⟨?_, fun _ _ => .inr ⟨a, rest, w, hn, hi, ?_⟩, fun hne => absurd hop.symm hne⟩
    · simp +contextual [hr']
    · simp_all

/-! ## The descriptors while BUSY -/

theorem blockTurn_descriptors {s t : State} (h : blockTurn s = .next t) : DescriptorsKept s t := by
  obtain ⟨-, rfl⟩ | ⟨-, hm⟩ := blockTurn_cases h
  · exact ⟨rfl, rfl, rfl, rfl⟩
  · exact (microStep_goesOnOrEnds hm).descriptors

/-- While BUSY = 1 a presented command is rejected and a descriptor write ignored (rules R34, R88). -/
theorem exec_descriptors_of_busy {i : Instr} {s t : State} (hb : s.busy = true) (h : exec i s = .next t) :
    DescriptorsKept s t := by
  obtain ⟨-, v, rfl⟩ | ⟨w, -, -, rfl⟩ | ⟨w, -, rfl⟩ | ⟨w, -, rfl⟩ | ⟨w, -, rfl⟩ | ⟨w, -, rfl⟩ | ⟨w, -, rfl⟩ |
    ⟨w, -, rfl⟩ | ⟨-, -, rfl⟩ := exec_cases h
  case inr.inl => simp [DescriptorsKept, presentCommand, hb]
  all_goals simp [DescriptorsKept, busReturn, clearStatus, setIrqEn, whenIdle, hb]

/-- Settles O43, by the agent whose step it is. -/
theorem descriptorsFixedWhileBusy : Obligations.DescriptorsFixedWhileBusy := by
  intro s t hb hnr h
  obtain ⟨-, hbt⟩ | ⟨e, rest, hn, ⟨-, hbt⟩ | ⟨a, i, -, -, hx⟩ | ⟨a, -, hr⟩ | ⟨a, v, -, hw⟩ | ⟨rfl, -⟩⟩ := step_cases h
  · exact blockTurn_descriptors hbt
  · exact (blockTurn_descriptors hbt :)
  · exact (exec_descriptors_of_busy (s := { s with inbox := rest }) hb hx :)
  · obtain ⟨-, v, rfl⟩ := hostReadByte_cases hr
    obtain ⟨n, e⟩ := afterRead_eq { s with inbox := rest }
    rw [e]
    exact ⟨rfl, rfl, rfl, rfl⟩
  · obtain ⟨-, b, n, rfl⟩ := hostWriteByte_cases hw
    exact ⟨rfl, rfl, rfl, rfl⟩
  · exact absurd hn (hnr rest)

end Sys2Proof.Machine
end

section
/-! SUPPORT. The machine invariant (rules R43, R46, R98, R104, R105): its reading as propositions, idle and busy, and
that every step of every agent keeps it. -/

namespace Sys2Proof.Machine

/-! ## The invariant as propositions -/

/-- The invariant of an idle machine. -/
structure IdleInv (s : State) : Prop where
  busy : s.busy = false
  phase : s.phase = .idle
  notBoth : s.done = false ∨ s.err = false
  acc : s.acc = 0#16
  held : s.held = 0#5
  errCode : s.errCode = none ∨ (s.op ≠ none ∧ s.done = false)
  mem : Memory.wf s.mem = true
  stale : s.stale = []
  dstSeen : s.dstSeen = []
  plat : s.plat.wellFormed = true

/-- What holds throughout a transaction, whatever its phase. -/
structure Running (s : State) : Prop where
  busy : s.busy = true
  done : s.done = false
  err : s.err = false
  errCode : s.errCode = none
  outLen : s.outLen = 0#32
  held : s.held.toNat ≤ 16
  acc : s.acc.toNat < 2 ^ s.held.toNat
  mem : Memory.wf s.mem = true
  seen : ∀ c ∈ s.dstSeen, s.dstAddr.toNat ≤ c.1 ∧ c.1 < s.dstAddr.toNat + s.outPos.toNat
  plat : s.plat.wellFormed = true

theorem inv_iff_of_idle {s : State} (hb : s.busy = false) : s.inv = true ↔ IdleInv s := by
  constructor
  · intro h
    simp only [State.inv, flagsInv, hb, Bool.false_beq, Bool.false_and, Bool.not_false, Bool.and_true,
      Bool.not_and, Bool.false_or, Bool.true_or, List.beq_nil_eq, Bool.and_eq_true, Bool.not_eq_eq_eq_not,
      Bool.not_true, bne_eq_false_iff_eq, Bool.or_eq_true, decide_eq_true_eq, and_assoc, beq_iff_eq,
      Option.isNone_iff_eq_none, List.isEmpty_iff, List.all_eq_true, Prod.forall] at h
    obtain ⟨hp, hn, -, -, ha, hh, he, -, hm, hs, hd, -, hpl⟩ := h
    exact ⟨hb, hp, hn, ha, hh, he.imp id fun h => ⟨Option.isSome_iff_ne_none.1 h.1, h.2⟩, hm, hs, hd, hpl⟩
  · rintro ⟨-, hp, hn, ha, hh, he, hm, hs, hd, hpl⟩
    simp [State.inv, flagsInv, phaseInv, hb, hp, hn, ha, hh, hm, hs, hd, hpl, Option.isSome_iff_ne_none, he]

theorem inv_iff_of_busy {s : State} (hb : s.busy = true) :
    s.inv = true ↔ Running s ∧ s.phase ≠ .idle ∧ phaseInv s = true := by
  constructor
  · intro h
    simp only [State.inv, flagsInv, hb, Bool.true_beq, Bool.true_and, Bool.not_or, Bool.not_and, Bool.true_or,
      Bool.and_true, Bool.not_true, Bool.and_false, Bool.false_and, Bool.or_false, Bool.false_or, List.beq_nil_eq,
      Bool.and_eq_true, bne_iff_ne, ne_eq, Bool.not_eq_eq_eq_not, Bool.or_eq_true, and_assoc, decide_eq_true_eq,
      Option.isNone_iff_eq_none, beq_iff_eq, List.all_eq_true, Prod.forall] at h
    obtain ⟨hp, hd, he, -, hh, ha, hc, hi, ho, hm, hs, hpl⟩ := h
    exact ⟨⟨hb, hd, he, hc, ho, hh, ha, hm, fun c => hs c.1 c.2, hpl⟩, hp, hi⟩
  · rintro ⟨⟨-, hd, he, hc, ho, hh, ha, hm, hs, hpl⟩, hp, hi⟩
    simpa [State.inv, flagsInv, hb, hd, he, hc, ho, hh, ha, hm, hpl, hp, hi] using fun a b => hs (a, b)

theorem IdleInv.inv {s : State} (h : IdleInv s) : s.inv = true := (inv_iff_of_idle h.busy).2 h

theorem inv_cases {s : State} (h : s.inv = true) :
    IdleInv s ∨ (Running s ∧ s.phase ≠ .idle ∧ phaseInv s = true) := by
  rcases Bool.eq_false_or_eq_true s.busy with hb | hb
  · exact .inr ((inv_iff_of_busy hb).1 h)
  · exact .inl ((inv_iff_of_idle hb).1 h)

theorem Running.inv {s : State} (h : Running s) (hp : s.phase ≠ .idle) (hi : phaseInv s = true) : s.inv = true :=
  (inv_iff_of_busy h.busy).2 ⟨h, hp, hi⟩

/-! ## What the phases' clauses say -/

theorem encodeChecked_iff (s : State) :
    encodeChecked s = true ↔
      s.op = some .encode ∧ s.count = s.srcLen ∧ s.count ≠ 0#32 ∧ encodeCheck s = none := by
  simp [encodeChecked, and_assoc]

theorem decodeChecked0_iff (s : State) :
    decodeChecked0 s = true ↔ s.op = some .decode ∧ decodeCheck0 s = none := by
  simp [decodeChecked0]

theorem decodeChecked_iff (s : State) :
    decodeChecked s = true ↔ decodeChecked0 s = true ∧ s.count ≠ 0#32 ∧ decodeCheck s = none := by
  simp [decodeChecked, and_assoc]

theorem packedSoFar_iff (s : State) :
    packedSoFar s = true ↔ s.inPos.toNat % 4 = 0 ∧ 4 ≤ s.outPos.toNat ∧
      8 * (s.outPos.toNat - 4) + s.held.toNat = 9 * (s.inPos.toNat / 4) := by
  simp [packedSoFar, and_assoc]

theorem unpackedSoFar_iff (s : State) :
    unpackedSoFar s = true ↔ s.outPos.toNat % 4 = 0 ∧ s.outPos.toNat < 4 * s.count.toNat ∧ 4 ≤ s.inPos.toNat ∧
      8 * (s.inPos.toNat - 4) = 9 * (s.outPos.toNat / 4) + s.held.toNat := by
  simp [unpackedSoFar, and_assoc]

section PhaseClauses

variable {s : State}

theorem phaseInv_eCheck (hp : s.phase = .eCheck) :
    phaseInv s = true ↔
      s.op = some .encode ∧ s.count = s.srcLen ∧ s.inPos = 0#32 ∧ s.outPos = 0#32 ∧ s.held = 0#5 := by
  simp [phaseInv, hp, atStart, and_assoc]

theorem phaseInv_eValidate (hp : s.phase = .eValidate) :
    phaseInv s = true ↔
      encodeChecked s = true ∧ s.inPos.toNat % 4 = 0 ∧ s.inPos.toNat < 4 * s.count.toNat ∧ s.outPos = 0#32 ∧
        s.held = 0#5 := by
  simp [phaseInv, hp, and_assoc]

theorem phaseInv_eHeader (hp : s.phase = .eHeader) :
    phaseInv s = true ↔ encodeChecked s = true ∧ s.inPos = 0#32 ∧ s.outPos.toNat < 4 ∧ s.held = 0#5 := by
  simp [phaseInv, hp, and_assoc]

theorem phaseInv_eLoad (hp : s.phase = .eLoad) :
    phaseInv s = true ↔
      encodeChecked s = true ∧ packedSoFar s = true ∧ s.inPos.toNat < 4 * s.count.toNat ∧ s.held.toNat ≤ 7 := by
  simp [phaseInv, hp, and_assoc]

theorem phaseInv_eEmit (hp : s.phase = .eEmit) :
    phaseInv s = true ↔
      encodeChecked s = true ∧ packedSoFar s = true ∧ s.inPos.toNat ≤ 4 * s.count.toNat ∧ 8 ≤ s.held.toNat := by
  simp [phaseInv, hp, and_assoc]

theorem phaseInv_eFlush (hp : s.phase = .eFlush) :
    phaseInv s = true ↔
      encodeChecked s = true ∧ packedSoFar s = true ∧ s.inPos.toNat = 4 * s.count.toNat ∧ 1 ≤ s.held.toNat ∧
        s.held.toNat ≤ 7 := by
  simp [phaseInv, hp, and_assoc]

theorem phaseInv_dCheck0 (hp : s.phase = .dCheck0) :
    phaseInv s = true ↔
      s.op = some .decode ∧ s.count = 0#32 ∧ s.inPos = 0#32 ∧ s.outPos = 0#32 ∧ s.held = 0#5 := by
  simp [phaseInv, hp, atStart, and_assoc]

theorem phaseInv_dHeader (hp : s.phase = .dHeader) :
    phaseInv s = true ↔
      decodeChecked0 s = true ∧ s.inPos.toNat < 4 ∧ s.outPos = 0#32 ∧ s.held = 0#5 ∧
        s.count.toNat < 256 ^ s.inPos.toNat := by
  simp [phaseInv, hp, and_assoc]

theorem phaseInv_dCheck (hp : s.phase = .dCheck) :
    phaseInv s = true ↔ decodeChecked0 s = true ∧ s.inPos = 4#32 ∧ s.outPos = 0#32 ∧ s.held = 0#5 := by
  simp [phaseInv, hp, and_assoc]

theorem phaseInv_dFill (hp : s.phase = .dFill) :
    phaseInv s = true ↔ decodeChecked s = true ∧ unpackedSoFar s = true ∧ s.held.toNat ≤ 8 := by
  simp [phaseInv, hp, and_assoc]

theorem phaseInv_dExtract (hp : s.phase = .dExtract) :
    phaseInv s = true ↔ decodeChecked s = true ∧ unpackedSoFar s = true ∧ 9 ≤ s.held.toNat := by
  simp [phaseInv, hp, and_assoc]

/-- What ENCODE's passed checks say of the numbers: disjoint ranges leave the source shorter than the address space,
so neither position wraps (rules R92 to R96). -/
theorem encodeChecked_bounds (h : encodeChecked s = true) :
    s.op ≠ none ∧ 0 < s.count.toNat ∧ 4 * s.count.toNat < 4294967296 ∧ 4 + payload s.count.toNat < 4294967296 := by
  obtain ⟨ho, -, h0, hc⟩ := (encodeChecked_iff s).1 h
  have hn := toNat_ne_zero h0
  obtain ⟨hsrc, hcap, hdst, hdisj⟩ := encodeCheck_none hc hn
  have := s.dstCap.isLt
  exact ⟨by simp [ho], by omega, by omega, by omega⟩

theorem decodeChecked0_op (h : decodeChecked0 s = true) : s.op ≠ none := by
  simp [((decodeChecked0_iff s).1 h).1]

/-- What DECODE's passed checks say of the numbers (rule R97). -/
theorem decodeChecked_bounds (h : decodeChecked s = true) :
    s.op ≠ none ∧ 0 < s.count.toNat ∧ 4 * s.count.toNat < 4294967296 ∧ 4 + payload s.count.toNat < 4294967296 := by
  obtain ⟨h0, hc0, hc⟩ := (decodeChecked_iff s).1 h
  have hn := toNat_ne_zero hc0
  obtain ⟨hlen, hcap, -, -⟩ := decodeCheck_none hc hn
  have := s.dstCap.isLt
  have := s.srcLen.isLt
  exact ⟨decodeChecked0_op h0, by omega, by omega, by omega⟩

end PhaseClauses

/-! ## A transaction that goes on, and its two ends -/

theorem Running.finish_inv {s : State} (h : Running s) : (finish s).inv = true :=
  IdleInv.inv ⟨rfl, rfl, .inr h.err, rfl, rfl, .inl h.errCode, h.mem, rfl, rfl, h.plat⟩

theorem Running.raise_inv {s : State} {e : ErrCode} {i v : Word} (h : Running s) (ho : s.op ≠ none) :
    (raise e i v s).inv = true :=
  IdleInv.inv ⟨rfl, rfl, .inl h.done, rfl, rfl, .inr ⟨ho, h.done⟩, h.mem, rfl, rfl, h.plat⟩

/-- A store of k bytes at DST_ADDR + OUT_POS, with OUT_POS moved past them, is recorded inside the bytes stored. -/
theorem Running.seen_append {s : State} (h : Running s) {l : List Host.Cell} {k : Nat} {p : Word}
    (hl : ∀ c ∈ l, s.dstAddr.toNat + s.outPos.toNat ≤ c.1 ∧ c.1 < s.dstAddr.toNat + s.outPos.toNat + k)
    (hp : p.toNat = s.outPos.toNat + k) :
    ∀ c ∈ l ++ s.dstSeen, s.dstAddr.toNat ≤ c.1 ∧ c.1 < s.dstAddr.toNat + p.toNat := by
  intro c hc
  rcases List.mem_append.1 hc with hc | hc
  · have := hl c hc
    omega
  · have := h.seen c hc
    omega

/-- A byte stored at DST_ADDR + OUT_POS, with OUT_POS moved past it. -/
theorem Running.store_byte {s : State} (h : Running s) (hr : ramAt s (s.dstAddr.toNat + s.outPos.toNat) = true)
    {l : List Host.Cell} (hl : ∀ c ∈ l, c.1 = s.dstAddr.toNat + s.outPos.toNat) (v : Byte) (n : Nat)
    (hnext : (s.outPos + 1#32).toNat = s.outPos.toNat + 1) :
    Running { s with
      mem := memSet s.mem (s.dstAddr.toNat + s.outPos.toNat) v, draws := n, dstSeen := l ++ s.dstSeen
      outPos := s.outPos + 1#32 } :=
  { h with
    mem := Memory.wf_memSet _ _ _ (addr_lt_of_ramAt hr) h.mem
    seen := h.seen_append (fun c hc => by have := hl c hc; omega) hnext }

/-- A position moved forward within the registers' range does not wrap. -/
theorem toNat_add_pos {p : Word} {k : Nat} (h : p.toNat + k < 4294967296) :
    (p + BitVec.ofNat 32 k).toNat = p.toNat + k := by
  rw [BitVec.toNat_add, BitVec.toNat_ofNat]
  omega

/-! ## The micro-steps of ENCODE -/

section MicroSteps

variable {s t : State} (h : Running s)

include h

theorem microECheck_inv (hp : s.phase = .eCheck) (hi : phaseInv s = true) (hm : microECheck s = .next t) :
    t.inv = true := by
  obtain ⟨hop, hcnt, hin, hout, hh⟩ := (phaseInv_eCheck hp).1 hi
  obtain ⟨-, e⟩ | ⟨-, _, -, e⟩ | ⟨h0, hc, e⟩ := microECheck_cases s <;> cases e.symm.trans hm
  · exact h.finish_inv
  · exact h.raise_inv (by simp [hop])
  · have hne : s.count ≠ 0#32 := fun e => h0 (by simp [e])
    refine Running.inv { h with } (by simp) ((phaseInv_eValidate rfl).2 ⟨?_, ?_, ?_, hout, hh⟩)
    · exact (encodeChecked_iff _).2 ⟨hop, hcnt, hne, hc⟩
    · simp [hin]
    · have hin0 : s.inPos.toNat = 0 := by simp [hin]
      show s.inPos.toNat < 4 * s.count.toNat
      omega

/-- The position after an element stays below the end of the source, which does not wrap (rule R112). -/
theorem validateNext_inv (hp : s.phase = .eValidate) (hi : phaseInv s = true) : (validateNext s).inv = true := by
  obtain ⟨hck, h4, hin, hout, hh⟩ := (phaseInv_eValidate hp).1 hi
  obtain ⟨-, -, hsrc, -⟩ := encodeChecked_bounds hck
  have hnext : (s.inPos + 4#32).toNat = s.inPos.toNat + 4 := toNat_add_pos (by omega)
  obtain ⟨-, e⟩ | ⟨hne, e⟩ := validateNext_cases s <;> rw [e]
  · exact Running.inv { h with } (by simp) ((phaseInv_eHeader rfl).2 ⟨hck, rfl, by simp [hout], hh⟩)
  · refine Running.inv { h with } (by simp [hp]) ((phaseInv_eValidate (by exact hp)).2 ⟨hck, ?_, ?_, hout, hh⟩)
    · rw [hnext]; omega
    · show (s.inPos + 4#32).toNat < 4 * s.count.toNat
      omega

theorem microEValidate_inv (hp : s.phase = .eValidate) (hi : phaseInv s = true) (hm : microEValidate s = .next t) :
    t.inv = true := by
  obtain ⟨w, n, -, ⟨-, rfl⟩ | ⟨-, rfl⟩⟩ := microEValidate_cases hm
  · exact validateNext_inv { h with } hp hi
  · obtain ⟨hck, -⟩ := (phaseInv_eValidate hp).1 hi
    exact Running.raise_inv { h with } (encodeChecked_bounds hck).1

/-- After the fourth header byte nothing is packed yet (rule R113). -/
theorem microEHeader_inv (hp : s.phase = .eHeader) (hi : phaseInv s = true) (hm : microEHeader s = .next t) :
    t.inv = true := by
  obtain ⟨hck, hin, hout, hh⟩ := (phaseInv_eHeader hp).1 hi
  obtain ⟨-, hpos, -, -⟩ := encodeChecked_bounds hck
  obtain ⟨-, hr, v, n, l, rfl, hl, -⟩ := microEHeader_cases hm
  have hnext : (s.outPos + 1#32).toNat = s.outPos.toNat + 1 := toNat_add_pos (by omega)
  have hrun := h.store_byte hr hl v n hnext
  obtain ⟨h4, e⟩ | ⟨h4, e⟩ := headerNext_cases _ <;> rw [e]
  · refine Running.inv { hrun with } (by simp) ((phaseInv_eLoad rfl).2 ⟨hck, (packedSoFar_iff _).2 ?_, ?_, ?_⟩)
    · exact ⟨by simp [hin], h4.ge, by simp [h4, hin, hh]⟩
    · simpa [hin] using hpos
    · simp [hh]
  · refine Running.inv { hrun with } (by simp [hp]) ((phaseInv_eHeader (by exact hp)).2 ⟨hck, hin, ?_, hh⟩)
    replace h4 : (s.outPos + 1#32).toNat ≠ 4 := h4
    show (s.outPos + 1#32).toNat < 4
    omega

theorem microELoad_inv (hp : s.phase = .eLoad) (hi : phaseInv s = true) (hm : microELoad s = .next t) :
    t.inv = true := by
  obtain ⟨hck, hpk, hin, hh⟩ := (phaseInv_eLoad hp).1 hi
  obtain ⟨h4, hout, hbits⟩ := (packedSoFar_iff s).1 hpk
  obtain ⟨-, -, hsrc, -⟩ := encodeChecked_bounds hck
  obtain ⟨g, n, -, rfl⟩ := microELoad_cases hm
  have hnext : (s.inPos + 4#32).toNat = s.inPos.toNat + 4 := toNat_add_pos (by omega)
  have hheld : (push9 g s).held.toNat = s.held.toNat + 9 := push9_held g s hh
  have hrun : Running { push9 g { s with draws := n } with inPos := s.inPos + 4#32, phase := .eEmit } :=
    { h with
      held := show (push9 g s).held.toNat ≤ 16 by omega
      acc := push9_keeps_bound g s hh h.acc }
  refine hrun.inv (by simp) ((phaseInv_eEmit rfl).2 ⟨hck, (packedSoFar_iff _).2 ⟨?_, ?_, ?_⟩, ?_, ?_⟩)
  · show (s.inPos + 4#32).toNat % 4 = 0
    omega
  · exact hout
  · show 8 * (s.outPos.toNat - 4) + (push9 g s).held.toNat = 9 * ((s.inPos + 4#32).toNat / 4)
    omega
  · show (s.inPos + 4#32).toNat ≤ 4 * s.count.toNat
    omega
  · show 8 ≤ (push9 g s).held.toNat
    omega

/-- What E_EMIT leads to, from the state after its store: no phase is entered but with what it needs (rule R115). -/
theorem emitNext_inv (hck : encodeChecked s = true) (hpk : packedSoFar s = true)
    (hin : s.inPos.toNat ≤ 4 * s.count.toNat) : (emitNext s).inv = true := by
  obtain ⟨h8, e⟩ | ⟨h8, hlt, e⟩ | ⟨h0, h8, hge, e⟩ | ⟨-, e⟩ := emitNext_cases s <;> rw [e]
  · exact Running.inv { h with } (by simp) ((phaseInv_eEmit rfl).2 ⟨hck, hpk, hin, h8⟩)
  · exact Running.inv { h with } (by simp) ((phaseInv_eLoad rfl).2 ⟨hck, hpk, hlt, Nat.le_of_lt_succ h8⟩)
  · exact Running.inv { h with } (by simp)
      ((phaseInv_eFlush rfl).2 ⟨hck, hpk, le_antisymm hin hge, h0, Nat.le_of_lt_succ h8⟩)
  · exact h.finish_inv

theorem microEEmit_inv (hp : s.phase = .eEmit) (hi : phaseInv s = true) (hm : microEEmit s = .next t) :
    t.inv = true := by
  obtain ⟨hck, hpk, hin, h8⟩ := (phaseInv_eEmit hp).1 hi
  obtain ⟨h4, hout, hbits⟩ := (packedSoFar_iff s).1 hpk
  obtain ⟨-, -, hsrc, hdst⟩ := encodeChecked_bounds hck
  obtain ⟨-, hr, v, n, l, rfl, hl, -⟩ := microEEmit_cases hm
  have hnext : (s.outPos + 1#32).toNat = s.outPos.toNat + 1 := toNat_add_pos (by omega)
  have hheld := emit8_held s h8
  have hrun : Running { (emit8 s).2 with
      mem := memSet s.mem (s.dstAddr.toNat + s.outPos.toNat) v, draws := n, outPos := s.outPos + 1#32
      dstSeen := l ++ s.dstSeen } :=
    { h.store_byte hr hl v n hnext with
      held := show (emit8 s).2.held.toNat ≤ 16 by have := h.held; omega
      acc := emit8_keeps_bound s h8 h.held }
  refine emitNext_inv hrun hck ((packedSoFar_iff _).2 ⟨h4, ?_, ?_⟩) hin
  · show 4 ≤ (s.outPos + 1#32).toNat
    omega
  · show 8 * ((s.outPos + 1#32).toNat - 4) + (emit8 s).2.held.toNat = 9 * (s.inPos.toNat / 4)
    omega

theorem microEFlush_inv (hp : s.phase = .eFlush) (hi : phaseInv s = true) (hm : microEFlush s = .next t) :
    t.inv = true := by
  obtain ⟨hck, hpk, hin, h1, -⟩ := (phaseInv_eFlush hp).1 hi
  obtain ⟨-, -, hbits⟩ := (packedSoFar_iff s).1 hpk
  obtain ⟨-, -, -, hdst⟩ := encodeChecked_bounds hck
  obtain ⟨-, -, hr, v, n, rfl, -⟩ := microEFlush_cases hm
  have hnext : (s.outPos + 1#32).toNat = s.outPos.toNat + 1 := toNat_add_pos (by omega)
  exact (h.store_byte hr (l := []) (by simp) v n hnext).finish_inv

/-! ## The micro-steps of DECODE -/

theorem microDCheck0_inv (hp : s.phase = .dCheck0) (hi : phaseInv s = true) (hm : microDCheck0 s = .next t) :
    t.inv = true := by
  obtain ⟨hop, hcnt, hin, hout, hh⟩ := (phaseInv_dCheck0 hp).1 hi
  obtain ⟨-, e⟩ | ⟨-, _, -, e⟩ | ⟨-, hc, e⟩ := microDCheck0_cases s <;> cases e.symm.trans hm
  · exact h.finish_inv
  · exact h.raise_inv (by simp [hop])
  · refine Running.inv { h with } (by simp) ((phaseInv_dHeader rfl).2 ⟨?_, ?_, hout, hh, ?_⟩)
    · exact (decodeChecked0_iff _).2 ⟨hop, hc⟩
    · simp [hin]
    · simp [hcnt]

/-- IN_POS counts the header bytes shifted into COUNT, which is below 256 to that power (rule R123). -/
theorem headerShift_inv (b : Byte) (hp : s.phase = .dHeader) (hi : phaseInv s = true) :
    (headerShift b s).inv = true := by
  obtain ⟨hck, hin, hout, hh, hcnt⟩ := (phaseInv_dHeader hp).1 hi
  have hnext : (s.inPos + 1#32).toNat = s.inPos.toNat + 1 := toNat_add_pos (by omega)
  obtain ⟨h4, e⟩ | ⟨h4, e⟩ := headerShift_cases b s <;> rw [e]
  · exact Running.inv { h with } (by simp) ((phaseInv_dCheck rfl).2 ⟨hck, h4, hout, hh⟩)
  · have hne : (s.inPos + 1#32).toNat ≠ 4 := fun e => h4 (BitVec.eq_of_toNat_eq e)
    refine Running.inv { h with } (by simp [hp]) ((phaseInv_dHeader (by exact hp)).2 ⟨hck, ?_, hout, hh, ?_⟩)
    · show (s.inPos + 1#32).toNat < 4
      omega
    · show (BitVec.ofNat 32 (s.count.toNat * 256 + b.toNat)).toNat < 256 ^ (s.inPos + 1#32).toNat
      have hb : b.toNat < 256 := b.isLt
      rw [BitVec.toNat_ofNat, hnext, pow_succ]
      omega

theorem microDHeader_inv (hp : s.phase = .dHeader) (hi : phaseInv s = true) (hm : microDHeader s = .next t) :
    t.inv = true := by
  obtain ⟨-, b, n, rfl⟩ := microDHeader_cases hm
  exact headerShift_inv { h with } b hp hi

theorem microDCheck_inv (hp : s.phase = .dCheck) (hi : phaseInv s = true) (hm : microDCheck s = .next t) :
    t.inv = true := by
  obtain ⟨hck, hin, hout, hh⟩ := (phaseInv_dCheck hp).1 hi
  obtain ⟨_, -, e⟩ | ⟨-, -, e⟩ | ⟨hc, h0, e⟩ := microDCheck_cases s <;> cases e.symm.trans hm
  · exact h.raise_inv (decodeChecked0_op hck)
  · exact h.finish_inv
  · have hne : s.count ≠ 0#32 := fun e => h0 (by simp [e])
    refine Running.inv { h with } (by simp) ((phaseInv_dFill rfl).2 ⟨?_, (unpackedSoFar_iff _).2 ?_, ?_⟩)
    · exact (decodeChecked_iff _).2 ⟨hck, hne, hc⟩
    · have hcpos : 0 < s.count.toNat := Nat.pos_of_ne_zero h0
      exact ⟨by simp [hout], by simpa [hout] using hcpos, by simp [hin], by simp [hin, hout, hh]⟩
    · simp [hh]

/-- The bits of the elements left to write bound the payload bytes read, so IN_POS does not wrap (rule R125). -/
theorem microDFill_inv (hp : s.phase = .dFill) (hi : phaseInv s = true) (hm : microDFill s = .next t) :
    t.inv = true := by
  obtain ⟨hck, hun, hh⟩ := (phaseInv_dFill hp).1 hi
  obtain ⟨h4, hout, hin, hbits⟩ := (unpackedSoFar_iff s).1 hun
  obtain ⟨hop, -, -, hlen⟩ := decodeChecked_bounds hck
  obtain ⟨-, rfl⟩ | ⟨-, -, b, n, rfl⟩ := microDFill_cases hm
  · exact h.raise_inv hop
  · have hnext : (s.inPos + 1#32).toNat = s.inPos.toNat + 1 := toNat_add_pos (by omega)
    have hheld := fill8_held b s hh
    have hrun : Running (fill8 b { s with draws := n }) :=
      { h with
        held := show (fill8 b s).held.toNat ≤ 16 by omega
        acc := fill8_keeps_bound b s hh h.acc }
    have hun' : unpackedSoFar { fill8 b s with inPos := s.inPos + 1#32 } = true := by
      refine (unpackedSoFar_iff _).2 ⟨h4, hout, ?_, ?_⟩
      · show 4 ≤ (s.inPos + 1#32).toNat
        omega
      · show 8 * ((s.inPos + 1#32).toNat - 4) = 9 * (s.outPos.toNat / 4) + (fill8 b s).held.toNat
        omega
    obtain ⟨h9, e⟩ | ⟨h9, e⟩ := fillNext_cases (fill8 b { s with draws := n }) <;> rw [e]
    · exact Running.inv { hrun with } (by simp) ((phaseInv_dExtract rfl).2 ⟨hck, hun', h9⟩)
    · exact Running.inv { hrun with } (by simp [hp])
        ((phaseInv_dFill (by exact hp)).2 ⟨hck, hun', Nat.le_of_lt_succ h9⟩)

/-- OUT_POS steps by elements up to 4n, which fits the register (rule R127). -/
theorem microDExtract_inv (hp : s.phase = .dExtract) (hi : phaseInv s = true) (hm : microDExtract s = .next t) :
    t.inv = true := by
  obtain ⟨hck, hun, h9⟩ := (phaseInv_dExtract hp).1 hi
  obtain ⟨h4, hout, hin, hbits⟩ := (unpackedSoFar_iff s).1 hun
  obtain ⟨-, -, hdst, -⟩ := decodeChecked_bounds hck
  obtain ⟨-, hr, v0, v1, v2, v3, n, l, rfl, hl, -⟩ := microDExtract_cases hm
  have hnext : (s.outPos + 4#32).toNat = s.outPos.toNat + 4 := toNat_add_pos (by omega)
  have hheld := pull9_held s h9
  have hh := h.held
  have ha := addr_lt_of_ramWord hr
  have hrun : Running { (pull9 s).2 with
      mem := memSet (memSet (memSet (memSet s.mem (s.dstAddr.toNat + s.outPos.toNat) v0)
        (s.dstAddr.toNat + s.outPos.toNat + 1) v1) (s.dstAddr.toNat + s.outPos.toNat + 2) v2)
        (s.dstAddr.toNat + s.outPos.toNat + 3) v3
      draws := n, dstSeen := l ++ s.dstSeen, outPos := s.outPos + 4#32 } :=
    { h with
      held := show (pull9 s).2.held.toNat ≤ 16 by omega
      acc := pull9_keeps_bound s h9 hh
      mem := Memory.wf_memSet _ _ _ (by omega) (Memory.wf_memSet _ _ _ (by omega)
        (Memory.wf_memSet _ _ _ (by omega) (Memory.wf_memSet _ _ _ (by omega) h.mem)))
      seen := h.seen_append hl hnext }
  obtain ⟨-, e⟩ | ⟨hne, e⟩ := extractNext_cases _ <;> rw [e]
  · exact hrun.finish_inv
  · replace hne : (s.outPos + 4#32).toNat ≠ 4 * s.count.toNat := hne
    refine Running.inv { hrun with } (by simp)
      ((phaseInv_dFill rfl).2 ⟨hck, (unpackedSoFar_iff _).2 ⟨?_, ?_, hin, ?_⟩, ?_⟩)
    · show (s.outPos + 4#32).toNat % 4 = 0
      omega
    · show (s.outPos + 4#32).toNat < 4 * s.count.toNat
      omega
    · show 8 * (s.inPos.toNat - 4) = 9 * ((s.outPos + 4#32).toNat / 4) + (pull9 s).2.held.toNat
      omega
    · show (pull9 s).2.held.toNat ≤ 8
      omega

end MicroSteps

/-! ## A step of any agent -/

/-- By the phase. -/
theorem microStep_inv {s t : State} (hb : s.busy = true) (h : s.inv = true) (hm : microStep s = .next t) :
    t.inv = true := by
  obtain ⟨h, hne, hi⟩ := (inv_iff_of_busy hb).1 h
  cases hp : s.phase <;> simp only [microStep, hp] at hm
  case idle => exact absurd hp hne
  case eCheck => exact microECheck_inv h hp hi hm
  case eValidate => exact microEValidate_inv h hp hi hm
  case eHeader => exact microEHeader_inv h hp hi hm
  case eLoad => exact microELoad_inv h hp hi hm
  case eEmit => exact microEEmit_inv h hp hi hm
  case eFlush => exact microEFlush_inv h hp hi hm
  case dCheck0 => exact microDCheck0_inv h hp hi hm
  case dHeader => exact microDHeader_inv h hp hi hm
  case dCheck => exact microDCheck_inv h hp hi hm
  case dFill => exact microDFill_inv h hp hi hm
  case dExtract => exact microDExtract_inv h hp hi hm

theorem blockTurn_inv {s t : State} (h : s.inv = true) (hm : blockTurn s = .next t) : t.inv = true := by
  obtain ⟨-, rfl⟩ | ⟨hb, hm⟩ := blockTurn_cases hm
  · exact h
  · exact microStep_inv hb h hm

/-- An accepted command starts in a phase with nothing read, written or held (rule R89). -/
theorem accept_inv (c : Cmd) {s : State} (h : IdleInv s) : (accept c s).inv = true := by
  have hrun : Running (accept c s) :=
    ⟨rfl, rfl, rfl, rfl, rfl, by simp, by simp, h.mem, by simp, h.plat⟩
  cases c with
  | encode => exact hrun.inv (by simp) ((phaseInv_eCheck rfl).2 ⟨rfl, rfl, rfl, rfl, rfl⟩)
  | decode => exact hrun.inv (by simp) ((phaseInv_dCheck0 rfl).2 ⟨rfl, rfl, rfl, rfl, rfl⟩)

theorem presentCommand_inv (w : Word) {s : State} (h : s.inv = true) : (presentCommand w s).inv = true := by
  obtain ⟨hb, -, e⟩ | ⟨hb, -, e⟩ | ⟨-, e⟩ := presentCommand_cases w s <;> rw [e]
  · exact accept_inv _ ((inv_iff_of_idle hb).1 h)
  · exact accept_inv _ ((inv_iff_of_idle hb).1 h)
  · exact h

/-- While BUSY the bits a write of STATUS clears are 0 already but for CMD_REJ (rule R135). -/
theorem clearStatus_inv (w : Word) {s : State} (h : s.inv = true) : (clearStatus w s).inv = true := by
  obtain hs | ⟨hs, hp, hi⟩ := inv_cases h
  · refine IdleInv.inv { hs with notBoth := ?_, errCode := ?_ }
    · exact hs.notBoth.imp (by simp +contextual [clearStatus]) (by simp +contextual [clearStatus])
    · exact hs.errCode.imp id (And.imp id (by simp +contextual [clearStatus]))
  · exact Running.inv { hs with done := by simp [clearStatus, hs.done], err := by simp [clearStatus, hs.err] } hp hi

/-- A descriptor write is ignored while BUSY, and no clause about an idle machine names a descriptor (rule R34). -/
theorem whenIdle_inv {f : State → State} {s : State} (hf : IdleInv s → IdleInv (f s)) (h : s.inv = true) :
    (whenIdle f s).inv = true := by
  obtain ⟨-, e⟩ | ⟨hb, e⟩ := whenIdle_cases f s <;> rw [e]
  · exact h
  · exact (hf ((inv_iff_of_idle hb).1 h)).inv

theorem exec_inv {i : Instr} {s t : State} (h : s.inv = true) (hx : exec i s = .next t) : t.inv = true := by
  obtain ⟨-, v, rfl⟩ | ⟨w, -, -, rfl⟩ | ⟨w, -, rfl⟩ | ⟨w, -, rfl⟩ | ⟨w, -, rfl⟩ | ⟨w, -, rfl⟩ | ⟨w, -, rfl⟩ |
    ⟨w, -, rfl⟩ | ⟨-, -, rfl⟩ := exec_cases hx
  · exact h
  · exact presentCommand_inv w h
  · exact clearStatus_inv w h
  · exact h
  · exact whenIdle_inv (fun hs => { hs with }) h
  · exact whenIdle_inv (fun hs => { hs with }) h
  · exact whenIdle_inv (fun hs => { hs with }) h
  · exact whenIdle_inv (fun hs => { hs with }) h
  · exact h

theorem hostReadByte_inv {a : Nat} {s t : State} (h : s.inv = true) (hr : hostReadByte a s = .next t) :
    t.inv = true := by
  obtain ⟨-, v, rfl⟩ := hostReadByte_cases hr
  obtain ⟨n, e⟩ := afterRead_eq s
  rw [e]
  exact h

theorem blockHasWritten_inRange {a : Nat} {s : State} (h : blockHasWritten a s = true) :
    s.dstAddr.toNat ≤ a ∧ a < s.dstAddr.toNat + s.outPos.toNat := by
  simp only [blockHasWritten, Bool.and_eq_true, decide_eq_true_eq] at h
  exact h.2

/-- A racing write is recorded as a store only at a byte the block has stored (rule R67). -/
theorem hostWriteByte_inv {a : Nat} {v : Byte} {s t : State} (h : s.inv = true) (hw : hostWriteByte a v s = .next t) :
    t.inv = true := by
  obtain ⟨ha, b, n, rfl⟩ := hostWriteByte_cases hw
  obtain hs | ⟨hs, hp, hi⟩ := inv_cases h
  · exact IdleInv.inv { hs with
      mem := Memory.wf_memSet _ _ _ ha hs.mem
      stale := by simp [hs.busy, hs.stale]
      dstSeen := by simp [blockHasWritten, hs.busy, hs.dstSeen] }
  · refine Running.inv { hs with mem := Memory.wf_memSet _ _ _ ha hs.mem, seen := ?_ } hp hi
    intro c hc
    by_cases hbw : blockHasWritten a s = true
    · rw [if_pos hbw] at hc
      obtain rfl | hc := List.mem_cons.1 hc
      · exact blockHasWritten_inRange hbw
      · exact hs.seen c hc
    · rw [if_neg hbw] at hc
      exact hs.seen c hc

/-- Right after reset the machine is idle with every register 0; memory, events and platform are as they come. -/
theorem reset_inv {m : Memory} {p : Platform} (hm : Memory.wf m = true) (hp : p.wellFormed = true)
    (inbox : List Event) (v : Word) (n : Nat) :
    State.inv { State.reset with mem := m, draws := n, busRdata := v, inbox := inbox, plat := p } = true :=
  IdleInv.inv ⟨rfl, rfl, .inl rfl, rfl, rfl, .inl rfl, hm, rfl, rfl, hp⟩

theorem resetMemory_wf {s : State} (h : Memory.wf s.mem = true) : Memory.wf (resetMemory s).mem = true := by
  unfold resetMemory
  split
  · obtain ⟨m, k, e, hw, -⟩ := scribble_spec (outputLength s) s.dstAddr.toNat s
    rw [e]
    exact hw h
  · exact h

theorem inv_mem_plat {s : State} (h : s.inv = true) : Memory.wf s.mem = true ∧ s.plat.wellFormed = true := by
  obtain hs | ⟨hs, -⟩ := inv_cases h
  · exact ⟨hs.mem, hs.plat⟩
  · exact ⟨hs.mem, hs.plat⟩

theorem resetBlock_inv {s : State} (h : s.inv = true) : (resetBlock s).inv = true := by
  obtain ⟨hm, hp⟩ := inv_mem_plat h
  exact reset_inv (resetMemory_wf hm) hp _ _ _

/-- Settles O33, by the invariant of an idle machine. -/
theorem invariantAtReset : Obligations.InvariantAtReset :=
  ⟨reset_inv (m := []) rfl (by decide) _ _ _, fun _ _ _ hm hp => reset_inv hm hp _ _ _⟩

/-- Settles O34, by the agent whose step it is; the block's by the phase. -/
theorem everyStepKeepsInvariant : Obligations.EveryStepKeepsInvariant := by
  intro s t h hstep
  obtain ⟨-, hb⟩ | ⟨e, rest, -, ⟨-, hb⟩ | ⟨a, i, -, -, hx⟩ | ⟨a, -, hr⟩ | ⟨a, v, -, hw⟩ | ⟨-, rfl⟩⟩ :=
    step_cases hstep
  · exact blockTurn_inv h hb
  · exact blockTurn_inv (by exact h) hb
  · exact exec_inv (by exact h) hx
  · exact hostReadByte_inv (by exact h) hr
  · exact hostWriteByte_inv (by exact h) hw
  · exact resetBlock_inv (by exact h)

end Sys2Proof.Machine
end

section
/-! SUPPORT. The reset values (rule R47) and the interrupt output (rule R44), and the obligations about them. -/

namespace Sys2Proof.Machine

/-! ## Reset -/

/-- A register read from State.reset answers 0 but for ID: the reset values, by the register. -/
theorem exec_read_reset {i : Instr} (h : i.direction = .read) :
    exec i State.reset = .next (busReturn (if i = .rdId then Config.idValue else 0#32) State.reset) := by
  cases i <;> cases h <;> rfl

theorem resetMemory_of_idle {s : State} (h : s.busy = false) : resetMemory s = s := by
  simp [resetMemory, h]

theorem step_reset {s : State} {rest : List Event} (h : s.inbox = .reset :: rest) :
    step s = .next (resetBlock { s with inbox := rest }) := by
  simp [step, serveNext, nextEvent, serve, serveUnread, h]

/-- Settles O1, by the register read and by what a reset leaves of an idle block's memory. -/
theorem resetLeavesRegistersZero : Obligations.ResetLeavesRegistersZero := by
  refine ⟨fun i hi => exec_read_reset hi, rfl, rfl, rfl, fun s rest hn hb => ?_⟩
  rw [step_reset hn, resetBlock, resetMemory_of_idle (by exact hb)]

/-! ## The interrupt output -/

theorem irq_iff (s : State) :
    irq s = true ↔ (s.done = true ∧ s.doneIe = true) ∨ (s.err = true ∧ s.errIe = true) := by
  simp [irq]

theorem irq_clearStatus (w : Word) (s : State) :
    irq (clearStatus w s) = (s.done && !w.getLsbD 1 && s.doneIe || s.err && !w.getLsbD 2 && s.errIe) := rfl

theorem irq_setIrqEn (w : Word) (s : State) :
    irq (setIrqEn w s) = (s.done && w.getLsbD 0 || s.err && w.getLsbD 1) := rfl

theorem irq_accept (c : Cmd) (s : State) : irq (accept c s) = false := rfl

/-- A valid command word presented to an idle block is accepted (rule R87). -/
theorem presentCommand_of_idle {s : State} (hb : s.busy = false) :
    presentCommand 1#32 s = accept .encode s ∧ presentCommand 2#32 s = accept .decode s := by
  simp [presentCommand, hb, decodeCmd_eq]

/-- Settles O17, by the registers each clause's step leaves. -/
theorem interruptIsLevel : Obligations.InterruptIsLevel := by
  refine ⟨irq_iff, fun s w => ⟨_, rfl, irq_clearStatus w s, ?_, ?_⟩, fun s w => ⟨_, rfl, irq_setIrqEn w s, ?_, ?_⟩,
    fun s t hb h => ?_, rfl⟩
  · rintro ⟨he, hw⟩
    rw [irq_clearStatus, he, hw]
    simp
  · rintro ⟨hd, hw⟩
    rw [irq_clearStatus, hd, hw]
    simp
  · rintro ⟨he, hw⟩
    rw [irq_setIrqEn, he, hw]
    simp
  · rintro ⟨hd, hw⟩
    rw [irq_setIrqEn, hd, hw]
    simp
  · obtain ⟨he, hd⟩ := presentCommand_of_idle hb
    obtain h | h := h <;> obtain rfl := Host.Outcome.next.inj h
    · rw [he, irq_accept]
    · rw [hd, irq_accept]

end Sys2Proof.Machine
end

section
/-! SUPPORT. The decoder and the encoder are inverse to each other (rules R55, R73, R83), and the obligations about
bus accesses. -/

namespace Sys2Proof

/-! ## The encoder against the decoder -/

open Laws.Encoding in
/-- Every instruction's own law (rules R18, R55, R83), by the instruction. -/
theorem statement_of_instr (i : Instr) : Laws.Encoding.Statement i := by
  cases i
  exacts [encode, decode, rdId, wrId _, rdCmd, wrCmd _, rdStatus, wrStatus _, rdIrqEn, wrIrqEn _,
    rdSrcAddr, wrSrcAddr _, rdSrcLen, wrSrcLen _, rdDstAddr, wrDstAddr _, rdDstCap, wrDstCap _,
    rdCount, wrCount _, rdOutLen, wrOutLen _, rdErrIndex, wrErrIndex _, rdErrValue, wrErrValue _,
    rdAcc, wrAcc _, rdHeld, wrHeld _, rdInPos, wrInPos _, rdOutPos, wrOutPos _]

theorem decodeAccess_encodeAccess {i : Instr} (h : i.wellFormed = true) (base : Nat) :
    decodeAccess base (encodeAccess base i) = .ok i := by
  obtain ⟨-, -, hd⟩ := statement_of_instr i
  exact hd h base

/-- A word written to CMD stands for a write of that word to CMD (rules R72, R73). -/
theorem decodeCmdWrite_access (w : Word) :
    (decodeCmdWrite w).offset = 0x04 ∧ (decodeCmdWrite w).direction = .write w := by
  by_cases h1 : w = 1#32
  · subst h1; decide
  by_cases h2 : w = 2#32
  · subst h2; decide
  simp [decodeCmdWrite, decodeCmd_eq, h1, h2, Instr.offset, Instr.direction]

theorem decodeRead_access {k : Nat} {i : Instr} (h : decodeRead k = .ok i) :
    i.offset = 4 * k ∧ i.direction = .read := by
  unfold decodeRead at h
  split at h <;> cases h <;> exact ⟨rfl, rfl⟩

theorem decodeWrite_access {k : Nat} {w : Word} {i : Instr} (h : decodeWrite k w = .ok i) :
    i.offset = 4 * k ∧ i.direction = .write w := by
  unfold decodeWrite at h
  split at h <;> cases h
  case h_2 => exact decodeCmdWrite_access w
  all_goals exact ⟨rfl, rfl⟩

theorem decodeRead_ok {k : Nat} (hk : k < 16) : ∃ i, decodeRead k = .ok i := by
  interval_cases k <;> exact ⟨_, rfl⟩

theorem decodeWrite_ok {k : Nat} (hk : k < 16) (w : Word) : ∃ i, decodeWrite k w = .ok i := by
  interval_cases k <;> exact ⟨_, rfl⟩

/-- An aligned 32-bit access to the window decodes by its register number and direction (rule R55). -/
theorem decodeAccess_aligned {base : Nat} {a : BusAccess} (hlo : base ≤ a.addr) (hhi : a.addr < base + 64)
    (hb : a.bytes = 4) (h4 : (a.addr - base) % 4 = 0) :
    decodeAccess base a = match a.dir with
      | .read => decodeRead ((a.addr - base) / 4)
      | .write w => decodeWrite ((a.addr - base) / 4) w := by
  obtain ⟨addr, bytes, dir⟩ := a
  obtain rfl : bytes = 4 := hb
  obtain ⟨o, rfl⟩ : ∃ o, addr = base + o := ⟨addr - base, (Nat.add_sub_cancel' hlo).symm⟩
  simp only [Nat.add_sub_cancel_left] at h4 ⊢
  exact decodeAccess_admitted base o dir (Nat.lt_of_add_lt_add_left hhi) h4

/-- The access decoded is the instruction's own: its register number and direction are (rule R83). -/
theorem encodeAccess_of_decodeAccess {base : Nat} {a : BusAccess} {i : Instr} (h : decodeAccess base a = .ok i) :
    encodeAccess base i = a := by
  obtain ⟨hlo, hhi, hb, h4⟩ := decodeAccess_ok h
  rw [decodeAccess_aligned hlo hhi hb h4] at h
  have access : i.offset = 4 * ((a.addr - base) / 4) ∧ i.direction = a.dir := by
    split at h
    · rename_i hd
      rw [hd]
      exact decodeRead_access h
    · rename_i hd
      rw [hd]
      exact decodeWrite_access h
  obtain ⟨ho, hd⟩ := access
  have haddr : base + i.offset = a.addr := by omega
  rw [encodeAccess, haddr, hd, ← hb]

/-- Settles O5, by the two directions above. -/
theorem accessHasOneMeaning : Obligations.AccessHasOneMeaning := by
  intro base a i
  constructor
  · exact fun h => ⟨Machine.decodeAccess_wellFormed h, encodeAccess_of_decodeAccess h⟩
  · rintro ⟨hw, rfl⟩
    exact decodeAccess_encodeAccess hw base

/-! ## A bus access as a step -/

namespace Machine

theorem step_bus {s : State} {a : BusAccess} {rest : List Event} (h : s.inbox = .bus a :: rest) :
    step s = busAccess a { s with inbox := rest } := by
  simp [step, serveNext, nextEvent, serve, serveUnread, h]

theorem busAccess_ok {s : State} {a : BusAccess} {i : Instr} (h : decodeAccess s.plat.base a = .ok i) :
    busAccess a s = exec i s := by
  simp [busAccess, h]

theorem busAccess_rejected {s : State} {a : BusAccess} {r : Reject} (h : decodeAccess s.plat.base a = .rejected r) :
    busAccess a s = .refused (.unadmittedAccess r) := by
  simp [busAccess, h]

/-- Settles O6: an aligned word has a register number below 16, and nothing else decodes. -/
theorem onlyAlignedWordsAdmitted : Obligations.OnlyAlignedWordsAdmitted := by
  intro s a rest hn hlo hhi
  rw [step_bus hn]
  constructor
  · rintro ⟨hb, h4⟩
    have hk : (a.addr - s.plat.base) / 4 < 16 := by omega
    have hok : ∃ i, decodeAccess s.plat.base a = .ok i := by
      rw [decodeAccess_aligned hlo hhi hb h4]
      split
      · exact decodeRead_ok hk
      · exact decodeWrite_ok hk _
    obtain ⟨i, hi⟩ := hok
    exact ⟨i, hi, busAccess_ok hi⟩
  · intro hna
    cases hd : decodeAccess s.plat.base a with
    | ok i =>
      obtain ⟨-, -, hb, h4⟩ := decodeAccess_ok hd
      exact absurd ⟨hb, h4⟩ hna
    | rejected r => exact ⟨r, busAccess_rejected hd⟩

end Machine

end Sys2Proof
end

section
/-! SUPPORT. Where the running transaction reads, stores and gets stuck (rules R49, R56, R59, R67): the block's accesses
as equations, and the obligations about one micro-step. -/

namespace Sys2Proof.Machine

/-! ## The block's turn while BUSY -/

theorem step_blockTurn_busy {s₀ s : State} (h : BlockTurnAt s₀ s) (hb : s.busy = true) : step s₀ = microStep s := by
  rw [step_blockTurn h, blockTurn, if_pos hb]

section PhaseSteps

variable {s₀ s : State} (hn : BlockTurnAt s₀ s) (hb : s.busy = true)

include hn hb

theorem step_eValidate (hp : s.phase = .eValidate) : step s₀ = microEValidate s := by
  simp [step_blockTurn_busy hn hb, microStep, hp]

theorem step_eHeader (hp : s.phase = .eHeader) : step s₀ = microEHeader s := by
  simp [step_blockTurn_busy hn hb, microStep, hp]

theorem step_eLoad (hp : s.phase = .eLoad) : step s₀ = microELoad s := by
  simp [step_blockTurn_busy hn hb, microStep, hp]

theorem step_eEmit (hp : s.phase = .eEmit) : step s₀ = microEEmit s := by
  simp [step_blockTurn_busy hn hb, microStep, hp]

theorem step_eFlush (hp : s.phase = .eFlush) : step s₀ = microEFlush s := by
  simp [step_blockTurn_busy hn hb, microStep, hp]

theorem step_dHeader (hp : s.phase = .dHeader) : step s₀ = microDHeader s := by
  simp [step_blockTurn_busy hn hb, microStep, hp]

theorem step_dFill (hp : s.phase = .dFill) : step s₀ = microDFill s := by
  simp [step_blockTurn_busy hn hb, microStep, hp]

theorem step_dExtract (hp : s.phase = .dExtract) : step s₀ = microDExtract s := by
  simp [step_blockTurn_busy hn hb, microStep, hp]

end PhaseSteps

theorem reaches_word {s : State} {a : Nat} : Reaches s a 4 ↔ ramWord s a = true := (ramWord_iff s a).symm

/-! ## Accesses the block cannot complete (rule R49) -/

theorem blockReadByte_stuck {s : State} {a : Nat} (h : ramAt s a = false) : blockReadByte a s = none := by
  simp [blockReadByte, h]

theorem blockReadWord_stuck {s : State} {a : Nat} (h : ¬ Reaches s a 4) : blockReadWord a s = none := by
  rw [blockReadWord, if_neg (fun hr => h (reaches_word.2 hr))]

theorem blockWriteByte_stuck {s : State} {a : Nat} (h : ramAt s a = false) (b : Byte) :
    blockWriteByte a b s = none := by
  simp [blockWriteByte, h]

theorem blockWriteWord_stuck {s : State} {a : Nat} (h : ¬ Reaches s a 4) (w : Word) : blockWriteWord a w s = none := by
  rw [blockWriteWord, if_neg (fun hr => h (reaches_word.2 hr))]

/-- Settles O30, by the phase. -/
theorem unreachableAccessIsStuck : Obligations.UnreachableAccessIsStuck := by
  intro s₀ s hn hb
  refine ⟨?_, ?_, ?_, ?_⟩
  · rintro (hp | hp) hr
    · simp [step_eValidate hn hb hp, microEValidate, blockReadWord_stuck hr]
    · simp [step_eLoad hn hb hp, microELoad, blockReadWord_stuck hr]
  · rintro (⟨hp, hout⟩ | ⟨hp, hh⟩ | ⟨hp, hlo, hhi⟩) hr
    · have hout : ¬ 3 < s.outPos.toNat := by omega
      simp [step_eHeader hn hb hp, microEHeader, hout, blockWriteByte_stuck hr]
    · have hr : ramAt (emit8 s).2 (s.dstAddr.toNat + s.outPos.toNat) = false := hr
      simp [step_eEmit hn hb hp, microEEmit, hh, blockWriteByte_stuck hr]
    · have hr : ramAt (padFlush s).2 (s.dstAddr.toNat + s.outPos.toNat) = false := hr
      have hh : ¬ (s.held.toNat = 0 ∨ 7 < s.held.toNat) := by omega
      simp only [step_eFlush hn hb hp, microEFlush, if_neg hh, padFlush_fields, blockWriteByte_stuck hr]
  · rintro (hp | ⟨hp, hin⟩) hr
    · simp [step_dHeader hn hb hp, microDHeader, blockReadByte_stuck hr]
    · simp [step_dFill hn hb hp, microDFill, hin, blockReadByte_stuck hr]
  · rintro ⟨hp, hh⟩ hr
    have hr : ¬ Reaches (pull9 s).2 (s.dstAddr.toNat + s.outPos.toNat) 4 := hr
    simp [step_dExtract hn hb hp, microDExtract, hh, blockWriteWord_stuck hr]

/-! ## Raced reads (rules R57, R67) -/

/-- A byte the block can read is one of the values it had since the command. -/
theorem blockReadByte_next {s : State} {a : Nat} (h : ramAt s a = true) :
    ∃ b n, blockReadByte a s = some (b, { s with draws := n }) ∧ b ∈ memByte s.mem a :: staleAt s a := by
  obtain ⟨b, n, hb, e⟩ := drawByte_eq (memByte s.mem a) (staleAt s a) s
  exact ⟨b, n, by rw [blockReadByte, if_pos h, readByte, e], hb⟩

/-- A word the block can read is made of such bytes. -/
theorem blockReadWord_next {s : State} {a : Nat} (h : Reaches s a 4) :
    ∃ w n, blockReadWord a s = some (w, { s with draws := n }) ∧
      ∀ j, j < 4 → wordByte w j ∈ memByte s.mem (a + j) :: staleAt s (a + j) := by
  obtain ⟨w, n, e, hw⟩ := readWord_spec a s
  exact ⟨w, n, by rw [blockReadWord, if_pos (reaches_word.1 h), e], hw⟩

theorem elementInRange_eq_false_iff (w : Word) : elementInRange w = false ↔ w.toNat < 1 ∨ 300 < w.toNat := by
  rw [← Bool.not_eq_true, elementInRange_iff]
  omega

theorem microEValidate_next {s : State} (h : Reaches s (s.srcAddr.toNat + s.inPos.toNat) 4) :
    ∃ w n, (∀ j, j < 4 → wordByte w j ∈ memByte s.mem (s.srcAddr.toNat + s.inPos.toNat + j) ::
        staleAt s (s.srcAddr.toNat + s.inPos.toNat + j)) ∧
      microEValidate s = .next (
        if w.toNat < 1 ∨ 300 < w.toNat then
          raise .outOfRange (BitVec.ofNat 32 (s.inPos.toNat / 4)) w { s with draws := n }
        else validateNext { s with draws := n }) := by
  obtain ⟨w, n, e, hw⟩ := blockReadWord_next h
  refine ⟨w, n, hw, ?_⟩
  by_cases hr : w.toNat < 1 ∨ 300 < w.toNat
  · simp only [microEValidate, e, (elementInRange_eq_false_iff w).2 hr, if_pos hr, Bool.false_eq_true, if_false]
  · have hin : elementInRange w = true := (elementInRange_iff w).2 (by omega)
    simp only [microEValidate, e, hin, if_true, if_neg hr]

theorem microELoad_next {s : State} (h : Reaches s (s.srcAddr.toNat + s.inPos.toNat) 4) :
    ∃ w n, (∀ j, j < 4 → wordByte w j ∈ memByte s.mem (s.srcAddr.toNat + s.inPos.toNat + j) ::
        staleAt s (s.srcAddr.toNat + s.inPos.toNat + j)) ∧
      microELoad s = .next { push9 (groupOf w) { s with draws := n } with
        inPos := s.inPos + 4#32, phase := .eEmit } := by
  obtain ⟨w, n, e, hw⟩ := blockReadWord_next h
  exact ⟨w, n, hw, by simp only [microELoad, e]⟩

theorem microDHeader_next {s : State} (h : ramAt s (s.srcAddr.toNat + s.inPos.toNat) = true) :
    ∃ b n, b ∈ memByte s.mem (s.srcAddr.toNat + s.inPos.toNat) :: staleAt s (s.srcAddr.toNat + s.inPos.toNat) ∧
      microDHeader s = .next (headerShift b { s with draws := n }) := by
  obtain ⟨b, n, e, hb⟩ := blockReadByte_next h
  exact ⟨b, n, hb, by simp only [microDHeader, e]⟩

theorem microDFill_next {s : State} (hin : s.inPos ≠ s.srcLen)
    (h : ramAt s (s.srcAddr.toNat + s.inPos.toNat) = true) :
    ∃ b n, b ∈ memByte s.mem (s.srcAddr.toNat + s.inPos.toNat) :: staleAt s (s.srcAddr.toNat + s.inPos.toNat) ∧
      microDFill s = .next (fillNext (fill8 b { s with draws := n })) := by
  obtain ⟨b, n, e, hb⟩ := blockReadByte_next h
  exact ⟨b, n, hb, by simp only [microDFill, if_neg hin, e]⟩

theorem add_one_eq_four_iff (p : Word) : p + 1#32 = 4#32 ↔ p = 3#32 := by
  constructor <;> intro h <;> bv_omega

/-- Settles O52, by the phase's micro-step as an equation on the word or byte read. -/
theorem racedReadIsSomeValue : Obligations.RacedReadIsSomeValue := by
  refine ⟨fun s₀ s hn hb hp hr => ?_, fun s₀ s hn hb hp hh ha hr => ?_, fun s₀ s hn hb hp hr => ?_,
    fun s₀ s hn hb hp hin hh ha hr => ?_⟩
  · rw [step_eValidate hn hb hp]
    exact microEValidate_next hr
  · obtain ⟨w, n, hw, e⟩ := microELoad_next hr
    refine ⟨w, n, hw, ?_⟩
    rw [step_eLoad hn hb hp, e, push9_eq, groupOf_toNat]
  · obtain ⟨b, n, hbyte, e⟩ := microDHeader_next hr
    refine ⟨b, n, hbyte, ?_⟩
    rw [step_dHeader hn hb hp, e]
    obtain ⟨h4, e⟩ | ⟨h4, e⟩ := headerShift_cases b { s with draws := n }
    · rw [e, if_pos ((add_one_eq_four_iff _).1 h4)]
    · rw [e, if_neg (mt (add_one_eq_four_iff _).2 h4), ← hp]
  · obtain ⟨b, n, hbyte, e⟩ := microDFill_next hin hr
    refine ⟨b, n, hbyte, ?_⟩
    rw [step_dFill hn hb hp, e]
    have hheld : (fill8 b { s with draws := n }).held.toNat = s.held.toNat + 8 := fill8_held b _ hh
    obtain ⟨h9, e⟩ | ⟨h9, e⟩ := fillNext_cases (fill8 b { s with draws := n })
    · rw [e, if_pos (by omega), fill8_eq]
    · rw [e, if_neg (by omega), fill8_eq, ← hp]

/-! ## Stores, raced or not (rule R67) -/

/-- Settles O53, by what a store of one byte leaves. -/
theorem racedDestinationByteIsEither : Obligations.RacedDestinationByteIsEither := by
  intro s a b
  obtain ⟨v, n, e, hv⟩ := writeByte_spec a b s
  rw [e]
  refine ⟨?_, rfl, fun x hx => memByte_memSet_ne _ _ _ _ hx.symm⟩
  simpa using hv

end Sys2Proof.Machine
end

section
/-! SUPPORT. What a micro-step stores, where, and what a race leaves of it (rules R56, R67), and the obligations about
the stores of a micro-step. -/

namespace Sys2Proof.Machine

/-! ## The bytes a micro-step stores -/

theorem mem_storedAt {a : Nat} {b : Byte} {s : State} :
    b ∈ storedAt a s ↔ ∃ j, a = s.dstAddr.toNat + s.outPos.toNat + j ∧ (storedBytes s)[j]? = some b := by
  unfold storedAt
  split
  · rename_i hle
    rw [Option.mem_toList]
    constructor
    · exact fun h => ⟨_, (Nat.add_sub_cancel' hle).symm, h⟩
    · rintro ⟨j, rfl, h⟩
      rwa [Nat.add_sub_cancel_left]
  · rename_i hlt
    constructor
    · intro h
      cases h
    · rintro ⟨j, rfl, -⟩
      exact absurd (Nat.le_add_right _ j) hlt

theorem storedBytes_length (s : State) :
    (storedBytes s).length =
      if s.phase = .eHeader ∨ s.phase = .eEmit ∨ s.phase = .eFlush then 1
      else if s.phase = .dExtract then 4 else 0 := by
  cases hp : s.phase <;> simp [storedBytes, hp]

/-- A byte outside those stored has none. -/
theorem storedAt_eq_nil {a : Nat} {s : State}
    (h : a < s.dstAddr.toNat + s.outPos.toNat ∨ s.dstAddr.toNat + s.outPos.toNat + (storedBytes s).length ≤ a) :
    storedAt a s = [] := by
  refine List.eq_nil_iff_forall_not_mem.2 fun b hb => ?_
  obtain ⟨j, rfl, hj⟩ := mem_storedAt.1 hb
  have hlt := (List.getElem?_eq_some_iff.1 hj).1
  omega

/-! ## Memory after a store -/

/-- What a store of b leaves at an address: b, or in a race the byte that was there (rule R67). -/
def LandsOrStays (s : State) (a : Nat) (b v : Byte) : Prop :=
  v = b ∨ (staleAt s a ≠ [] ∧ v = memByte s.mem a)

theorem storedOrRaced_byte {s : State} {v : Byte} {x : Nat → Nat}
    (h : LandsOrStays s (s.dstAddr.toNat + s.outPos.toNat) (BitVec.ofNat 8 (x 0)) v) :
    StoredOrRaced s (memSet s.mem (s.dstAddr.toNat + s.outPos.toNat) v) 1 x := by
  refine ⟨fun j hj => ?_, fun a ha => memByte_memSet_ne _ _ _ _ (by omega)⟩
  obtain rfl : j = 0 := by omega
  simpa [LandsOrStays] using h

theorem storedOrRaced_word {s : State} {v0 v1 v2 v3 : Byte} {x : Nat → Nat}
    (h0 : LandsOrStays s (s.dstAddr.toNat + s.outPos.toNat) (BitVec.ofNat 8 (x 0)) v0)
    (h1 : LandsOrStays s (s.dstAddr.toNat + s.outPos.toNat + 1) (BitVec.ofNat 8 (x 1)) v1)
    (h2 : LandsOrStays s (s.dstAddr.toNat + s.outPos.toNat + 2) (BitVec.ofNat 8 (x 2)) v2)
    (h3 : LandsOrStays s (s.dstAddr.toNat + s.outPos.toNat + 3) (BitVec.ofNat 8 (x 3)) v3) :
    StoredOrRaced s
      (memSet (memSet (memSet (memSet s.mem (s.dstAddr.toNat + s.outPos.toNat) v0)
        (s.dstAddr.toNat + s.outPos.toNat + 1) v1) (s.dstAddr.toNat + s.outPos.toNat + 2) v2)
        (s.dstAddr.toNat + s.outPos.toNat + 3) v3) 4 x := by
  refine ⟨fun j hj => ?_, fun a ha => ?_⟩
  · interval_cases j
    · simpa [LandsOrStays, memByte_memSet] using h0
    · simpa [LandsOrStays, memByte_memSet] using h1
    · simpa [LandsOrStays, memByte_memSet] using h2
    · simpa [LandsOrStays, memByte_memSet] using h3
  · rw [memByte_memSet_ne _ _ _ _ (by omega), memByte_memSet_ne _ _ _ _ (by omega),
      memByte_memSet_ne _ _ _ _ (by omega), memByte_memSet_ne _ _ _ _ (by omega)]

@[simp] theorem validateNext_mem (s : State) : (validateNext s).mem = s.mem := by
  obtain ⟨-, e⟩ | ⟨-, e⟩ := validateNext_cases s <;> rw [e]

@[simp] theorem emitNext_mem (s : State) : (emitNext s).mem = s.mem := by
  obtain ⟨-, e⟩ | ⟨-, -, e⟩ | ⟨-, -, -, e⟩ | ⟨-, e⟩ := emitNext_cases s <;> rw [e]
  rfl

@[simp] theorem extractNext_mem (s : State) : (extractNext s).mem = s.mem := by
  obtain ⟨-, e⟩ | ⟨-, e⟩ := extractNext_cases s <;> rw [e]
  rfl

/-- The bytes the micro-step of s stores, as numbers. -/
def storedNat (s : State) (j : Nat) : Nat := ((storedBytes s).getD j 0#8).toNat

theorem ofNat_storedNat {s : State} {j : Nat} {b : Byte} (h : (storedBytes s)[j]? = some b) :
    BitVec.ofNat 8 (storedNat s j) = b := by
  simp [storedNat, h]

/-- m holds the bytes the micro-step of s stores, raced or not, and every other byte of s. -/
def Stores (s : State) (m : Memory) : Prop := StoredOrRaced s m (storedBytes s).length (storedNat s)

theorem stores_none {s : State} (h : storedBytes s = []) : Stores s s.mem :=
  ⟨fun j hj => by simp [h] at hj, fun _ _ => rfl⟩

theorem stores_byte {s : State} {b v : Byte} (h : storedBytes s = [b])
    (hv : LandsOrStays s (s.dstAddr.toNat + s.outPos.toNat) b v) :
    Stores s (memSet s.mem (s.dstAddr.toNat + s.outPos.toNat) v) := by
  have hb : BitVec.ofNat 8 (storedNat s 0) = b := ofNat_storedNat (by rw [h]; rfl)
  rw [Stores, h]
  exact storedOrRaced_byte (hb.symm ▸ hv)

/-- By the phase (rules R113, R115, R116, R127). -/
theorem microStep_stores {s t : State} (h : microStep s = .next t) : Stores s t.mem := by
  cases hp : s.phase <;> simp only [microStep, hp] at h
  case idle =>
    cases h
    exact stores_none (by simp [storedBytes, hp])
  case eCheck =>
    obtain ⟨-, e⟩ | ⟨-, _, -, e⟩ | ⟨-, -, e⟩ := microECheck_cases s <;> cases e.symm.trans h <;>
      exact stores_none (by simp [storedBytes, hp])
  case eValidate =>
    obtain ⟨w, n, -, ⟨-, rfl⟩ | ⟨-, rfl⟩⟩ := microEValidate_cases h
    · rw [validateNext_mem]
      exact stores_none (by simp [storedBytes, hp])
    · exact stores_none (by simp [storedBytes, hp])
  case eHeader =>
    obtain ⟨-, -, v, n, l, rfl, -, hv⟩ := microEHeader_cases h
    exact stores_byte (by simp [storedBytes, hp]) hv
  case eLoad =>
    obtain ⟨g, n, -, rfl⟩ := microELoad_cases h
    exact stores_none (by simp [storedBytes, hp])
  case eEmit =>
    obtain ⟨-, -, v, n, l, rfl, -, hv⟩ := microEEmit_cases h
    rw [emitNext_mem]
    exact stores_byte (by simp [storedBytes, hp]) hv
  case eFlush =>
    obtain ⟨-, -, -, v, n, rfl, hv⟩ := microEFlush_cases h
    exact stores_byte (by simp [storedBytes, hp]) hv
  case dCheck0 =>
    obtain ⟨-, e⟩ | ⟨-, _, -, e⟩ | ⟨-, -, e⟩ := microDCheck0_cases s <;> cases e.symm.trans h <;>
      exact stores_none (by simp [storedBytes, hp])
  case dHeader =>
    obtain ⟨-, b, n, rfl⟩ := microDHeader_cases h
    exact stores_none (by simp [storedBytes, hp])
  case dCheck =>
    obtain ⟨_, -, e⟩ | ⟨-, -, e⟩ | ⟨-, -, e⟩ := microDCheck_cases s <;> cases e.symm.trans h <;>
      exact stores_none (by simp [storedBytes, hp])
  case dFill =>
    obtain ⟨-, rfl⟩ | ⟨-, -, b, n, rfl⟩ := microDFill_cases h <;> exact stores_none (by simp [storedBytes, hp])
  case dExtract =>
    obtain ⟨-, -, v0, v1, v2, v3, n, l, rfl, -, h0, h1, h2, h3⟩ := microDExtract_cases h
    have hs : storedBytes s = (List.range 4).map (wordByte (elementOf (pull9 s).1)) := by simp [storedBytes, hp]
    have hb (j : Nat) (hj : j < 4) : BitVec.ofNat 8 (storedNat s j) = wordByte (elementOf (pull9 s).1) j :=
      ofNat_storedNat (by simp [hs, hj])
    rw [extractNext_mem, Stores, hs, List.length_map, List.length_range]
    refine storedOrRaced_word ?_ ?_ ?_ ?_ <;> rw [hb _ (by decide)]
    · exact h0
    · exact h1
    · exact h2
    · exact h3

/-- Settles O37, by what each micro-step stores. -/
theorem microStepFootprint : Obligations.MicroStepFootprint := by
  intro s₀ s t hn hb h a
  rw [step_blockTurn_busy hn hb] at h
  obtain ⟨hin, hout⟩ := microStep_stores h
  rw [← storedBytes_length]
  refine ⟨fun ha => ⟨hout a ha, storedAt_eq_nil ha⟩, fun b hb => ?_⟩
  obtain ⟨j, rfl, hj⟩ := mem_storedAt.1 hb
  rw [← ofNat_storedNat hj]
  exact hin j (List.getElem?_eq_some_iff.1 hj).1

/-! ## Raced stores (rule R67) -/

theorem blockWriteByte_next {s : State} {a : Nat} (h : ramAt s a = true) (b : Byte) :
    blockWriteByte a b s = some (writeByte a b s) := if_pos h

theorem blockWriteWord_next {s : State} {a : Nat} (h : Reaches s a 4) (w : Word) :
    blockWriteWord a w s = some (writeWord a w s) := if_pos (reaches_word.1 h)

theorem microEHeader_next {s : State} (hout : s.outPos.toNat < 4)
    (hr : ramAt s (s.dstAddr.toNat + s.outPos.toNat) = true) : ∃ t, microEHeader s = .next t := by
  have h3 : ¬ 3 < s.outPos.toNat := by omega
  simp [microEHeader, h3, blockWriteByte_next hr]

theorem microEEmit_next {s : State} (hh : 8 ≤ s.held.toNat)
    (hr : ramAt s (s.dstAddr.toNat + s.outPos.toNat) = true) : ∃ t, microEEmit s = .next t := by
  replace hr : ramAt (emit8 s).2 (s.dstAddr.toNat + s.outPos.toNat) = true := hr
  simp [microEEmit, Nat.not_lt.2 hh, blockWriteByte_next hr]

theorem microEFlush_next {s : State} (h1 : 1 ≤ s.held.toNat) (h7 : s.held.toNat ≤ 7)
    (hr : ramAt s (s.dstAddr.toNat + s.outPos.toNat) = true) : ∃ t, microEFlush s = .next t := by
  replace hr : ramAt (padFlush s).2 (s.dstAddr.toNat + s.outPos.toNat) = true := hr
  have hh : ¬ (s.held.toNat = 0 ∨ 7 < s.held.toNat) := by omega
  simp only [microEFlush, if_neg hh, padFlush_fields, blockWriteByte_next hr, Host.Outcome.next.injEq, exists_eq']

theorem microDExtract_next {s : State} (hh : 9 ≤ s.held.toNat)
    (hr : Reaches s (s.dstAddr.toNat + s.outPos.toNat) 4) : ∃ t, microDExtract s = .next t := by
  replace hr : Reaches (pull9 s).2 (s.dstAddr.toNat + s.outPos.toNat) 4 := hr
  simp [microDExtract, Nat.not_lt.2 hh, blockWriteWord_next hr]

/-- What E_EMIT leads to, by how many bits were held before it (rule R115). -/
theorem emitNext_of_held {u : State} {h : Nat} (hu : u.held.toNat = h - 8) (h8 : 8 ≤ h) (h16 : h ≤ 16)
    (hp : u.phase = .eEmit) :
    emitNext u =
      if h = 16 then u
      else if u.inPos.toNat < 4 * u.count.toNat then { u with phase := .eLoad }
      else if 8 < h then { u with phase := .eFlush }
      else finish u := by
  obtain ⟨hh, e⟩ | ⟨hh, hin, e⟩ | ⟨h0, hh, hin, e⟩ | ⟨hh, e⟩ := emitNext_cases u
  · rw [e, if_pos (by omega), ← hp]
  · rw [e, if_neg (by omega), if_pos hin]
  · rw [e, if_neg (by omega), if_neg (by omega), if_pos (by omega)]
  · obtain rfl : h = 8 := by omega
    simp [emitNext, hh]

/-- What D_EXTRACT leads to, with OUT_POS moved past the element (rule R127). -/
theorem extractNext_eq (s : State) :
    extractNext s =
      if (s.outPos + 4#32).toNat = 4 * s.count.toNat then finish { s with outPos := s.outPos + 4#32 }
      else { { s with outPos := s.outPos + 4#32 } with phase := .dFill } := rfl

/-- Settles O57, by the phase: what the micro-step's store leaves, and the registers after it. -/
theorem racedStoreIsEither : Obligations.RacedStoreIsEither := by
  refine ⟨fun s₀ s hn hb hp hout hr => ?_, fun s₀ s hn hb hp h8 h16 ha hr => ?_, fun s₀ s hn hb hp h1 h7 ha hr => ?_,
    fun s₀ s hn hb hp h9 h16 ha hr => ?_⟩
  · obtain ⟨t, ht⟩ := microEHeader_next hout hr
    refine ⟨t, (step_eHeader hn hb hp).trans ht, ?_⟩
    obtain ⟨-, -, v, n, l, rfl, -, hv⟩ := microEHeader_cases ht
    rw [wordByte_eq] at hv
    refine ⟨storedOrRaced_byte hv, ?_⟩
    have hnext : (s.outPos + 1#32).toNat = s.outPos.toNat + 1 := toNat_add_pos (by omega)
    obtain ⟨h4, e⟩ | ⟨h4, e⟩ := headerNext_cases _ <;> rw [e]
    · replace h4 : (s.outPos + 1#32).toNat = 4 := h4
      rw [if_pos (by omega)]
    · replace h4 : (s.outPos + 1#32).toNat ≠ 4 := h4
      rw [if_neg (by omega), ← hp]
  · obtain ⟨t, ht⟩ := microEEmit_next h8 hr
    obtain ⟨-, -, v, n, l, e, -, hv⟩ := microEEmit_cases ht
    rw [emit8_eq] at hv
    refine ⟨t, _, (step_eEmit hn hb hp).trans ht, ?_, ?_, e.trans (emitNext_of_held (emit8_held s h8) h8 h16 hp)⟩
    · exact storedOrRaced_byte hv
    · rw [emit8_eq]
  · obtain ⟨t, ht⟩ := microEFlush_next h1 h7 hr
    refine ⟨t, (step_eFlush hn hb hp).trans ht, ?_⟩
    obtain ⟨-, -, -, v, n, rfl, hv⟩ := microEFlush_cases ht
    rw [padFlush_eq s h7 ha] at hv
    exact ⟨storedOrRaced_byte hv, rfl⟩
  · obtain ⟨t, ht⟩ := microDExtract_next h9 hr
    obtain ⟨-, -, v0, v1, v2, v3, n, l, e, -, h0, h1, h2, h3⟩ := microDExtract_cases ht
    have hw : (elementOf (pull9 s).1).toNat = s.acc.toNat / 2 ^ (s.held.toNat - 9) + 1 := by
      rw [elementOf_toNat, pull9_group, Nat.mod_eq_of_lt (pulled_lt s h9 ha)]
    rw [wordByte_eq, hw] at h0 h1 h2 h3
    refine ⟨t, _, (step_dExtract hn hb hp).trans ht, ?_, ?_, e.trans (extractNext_eq _)⟩
    · exact storedOrRaced_word h0 h1 h2 h3
    · rw [pull9_eq]

end Sys2Proof.Machine
end

section
/-! SUPPORT. The destination and the source of a transaction under the invariant (rules R59, R96, R97), the frame of an
instruction (rule R132), and the obligations about both. -/

namespace Sys2Proof.Machine

/-! ## The destination range -/

/-- The bytes of the source range: 4N for ENCODE, L for DECODE (rule R95). -/
def sourceLength (s : State) : Nat := if s.op = some .encode then 4 * s.srcLen.toNat else s.srcLen.toNat

/-- The bytes stored so far and the micro-step's own lie in the destination range, which is inside the memory and the
capacity and apart from the source; before the checks have passed it is empty. -/
structure DestinationFits (s : State) : Prop where
  stored : s.outPos.toNat + (storedBytes s).length ≤ outputLength s
  capacity : outputLength s ≤ s.dstCap.toNat
  addressed : s.dstAddr.toNat + outputLength s ≤ 4294967296
  disjoint : outputLength s = 0 ∨ s.srcAddr.toNat + sourceLength s ≤ s.dstAddr.toNat ∨
    s.dstAddr.toNat + outputLength s ≤ s.srcAddr.toNat

theorem sourceLength_of_encode {s : State} (h : encodeChecked s = true) : sourceLength s = 4 * s.count.toNat := by
  obtain ⟨hop, hcnt, -⟩ := (encodeChecked_iff s).1 h
  simp [sourceLength, hop, hcnt]

theorem sourceLength_of_decode {s : State} (h : decodeChecked0 s = true) : sourceLength s = s.srcLen.toNat := by
  simp [sourceLength, ((decodeChecked0_iff s).1 h).1]

theorem encOut_of_checked {s : State} (h : encodeChecked s = true) :
    encOut s.count.toNat = 4 + (9 * s.count.toNat + 7) / 8 := by
  obtain ⟨-, hpos, -⟩ := encodeChecked_bounds h
  rw [encOut, if_neg (by omega)]

/-- ENCODE past its checks (rule R96). -/
theorem encodeChecked_fits {s : State} {k : Nat} (h : encodeChecked s = true)
    (hl : outputLength s = encOut s.count.toNat) (hk : (storedBytes s).length = k)
    (hst : s.outPos.toNat + k ≤ 4 + (9 * s.count.toNat + 7) / 8) : DestinationFits s := by
  obtain ⟨-, -, h0, hck⟩ := (encodeChecked_iff s).1 h
  obtain ⟨-, hcap, hdst, hdisj⟩ := encodeCheck_none hck (toNat_ne_zero h0)
  rw [payload, ← encOut_of_checked h, ← hl] at hcap hdst hdisj
  rw [← encOut_of_checked h, ← hl, ← hk] at hst
  rw [← sourceLength_of_encode h] at hdisj
  exact ⟨hst, hcap, hdst, .inr hdisj⟩

/-- DECODE past its checks (rule R97). -/
theorem decodeChecked_fits {s : State} {k : Nat} (h : decodeChecked s = true)
    (hl : outputLength s = decOut s.count.toNat) (hk : (storedBytes s).length = k)
    (hst : s.outPos.toNat + k ≤ 4 * s.count.toNat) : DestinationFits s := by
  obtain ⟨hc, h0, hck⟩ := (decodeChecked_iff s).1 h
  obtain ⟨-, hcap, hdst, hdisj⟩ := decodeCheck_none hck (toNat_ne_zero h0)
  rw [decOut] at hl
  rw [← hl] at hcap hdst hdisj
  rw [← hl, ← hk] at hst
  rw [← sourceLength_of_decode hc] at hdisj
  exact ⟨hst, hcap, hdst, .inr hdisj⟩

/-- Before the checks have passed nothing is stored and no destination is claimed (rule R98). -/
theorem unchecked_fits {s : State} (hl : outputLength s = 0) (hout : s.outPos = 0#32) (hst : storedBytes s = []) :
    DestinationFits s := by
  have := s.dstAddr.isLt
  refine ⟨by simp [hout, hst], by omega, by omega, .inl hl⟩

/-- By the phase: OUT_POS and the bytes held in the buffer never outrun the output (rules R59, R107). -/
theorem destinationFits_of_inv {s : State} (hinv : s.inv = true) (hb : s.busy = true) : DestinationFits s := by
  obtain ⟨-, hne, hi⟩ := (inv_iff_of_busy hb).1 hinv
  cases hp : s.phase
  case idle => exact absurd hp hne
  case eCheck =>
    obtain ⟨-, -, -, hout, -⟩ := (phaseInv_eCheck hp).1 hi
    exact unchecked_fits (by simp [outputLength, hp]) hout (by simp [storedBytes, hp])
  case eValidate =>
    obtain ⟨-, -, -, hout, -⟩ := (phaseInv_eValidate hp).1 hi
    exact unchecked_fits (by simp [outputLength, hp]) hout (by simp [storedBytes, hp])
  case eHeader =>
    obtain ⟨hck, -, hout, -⟩ := (phaseInv_eHeader hp).1 hi
    exact encodeChecked_fits (k := 1) hck (by simp [outputLength, hp]) (by simp [storedBytes_length, hp]) (by omega)
  case eLoad =>
    obtain ⟨hck, hpk, hin, -⟩ := (phaseInv_eLoad hp).1 hi
    obtain ⟨h4, hout, hbits⟩ := (packedSoFar_iff s).1 hpk
    exact encodeChecked_fits (k := 0) hck (by simp [outputLength, hp]) (by simp [storedBytes_length, hp]) (by omega)
  case eEmit =>
    obtain ⟨hck, hpk, hin, h8⟩ := (phaseInv_eEmit hp).1 hi
    obtain ⟨h4, hout, hbits⟩ := (packedSoFar_iff s).1 hpk
    exact encodeChecked_fits (k := 1) hck (by simp [outputLength, hp]) (by simp [storedBytes_length, hp]) (by omega)
  case eFlush =>
    obtain ⟨hck, hpk, hin, h1, -⟩ := (phaseInv_eFlush hp).1 hi
    obtain ⟨h4, hout, hbits⟩ := (packedSoFar_iff s).1 hpk
    exact encodeChecked_fits (k := 1) hck (by simp [outputLength, hp]) (by simp [storedBytes_length, hp]) (by omega)
  case dCheck0 =>
    obtain ⟨-, -, -, hout, -⟩ := (phaseInv_dCheck0 hp).1 hi
    exact unchecked_fits (by simp [outputLength, hp]) hout (by simp [storedBytes, hp])
  case dHeader =>
    obtain ⟨-, -, hout, -⟩ := (phaseInv_dHeader hp).1 hi
    exact unchecked_fits (by simp [outputLength, hp]) hout (by simp [storedBytes, hp])
  case dCheck =>
    obtain ⟨-, -, hout, -⟩ := (phaseInv_dCheck hp).1 hi
    exact unchecked_fits (by simp [outputLength, hp]) hout (by simp [storedBytes, hp])
  case dFill =>
    obtain ⟨hck, hun, -⟩ := (phaseInv_dFill hp).1 hi
    obtain ⟨h4, hout, -, -⟩ := (unpackedSoFar_iff s).1 hun
    exact decodeChecked_fits (k := 0) hck (by simp [outputLength, hp]) (by simp [storedBytes_length, hp]) (by omega)
  case dExtract =>
    obtain ⟨hck, hun, -⟩ := (phaseInv_dExtract hp).1 hi
    obtain ⟨h4, hout, -, -⟩ := (unpackedSoFar_iff s).1 hun
    exact decodeChecked_fits (k := 4) hck (by simp [outputLength, hp]) (by simp [storedBytes_length, hp]) (by omega)

/-- A phase other than IDLE under the invariant is a transaction's (rule R46). -/
theorem busy_of_phase {s : State} (hinv : s.inv = true) (hp : s.phase ≠ .idle) : s.busy = true := by
  obtain h | ⟨h, -⟩ := inv_cases hinv
  · exact absurd h.phase hp
  · exact h.busy

theorem encodeChecked_of_storing {s : State} (hi : phaseInv s = true)
    (hp : s.phase = .eHeader ∨ s.phase = .eEmit ∨ s.phase = .eFlush) : encodeChecked s = true := by
  obtain hp | hp | hp := hp
  · exact ((phaseInv_eHeader hp).1 hi).1
  · exact ((phaseInv_eEmit hp).1 hi).1
  · exact ((phaseInv_eFlush hp).1 hi).1

/-- Settles O38, by the destination range. -/
theorem storesStayInDestination : Obligations.StoresStayInDestination := by
  intro s hinv
  constructor
  · intro hp
    have hb := busy_of_phase hinv (by rintro h; simp [h] at hp)
    obtain ⟨-, -, hi⟩ := (inv_iff_of_busy hb).1 hinv
    have hck := encodeChecked_of_storing hi hp
    have hk : (storedBytes s).length = 1 := by rw [storedBytes_length, if_pos hp]
    have hl : outputLength s = 4 + payload s.count.toNat := by
      rw [payload, ← encOut_of_checked hck]
      obtain hp | hp | hp := hp <;> simp only [outputLength, hp]
    obtain ⟨hst, hcap, hdst, hdisj⟩ := destinationFits_of_inv hinv hb
    rw [sourceLength_of_encode hck] at hdisj
    omega
  · intro hp
    have hb := busy_of_phase hinv (by simp [hp])
    obtain ⟨-, -, hi⟩ := (inv_iff_of_busy hb).1 hinv
    obtain ⟨hck, -⟩ := (phaseInv_dExtract hp).1 hi
    obtain ⟨hc, -⟩ := (decodeChecked_iff s).1 hck
    have hk : (storedBytes s).length = 4 := by simp [storedBytes_length, hp]
    have hl : outputLength s = 4 * s.count.toNat := by simp [outputLength, hp]
    obtain ⟨hst, hcap, hdst, hdisj⟩ := destinationFits_of_inv hinv hb
    rw [sourceLength_of_decode hc] at hdisj
    omega

/-! ## The frame of an instruction (rules R58, R132) -/

/-- Settles O39, by the kind of instruction. -/
theorem instructionFrame : Obligations.InstructionFrame := by
  intro s t i h
  obtain ⟨hd, v, rfl⟩ | ⟨w, hd, ho, rfl⟩ | ⟨w, rfl, rfl⟩ | ⟨w, rfl, rfl⟩ | ⟨w, rfl, rfl⟩ | ⟨w, rfl, rfl⟩ |
    ⟨w, rfl, rfl⟩ | ⟨w, rfl, rfl⟩ | ⟨hd, ho, rfl⟩ := exec_cases h
  · simp [busReturn, hd]
  · obtain ⟨-, -, e⟩ | ⟨-, -, e⟩ | ⟨-, e⟩ := presentCommand_cases w s <;> simp [e, hd, ho]
  · simp [clearStatus, Instr.direction, Instr.offset]
  · simp [setIrqEn, Instr.direction, Instr.offset]
  case inr.inr.inr.inr.inr.inr.inr.inr => simp [hd]
  all_goals cases hb : s.busy <;> simp [whenIdle, hb, Instr.direction, Instr.offset]

end Sys2Proof.Machine
end

section
/-! SUPPORT. The data a read returns to the host disturbs no step (rules R58, R132): each operation commutes with
`busReturn`, which changes that data alone. -/

namespace Sys2Proof.Machine

/-- The outcome with f applied to the state it answers. -/
def mapNext (f : State → State) : Host.Outcome State Fault Refusal → Host.Outcome State Fault Refusal
  | .next s => .next (f s)
  | .fault r => .fault r
  | .refused r => .refused r

section BusReturn

variable (v : Word) (s : State)

@[simp] theorem busReturn_fields :
    (busReturn v s).busy = s.busy ∧ (busReturn v s).phase = s.phase ∧ (busReturn v s).srcAddr = s.srcAddr ∧
    (busReturn v s).srcLen = s.srcLen ∧ (busReturn v s).dstAddr = s.dstAddr ∧ (busReturn v s).count = s.count ∧
    (busReturn v s).held = s.held ∧ (busReturn v s).inPos = s.inPos ∧ (busReturn v s).outPos = s.outPos ∧
    (busReturn v s).mem = s.mem ∧ (busReturn v s).inbox = s.inbox ∧ (busReturn v s).draws = s.draws ∧
    (busReturn v s).plat = s.plat := by
  simp [busReturn]

@[simp] theorem busReturn_functions :
    (∀ a, staleAt (busReturn v s) a = staleAt s a) ∧ (∀ a, ramAt (busReturn v s) a = ramAt s a) ∧
    (∀ a, ramWord (busReturn v s) a = ramWord s a) ∧ (∀ a, blockHasWritten a (busReturn v s) = blockHasWritten a s) ∧
    encodeCheck (busReturn v s) = encodeCheck s ∧ decodeCheck0 (busReturn v s) = decodeCheck0 s ∧
    decodeCheck (busReturn v s) = decodeCheck s ∧ outputLength (busReturn v s) = outputLength s :=
  ⟨fun _ => rfl, fun _ => rfl, fun _ => rfl, fun _ => rfl, rfl, rfl, rfl, rfl⟩

/-! ## The block's accesses -/

theorem drawByte_busReturn (b : Byte) (o : List Byte) :
    drawByte b o (busReturn v s) = (drawByte b o s).map id (busReturn v) := by
  cases o <;> rfl

theorem readByte_busReturn (a : Nat) : readByte a (busReturn v s) = (readByte a s).map id (busReturn v) :=
  drawByte_busReturn v s _ _

theorem writeByte_busReturn (a : Nat) (b : Byte) : writeByte a b (busReturn v s) = busReturn v (writeByte a b s) := by
  simp only [writeByte, busReturn_functions, busReturn_fields, drawByte_busReturn]
  rfl

theorem readWord_busReturn (a : Nat) : readWord a (busReturn v s) = (readWord a s).map id (busReturn v) := by
  simp only [readWord, readByte_busReturn, Prod.map_fst, Prod.map_snd]
  rfl

theorem writeWord_busReturn (a : Nat) (w : Word) :
    writeWord a w (busReturn v s) = busReturn v (writeWord a w s) := by
  simp only [writeWord, writeByte_busReturn]

theorem blockReadByte_busReturn (a : Nat) :
    blockReadByte a (busReturn v s) = (blockReadByte a s).map (Prod.map id (busReturn v)) := by
  simp only [blockReadByte, busReturn_functions, readByte_busReturn]
  split <;> rfl

theorem blockReadWord_busReturn (a : Nat) :
    blockReadWord a (busReturn v s) = (blockReadWord a s).map (Prod.map id (busReturn v)) := by
  simp only [blockReadWord, busReturn_functions, readWord_busReturn]
  split <;> rfl

theorem blockWriteByte_busReturn (a : Nat) (b : Byte) :
    blockWriteByte a b (busReturn v s) = (blockWriteByte a b s).map (busReturn v) := by
  simp only [blockWriteByte, busReturn_functions, writeByte_busReturn]
  split <;> rfl

theorem blockWriteWord_busReturn (a : Nat) (w : Word) :
    blockWriteWord a w (busReturn v s) = (blockWriteWord a w s).map (busReturn v) := by
  simp only [blockWriteWord, busReturn_functions, writeWord_busReturn]
  split <;> rfl

/-! ## The micro-steps -/

theorem validateNext_busReturn : validateNext (busReturn v s) = busReturn v (validateNext s) := by
  simp only [validateNext, busReturn_fields]
  split <;> rfl

theorem emitNext_busReturn : emitNext (busReturn v s) = busReturn v (emitNext s) := by
  simp only [emitNext, busReturn_fields]
  split_ifs <;> rfl

theorem extractNext_busReturn : extractNext (busReturn v s) = busReturn v (extractNext s) := by
  simp only [extractNext, busReturn_fields]
  split <;> rfl

theorem microECheck_busReturn : microECheck (busReturn v s) = mapNext (busReturn v) (microECheck s) := by
  simp only [microECheck, busReturn_fields, busReturn_functions]
  split
  · rfl
  · cases encodeCheck s <;> rfl

theorem microEValidate_busReturn : microEValidate (busReturn v s) = mapNext (busReturn v) (microEValidate s) := by
  simp only [microEValidate, busReturn_fields, blockReadWord_busReturn]
  cases blockReadWord (s.srcAddr.toNat + s.inPos.toNat) s with
  | none => rfl
  | some r =>
    simp only [Option.map_some, Prod.map, id_eq, validateNext_busReturn]
    split <;> rfl

theorem microEHeader_busReturn : microEHeader (busReturn v s) = mapNext (busReturn v) (microEHeader s) := by
  simp only [microEHeader, busReturn_fields, blockWriteByte_busReturn]
  split
  · rfl
  · cases blockWriteByte (s.dstAddr.toNat + s.outPos.toNat) (wordByte s.count s.outPos.toNat) s <;> rfl

theorem microELoad_busReturn : microELoad (busReturn v s) = mapNext (busReturn v) (microELoad s) := by
  simp only [microELoad, busReturn_fields, blockReadWord_busReturn]
  cases blockReadWord (s.srcAddr.toNat + s.inPos.toNat) s <;> rfl

theorem microEEmit_busReturn : microEEmit (busReturn v s) = mapNext (busReturn v) (microEEmit s) := by
  have e : emit8 (busReturn v s) = (emit8 s).map id (busReturn v) := rfl
  simp only [microEEmit, busReturn_fields, e, Prod.map_fst, Prod.map_snd, id_eq, blockWriteByte_busReturn]
  split
  · rfl
  · cases blockWriteByte ((emit8 s).2.dstAddr.toNat + (emit8 s).2.outPos.toNat) (emit8 s).1 (emit8 s).2 with
    | none => rfl
    | some u => exact congrArg Host.Outcome.next (emitNext_busReturn v { u with outPos := u.outPos + 1#32 })

theorem microEFlush_busReturn : microEFlush (busReturn v s) = mapNext (busReturn v) (microEFlush s) := by
  have e : padFlush (busReturn v s) = (padFlush s).map id (busReturn v) := rfl
  simp only [microEFlush, busReturn_fields, e, Prod.map_fst, Prod.map_snd, id_eq, blockWriteByte_busReturn]
  split
  · rfl
  · cases blockWriteByte ((padFlush s).2.dstAddr.toNat + (padFlush s).2.outPos.toNat) (padFlush s).1 (padFlush s).2 <;>
      rfl

theorem microDCheck0_busReturn : microDCheck0 (busReturn v s) = mapNext (busReturn v) (microDCheck0 s) := by
  simp only [microDCheck0, busReturn_fields, busReturn_functions]
  split
  · rfl
  · cases decodeCheck0 s <;> rfl

theorem microDHeader_busReturn : microDHeader (busReturn v s) = mapNext (busReturn v) (microDHeader s) := by
  simp only [microDHeader, busReturn_fields, blockReadByte_busReturn]
  cases blockReadByte (s.srcAddr.toNat + s.inPos.toNat) s <;> rfl

theorem microDCheck_busReturn : microDCheck (busReturn v s) = mapNext (busReturn v) (microDCheck s) := by
  simp only [microDCheck, busReturn_fields, busReturn_functions]
  cases decodeCheck s with
  | some e => rfl
  | none =>
    simp only []
    split <;> rfl

theorem microDFill_busReturn : microDFill (busReturn v s) = mapNext (busReturn v) (microDFill s) := by
  simp only [microDFill, busReturn_fields, blockReadByte_busReturn]
  split
  · rfl
  · cases blockReadByte (s.srcAddr.toNat + s.inPos.toNat) s <;> rfl

theorem microDExtract_busReturn : microDExtract (busReturn v s) = mapNext (busReturn v) (microDExtract s) := by
  have e : pull9 (busReturn v s) = (pull9 s).map id (busReturn v) := rfl
  simp only [microDExtract, busReturn_fields, e, Prod.map_fst, Prod.map_snd, id_eq, blockWriteWord_busReturn]
  split
  · rfl
  · cases blockWriteWord ((pull9 s).2.dstAddr.toNat + (pull9 s).2.outPos.toNat) (elementOf (pull9 s).1) (pull9 s).2 with
    | none => rfl
    | some u => exact congrArg Host.Outcome.next (extractNext_busReturn v u)

/-- By the phase. -/
theorem microStep_busReturn : microStep (busReturn v s) = mapNext (busReturn v) (microStep s) := by
  simp only [microStep, busReturn_fields]
  cases s.phase
  case idle => rfl
  case eCheck => exact microECheck_busReturn v s
  case eValidate => exact microEValidate_busReturn v s
  case eHeader => exact microEHeader_busReturn v s
  case eLoad => exact microELoad_busReturn v s
  case eEmit => exact microEEmit_busReturn v s
  case eFlush => exact microEFlush_busReturn v s
  case dCheck0 => exact microDCheck0_busReturn v s
  case dHeader => exact microDHeader_busReturn v s
  case dCheck => exact microDCheck_busReturn v s
  case dFill => exact microDFill_busReturn v s
  case dExtract => exact microDExtract_busReturn v s

theorem blockTurn_busReturn : blockTurn (busReturn v s) = mapNext (busReturn v) (blockTurn s) := by
  simp only [blockTurn, busReturn_fields, microStep_busReturn]
  split <;> rfl

/-! ## The other agents -/

theorem presentCommand_busReturn (w : Word) :
    presentCommand w (busReturn v s) = busReturn v (presentCommand w s) := by
  simp only [presentCommand, busReturn_fields]
  split
  · rfl
  · cases decodeCmd w <;> rfl

theorem hostWriteByte_busReturn (a : Nat) (b : Byte) :
    hostWriteByte a b (busReturn v s) = mapNext (busReturn v) (hostWriteByte a b s) := by
  simp only [hostWriteByte, busReturn_fields, busReturn_functions, drawByte_busReturn]
  split <;> rfl

theorem afterRead_busReturn : afterRead (busReturn v s) = busReturn v (afterRead s) := by
  simp only [afterRead, busReturn_fields]
  split <;> rfl

theorem scribble_busReturn (n a : Nat) : scribble n a (busReturn v s) = busReturn v (scribble n a s) := by
  induction n generalizing a s with
  | zero => rfl
  | succ n ih =>
    simp only [scribble, ← ih]
    split <;> rfl

theorem resetBlock_busReturn : resetBlock (busReturn v s) = busReturn v (resetBlock s) := by
  have e : resetMemory (busReturn v s) = busReturn v (resetMemory s) := by
    simp only [resetMemory, busReturn_fields, busReturn_functions, scribble_busReturn]
    split <;> rfl
  simp only [resetBlock, e]
  rfl

theorem whenIdle_busReturn {f : State → State} (hf : ∀ u, f (busReturn v u) = busReturn v (f u)) :
    whenIdle f (busReturn v s) = busReturn v (whenIdle f s) := by
  simp only [whenIdle, busReturn_fields, hf]
  split <;> rfl

variable {s} {t : State}

/-- An instruction does the same whatever was read before; its own data returned may replace that. -/
theorem exec_busReturn {i : Instr} (h : exec i s = .next t) :
    ∃ v', exec i (busReturn v s) = .next (busReturn v' t) := by
  cases i <;> cases h
  case encode | decode | wrCmd => exact ⟨v, congrArg Host.Outcome.next (presentCommand_busReturn v s _)⟩
  case wrSrcAddr | wrSrcLen | wrDstAddr | wrDstCap =>
    exact ⟨v, congrArg Host.Outcome.next (whenIdle_busReturn v s fun _ => by rfl)⟩
  all_goals exact ⟨_, rfl⟩

theorem busAccess_busReturn {a : BusAccess} (h : busAccess a s = .next t) :
    ∃ v', busAccess a (busReturn v s) = .next (busReturn v' t) := by
  cases hd : decodeAccess s.plat.base a with
  | ok i =>
    rw [busAccess_ok hd] at h
    rw [busAccess_ok (s := busReturn v s) hd]
    exact exec_busReturn v h
  | rejected r =>
    rw [busAccess_rejected hd] at h
    cases h

theorem serveUnread_busReturn {e : Event} (h : serveUnread e s = .next t) :
    ∃ v', serveUnread e (busReturn v s) = .next (busReturn v' t) := by
  cases e <;> simp only [serveUnread] at h ⊢
  case block => exact ⟨v, by rw [blockTurn_busReturn, h]; rfl⟩
  case bus a => exact busAccess_busReturn v h
  case hostRead a =>
    split at h
    · cases h
    · cases h
      exact ⟨v, by rw [if_neg ‹_›, afterRead_busReturn]⟩
  case hostWrite a b => exact ⟨v, by rw [hostWriteByte_busReturn, h]; rfl⟩
  case reset =>
    cases h
    exact ⟨v, by rw [resetBlock_busReturn]⟩

end BusReturn

/-! ## A step of any agent -/

/-- Serving an event is what it does as far as the block and memory go, and the data returned. -/
theorem serve_of_serveUnread {e : Event} {s t : State} (h : serveUnread e s = .next t) :
    ∃ v, serve e s = .next (busReturn v t) := by
  cases e
  case hostRead a =>
    simp only [serveUnread] at h
    split at h
    · cases h
    · cases h
      exact ⟨_, if_neg ‹_›⟩
  all_goals exact ⟨t.busRdata, h⟩

theorem nextEvent_busReturn (v : Word) (s : State) :
    nextEvent (busReturn v s) = (nextEvent s).map id (busReturn v) := by
  simp only [nextEvent, busReturn_fields]
  cases s.inbox <;> rfl

/-- A step from s does, whatever was read before, what its event does to s, but for the data returned. -/
theorem step_of_serveUnread {s t : State} (h : serveUnread (nextEvent s).1 (nextEvent s).2 = .next t) (v : Word) :
    ∃ v', step (busReturn v s) = .next (busReturn v' t) := by
  obtain ⟨v₁, h₁⟩ := serveUnread_busReturn v h
  obtain ⟨v₂, h₂⟩ := serve_of_serveUnread h₁
  exact ⟨v₂, by rw [step, serveNext, nextEvent_busReturn]; exact h₂⟩

end Sys2Proof.Machine
end

section
/-! SUPPORT. The other agents' accesses to the shared memory, in and out of a race (rules R48, R58, R66, R67), and the
obligations about them. -/

namespace Sys2Proof.Machine

/-! ## What the running transaction stores later -/

theorem run_succ {M : Host.Core} {s t : M.State} (h : M.step s = .next t) (k : Nat) : M.run (k + 1) s = M.run k t := by
  simp [Host.Core.run, h]

theorem step_of_run_one {M : Host.Core} {s t : M.State} (h : M.run 1 s = .next t) : M.step s = .next t := by
  cases hs : M.step s <;> simp [Host.Core.run, hs] at h
  rw [h]

theorem StoresLater.now {s s' w : State} {a : Nat} {b : Byte} (hb : s.busy = true) (hn : BlockTurnAt s s')
    (hw : step s = .next w) (h : b ∈ storedAt a s') : StoresLater s a b := by
  refine ⟨0, s, s', w, fun i hi => ?_, rfl, hn, hw, h⟩
  obtain rfl := Nat.le_zero.1 hi
  exact ⟨s, rfl, hb⟩

theorem StoresLater.later {s t : State} {a : Nat} {b : Byte} (hb : s.busy = true) (hs : step s = .next t)
    (h : StoresLater t a b) : StoresLater s a b := by
  obtain ⟨k, u, u', w, hbusy, hrun, h⟩ := h
  refine ⟨k + 1, u, u', w, fun i hi => ?_, (run_succ (M := Sys2Proof.core) hs k).trans hrun, h⟩
  cases i with
  | zero => exact ⟨s, rfl, hb⟩
  | succ i =>
    rw [run_succ (M := Sys2Proof.core) hs i]
    exact hbusy i (Nat.le_of_succ_le_succ hi)

/-- A byte stored ahead is stored in the first event, by the block, or ahead after it. -/
theorem mem_storesAhead_succ {fuel a : Nat} {s : State} {b : Byte} (h : b ∈ storesAhead (fuel + 1) a s) :
    s.busy = true ∧ ∃ t, serveUnread (nextEvent s).1 (nextEvent s).2 = .next t ∧
      (((nextEvent s).1 = .block ∧ b ∈ storedAt a s) ∨ b ∈ storesAhead fuel a t) := by
  rw [storesAhead] at h
  split at h
  · rename_i hb
    refine ⟨hb, ?_⟩
    split at h
    · rename_i t ht
      refine ⟨t, ht, ?_⟩
      rcases List.mem_append.1 h with h | h
      · split at h
        · exact .inl ⟨‹_›, h⟩
        · cases h
      · exact .inr h
    · cases h
    · cases h
  · cases h

theorem storedAt_nextEvent (a : Nat) (v : Word) (s : State) :
    storedAt a (busReturn v (nextEvent s).2) = storedAt a s := by
  obtain ⟨-, e⟩ | ⟨_, _, -, e⟩ := nextEvent_cases s <;> rw [e] <;> rfl

/-- The look ahead follows the run of the machine, by its events (rule R67). -/
theorem storesLater_of_mem_storesAhead {fuel a : Nat} {s : State} {b : Byte} (h : b ∈ storesAhead fuel a s) (v : Word) :
    StoresLater (busReturn v s) a b := by
  induction fuel generalizing s v with
  | zero => cases h
  | succ fuel ih =>
    obtain ⟨hb, t, ht, hmem⟩ := mem_storesAhead_succ h
    obtain ⟨v', hstep⟩ := step_of_serveUnread ht v
    obtain ⟨he, hst⟩ | hlater := hmem
    · have hn : nextEvent (busReturn v s) = (.block, busReturn v (nextEvent s).2) := by
        rw [nextEvent_busReturn, ← he]
        rfl
      exact .now hb (nextEvent_block hn) hstep (by rwa [storedAt_nextEvent])
    · exact .later hb hstep (ih hlater v')

/-! ## Reads -/

theorem step_hostRead {s : State} {a : Nat} {rest : List Event} (h : s.inbox = .hostRead a :: rest) :
    step s = hostReadByte a { s with inbox := rest } := by
  simp [step, serveNext, nextEvent, serve, h]

theorem afterRead_of_busy {s : State} (h : s.busy = true) : afterRead s = { s with draws := s.draws + 1 } := if_pos h

theorem afterRead_of_idle {s : State} (h : s.busy = false) : afterRead s = s := by
  simp [afterRead, h]

/-- Settles O58, by the values a read may answer. -/
theorem hostReadDuringTransaction : Obligations.HostReadDuringTransaction := by
  intro s a rest hb hn ha
  obtain ⟨b, hval, e⟩ := hostReadByte_next ha { s with inbox := rest }
  refine ⟨_, b, (step_hostRead hn).trans e, by rw [afterRead_of_busy (by exact hb)], ?_⟩
  obtain hval | ⟨-, hval⟩ := hval
  · exact .inl hval
  obtain ⟨hraced, hval⟩ := racedValues_mem hval
  obtain hval | hval | hval := hval
  · exact .inr (.inl ⟨.inl (List.ne_nil_of_mem hval), .inl hval⟩)
  · exact .inr (.inr (storesLater_of_mem_storesAhead hval _))
  · refine .inr (.inl ⟨hraced.imp id fun hne => ?_, .inr hval⟩)
    obtain ⟨c, hc⟩ := List.exists_mem_of_ne_nil _ hne
    exact ⟨c, storesLater_of_mem_storesAhead hc _⟩

/-- a lies in [DST_ADDR, + DST_CAP) and not in the source range. -/
def DestinationByte (s : State) (a : Nat) : Prop :=
  s.dstAddr.toNat ≤ a ∧ a < s.dstAddr.toNat + s.dstCap.toNat ∧
  (a < s.srcAddr.toNat ∨ s.srcAddr.toNat + sourceLength s ≤ a)

theorem DestinationFits.destinationByte {s : State} (h : DestinationFits s) {a : Nat} (hlo : s.dstAddr.toNat ≤ a)
    (hhi : a < s.dstAddr.toNat + s.outPos.toNat + (storedBytes s).length) : DestinationByte s a := by
  obtain ⟨hst, hcap, -, hdisj⟩ := h
  refine ⟨hlo, ?_, ?_⟩ <;> omega

/-- A micro-step's store is to a destination byte (rule R59). -/
theorem destinationByte_of_storedAt {s : State} {a : Nat} {b : Byte} (hinv : s.inv = true) (hb : s.busy = true)
    (h : b ∈ storedAt a s) : DestinationByte s a := by
  obtain ⟨j, rfl, hj⟩ := mem_storedAt.1 h
  have hlt := (List.getElem?_eq_some_iff.1 hj).1
  exact (destinationFits_of_inv hinv hb).destinationByte (by omega) (by omega)

/-- What has been stored, by the block or in a race with it, is at destination bytes (rule R59). -/
theorem destinationByte_of_seenAt {s : State} {a : Nat} (hinv : s.inv = true) (hb : s.busy = true)
    (h : seenAt s a ≠ []) : DestinationByte s a := by
  obtain ⟨hs, -⟩ := (inv_iff_of_busy hb).1 hinv
  obtain ⟨c, hc, rfl⟩ : ∃ c ∈ s.dstSeen, c.1 = a := by
    by_contra hn
    exact h (List.map_eq_nil_iff.2 (List.filter_eq_nil_iff.2 fun c hc he => hn ⟨c, hc, by simpa using he⟩))
  obtain ⟨hlo, hhi⟩ := hs.seen c hc
  exact (destinationFits_of_inv hinv hb).destinationByte hlo (by omega)

/-- Within a transaction no step changes a descriptor or OP (rules R26, R34). -/
theorem step_keeps_operands {s t : State} (hb : s.busy = true) (h : step s = .next t) (hb' : t.busy = true) :
    DescriptorsKept s t ∧ t.op = s.op := by
  have hnr (rest : List Event) : s.inbox ≠ .reset :: rest := by
    intro hn
    cases h.symm.trans (step_reset hn)
    cases hb'
  refine ⟨descriptorsFixedWhileBusy s t hb hnr h, ?_⟩
  by_contra hop
  obtain ⟨rest, hn⟩ | ⟨hidle, -⟩ := (cmdRejAndOpChangeOnlyAsStated s t h).2.2 (Ne.symm hop)
  · exact hnr rest hn
  · simp [hb] at hidle

theorem DestinationByte.of_keeps {s t : State} {a : Nat} (hk : DescriptorsKept s t ∧ t.op = s.op)
    (h : DestinationByte t a) : DestinationByte s a := by
  obtain ⟨⟨hsa, hsl, hda, hdc⟩, hop⟩ := hk
  simpa only [DestinationByte, sourceLength, hsa, hsl, hda, hdc, hop] using h

/-- By the steps to the store: the invariant holds at it, and the operands are those of the start (rule R59). -/
theorem StoresLater.destinationByte {s : State} {a : Nat} {b : Byte} (h : StoresLater s a b) (hinv : s.inv = true) :
    DestinationByte s a := by
  obtain ⟨k, u, u', w, hbusy, hrun, hn, -, hst⟩ := h
  have hb : s.busy = true := by
    obtain ⟨v, hv, hvb⟩ := hbusy 0 (Nat.zero_le k)
    obtain rfl : s = v := Host.Outcome.next.inj hv
    exact hvb
  induction k generalizing s with
  | zero =>
    obtain rfl : s = u := Host.Outcome.next.inj hrun
    obtain ⟨-, rfl⟩ | ⟨rest, -, rfl⟩ := hn
    · exact destinationByte_of_storedAt hinv hb hst
    · exact destinationByte_of_storedAt (s := { s with inbox := rest }) hinv hb hst
  | succ k ih =>
    obtain ⟨t, ht, hb'⟩ := hbusy 1 (Nat.succ_le_succ (Nat.zero_le k))
    have hstep : step s = .next t := step_of_run_one ht
    have hrest (i : Nat) (hi : i ≤ k) : ∃ v, Host.Core.run Sys2Proof.core i t = .next v ∧ v.busy = true := by
      rw [← run_succ (M := Sys2Proof.core) hstep i]
      exact hbusy (i + 1) (Nat.succ_le_succ hi)
    have hrun' := (run_succ (M := Sys2Proof.core) hstep k).symm.trans hrun
    exact (ih (everyStepKeepsInvariant s t hinv hstep) hrest hrun' hb').of_keeps (step_keeps_operands hb hstep hb')

/-- At other bytes the transaction adds no value to memory's (rule R58). -/
theorem racedValues_eq_nil {s : State} {a : Nat} (hinv : s.inv = true) (hb : s.busy = true)
    (ha : ¬ DestinationByte s a) : racedValues a s = [] := by
  refine List.eq_nil_iff_forall_not_mem.2 fun b h => ha ?_
  obtain ⟨hseen | hahead, -⟩ := racedValues_mem h
  · exact destinationByte_of_seenAt hinv hb hseen
  · obtain ⟨c, hc⟩ := List.exists_mem_of_ne_nil _ hahead
    have hlater := storesLater_of_mem_storesAhead hc s.busRdata
    rw [afterRead_of_busy hb] at hlater
    exact hlater.destinationByte (s := { s with draws := s.draws + 1 }) hinv

theorem hostReadByte_unraced {s : State} {a : Nat} (ha : a < addrSpace) (h : s.busy = true → racedValues a s = []) :
    hostReadByte a s = .next { afterRead s with busRdata := (memByte s.mem a).setWidth 32 } := by
  obtain ⟨b, rfl | ⟨hb, hval⟩, e⟩ := hostReadByte_next ha s
  · exact e
  · rw [h hb] at hval
    cases hval

/-! ## Writes -/

theorem step_hostWrite {s : State} {a : Nat} {v : Byte} {rest : List Event} (h : s.inbox = .hostWrite a v :: rest) :
    step s = hostWriteByte a v { s with inbox := rest } := by
  simp [step, serveNext, nextEvent, serve, serveUnread, h]

theorem hostWriteByte_of_idle {s : State} {a : Nat} (ha : a < addrSpace) (hb : s.busy = false) (v : Byte) :
    hostWriteByte a v s = .next { s with mem := memSet s.mem a v } := by
  simp [hostWriteByte, Nat.not_le.2 ha, blockHasWritten, hb, drawByte_nil]

/-- A racing write leaves its value, or, where the block has stored, the byte there (rule R67). -/
theorem hostWriteByte_of_busy {s : State} {a : Nat} (ha : a < addrSpace) (hb : s.busy = true) (v : Byte) :
    ∃ b n, (b = v ∨ (blockHasWritten a s = true ∧ b = memByte s.mem a)) ∧
      hostWriteByte a v s = .next { s with
        mem := memSet s.mem a b
        draws := n
        stale := (a, memByte s.mem a) :: s.stale
        dstSeen := if blockHasWritten a s then (a, v) :: s.dstSeen else s.dstSeen } := by
  obtain ⟨b, n, hv, e⟩ := drawByte_eq v (if blockHasWritten a s then [memByte s.mem a] else []) s
  refine ⟨b, n, ?_, by simp [hostWriteByte, Nat.not_le.2 ha, e, hb]⟩
  split at hv
  · exact (List.mem_cons.1 hv).imp id fun h => ⟨‹_›, List.mem_singleton.1 h⟩
  · exact .inl (List.mem_singleton.1 hv)

theorem bytesAt_cons (a b : Nat) (x : Byte) (l : List Host.Cell) :
    bytesAt ((a, x) :: l) b = if a = b then x :: bytesAt l b else bytesAt l b := by
  by_cases h : a = b <;> simp [bytesAt, h]

/-- Settles O51, by what a racing write leaves. -/
theorem hostWriteDuringTransactionRaces : Obligations.HostWriteDuringTransactionRaces := by
  intro s a v rest hb hn ha
  obtain ⟨b, n, hv, e⟩ := hostWriteByte_of_busy (s := { s with inbox := rest }) ha hb v
  refine ⟨_, (step_hostWrite hn).trans e, rfl, ?_, fun c x hx => ?_, ?_, fun c hc => ⟨?_, ?_⟩⟩
  · simp [staleAt, bytesAt_cons]
  · replace hx : x ∈ bytesAt s.stale c := hx
    simp only [staleAt, bytesAt_cons]
    split
    · exact List.mem_cons_of_mem _ hx
    · exact hx
  · rw [memByte_memSet_self]
    exact hv
  · exact memByte_memSet_ne _ _ _ _ hc.symm
  · simp [staleAt, bytesAt_cons, hc.symm]

/-- Settles O54: outside the destination a read finds no raced value, and an idle block keeps no former one. -/
theorem hostMemoryAccessOutsideRaces : Obligations.HostMemoryAccessOutsideRaces := by
  refine ⟨fun s a rest hn ha hb => ?_, fun s a rest hinv hb hn ha hout => ?_, fun s a v rest hn ha hb => ?_⟩
  · rw [step_hostRead hn, hostReadByte_unraced ha (by simp [hb]), afterRead_of_idle (by exact hb)]
  · have hd : ¬ DestinationByte s a := by
      rintro ⟨hlo, hhi, hsrc⟩
      rw [sourceLength] at hsrc
      omega
    have hr := racedValues_eq_nil (s := { s with inbox := rest }) hinv hb hd
    rw [step_hostRead hn, hostReadByte_unraced ha fun _ => hr, afterRead_of_busy (by exact hb)]
  · have e := hostWriteByte_of_idle (s := { s with inbox := rest }) ha hb v
    refine ⟨_, (step_hostWrite hn).trans e, rfl, ?_, fun b hne => ?_⟩
    · exact memByte_memSet_self _ _ _
    · exact memByte_memSet_ne _ _ _ _ hne.symm

end Sys2Proof.Machine
end

section
/-! SUPPORT. The opcode table's numbers (rules R72, R73, R83), and the obligations about what they decode to and what a
step does with it. -/

namespace Sys2Proof

/-! ## The numbers of the table -/

/-- Direction and offset take the bits below bit 8, and the data the 32 bits above them (log entry 4). -/
theorem tableWord_lt (i : Instr) : i.tableWord < 1099511627776 := by
  obtain ⟨ho, -⟩ := offset_in_window i
  unfold Instr.tableWord
  split
  · omega
  · rename_i w _
    have hw := w.isLt
    omega

theorem decodeTableWord_eq_some_iff {nbits w : Nat} {i : Instr} :
    decodeTableWord nbits w = some i ↔ decodeAccess 0 (accessOfTableWord 0 nbits w) = .ok i := by
  unfold decodeTableWord
  split <;> simp [*]

theorem decodeTableWord_tableWord {i : Instr} (h : i.wellFormed = true) :
    decodeTableWord 40 i.tableWord = some i := by
  rw [decodeTableWord_eq_some_iff, accessOfTableWord_tableWord]
  exact decodeAccess_encodeAccess h 0

/-- Settles O4: the number stands for the instruction's access, which decodes to the instruction. -/
theorem tableWordRoundTrip : Obligations.TableWordRoundTrip :=
  fun i h => ⟨tableWord_lt i, decodeTableWord_tableWord h⟩

/-- A row of 32 bits is a word written to CMD (rule R72). -/
theorem decodeTableWord_command (w : Nat) :
    decodeTableWord 32 w = some (decodeCmdWrite (BitVec.ofNat 32 w)) := by
  rw [decodeTableWord_eq_some_iff]
  exact decodeAccess_admitted 0 0x04 (.write (BitVec.ofNat 32 w)) (by decide) rfl

/-- Settles O3: the command words by what CMD's writes decode to, the writes with data as numbers of their instructions,
and the two words of 8 bits by evaluation. -/
theorem tableWordSamples : Obligations.TableWordSamples :=
  ⟨decodeTableWord_command 1, decodeTableWord_command 2, decodeTableWord_command 0x80000001, rfl, rfl,
    decodeTableWord_tableWord (i := .wrStatus 0xE#32) rfl, decodeTableWord_tableWord (i := .wrSrcAddr 0x1000#32) rfl,
    decodeTableWord_tableWord (i := .encode) rfl⟩

/-! ## What the base of the window leaves unchanged -/

theorem accessOfTableWord_base (base nbits w : Nat) :
    accessOfTableWord base nbits w =
      { accessOfTableWord 0 nbits w with addr := base + (accessOfTableWord 0 nbits w).addr } := by
  unfold accessOfTableWord
  split <;> simp

/-- An access decodes by its offset in the window alone (rule R83). -/
theorem decodeAccess_base (base : Nat) (a : BusAccess) :
    decodeAccess base { a with addr := base + a.addr } = decodeAccess 0 a := by
  simp [decodeAccess]

theorem decodeAccess_accessOfTableWord {nbits w : Nat} {i : Instr} (h : decodeTableWord nbits w = some i) (base : Nat) :
    decodeAccess base (accessOfTableWord base nbits w) = .ok i := by
  rw [accessOfTableWord_base, decodeAccess_base]
  exact decodeTableWord_eq_some_iff.1 h

namespace Machine

/-! ## The step of a decoded access -/

theorem step_decoded {s : State} {a : BusAccess} {rest : List Event} {i : Instr} (hn : s.inbox = .bus a :: rest)
    (hi : decodeAccess s.plat.base a = .ok i) : step s = exec i { s with inbox := rest } := by
  rw [step_bus hn]
  exact busAccess_ok hi

/-- Settles O7: a bus event is served by decoding it, and a table word is placed as the bus event it decodes as. -/
theorem stepRunsDecodedAccess : Obligations.StepRunsDecodedAccess :=
  ⟨fun _ _ _ _ hn hi => step_decoded hn hi,
    fun s _ _ _ h => step_decoded (s := s.withFetchWord _ _) rfl (decodeAccess_accessOfTableWord h s.plat.base)⟩

/-! ## A rejected command (rules R75, R88) -/

theorem presentCommand_of_busy {s : State} (h : s.busy = true) (w : Word) : presentCommand w s = reject s := if_pos h

theorem presentCommand_of_decodeCmd_none {w : Word} (h : decodeCmd w = none) (s : State) :
    presentCommand w s = reject s := by
  simp [presentCommand, h]

/-- The reserved words are none of the two commands (rules R73, R75). -/
theorem decodeCmd_reserved {w : Word} (h : w.extractLsb' 4 28 ≠ 0#28 ∨ w = 0#32 ∨ 3 ≤ w.toNat) :
    decodeCmd w = none := by
  have h1 : w ≠ 1#32 := by
    rintro rfl
    exact absurd h (by decide)
  have h2 : w ≠ 2#32 := by
    rintro rfl
    exact absurd h (by decide)
  rw [decodeCmd_eq, if_neg h1, if_neg h2]

/-- Settles O12: a busy block rejects before it decodes, an idle one what decodes to no command, and IRQ does not read
CMD_REJ. -/
theorem commandRejection : Obligations.CommandRejection := by
  refine ⟨fun s hb => ⟨?_, ?_, fun w => ?_⟩, fun s w hw => ?_, fun s => rfl⟩
  · exact congrArg Host.Outcome.next (presentCommand_of_busy hb 1#32)
  · exact congrArg Host.Outcome.next (presentCommand_of_busy hb 2#32)
  · exact congrArg Host.Outcome.next (presentCommand_of_busy hb w)
  · exact congrArg Host.Outcome.next (presentCommand_of_decodeCmd_none (decodeCmd_reserved hw) s)

end Machine

end Sys2Proof
end

section
/-! SUPPORT. Acceptance (rule R89), the range checks as sets of bytes (rules R92, R93) and a transaction that ends by
`raise` (rules R98, R150), and the obligations about them. -/

namespace Sys2Proof.Machine

/-! ## The range checks -/

/-- Settles O32: a range that wraps has its last byte past the end, ranges that overlap share the later start. -/
theorem rangeChecksMeanBytes : Obligations.RangeChecksMeanBytes := by
  refine ⟨fun a len => ?_, fun a la d ld => ?_⟩
  · rw [wraps_iff]
    constructor
    · exact fun h => ⟨a + len - 1, by omega⟩
    · rintro ⟨x, hx⟩
      omega
  · rw [overlaps_iff]
    constructor
    · exact fun h => ⟨max a d, by omega⟩
    · rintro ⟨x, hx⟩
      omega

/-! ## Acceptance -/

/-- Settles O11: the command word presented to an idle block is accepted. -/
theorem commandAcceptance : Obligations.CommandAcceptance := by
  intro s hb
  obtain ⟨he, hd⟩ := presentCommand_of_idle hb
  have henc : exec .encode s = .next (accept .encode s) := congrArg Host.Outcome.next he
  have hdec : exec .decode s = .next (accept .decode s) := congrArg Host.Outcome.next hd
  refine ⟨henc, hdec, fun t ht => ?_⟩
  rw [henc, hdec] at ht
  obtain ht | ht := ht <;> obtain rfl := Host.Outcome.next.inj ht
  · exact irq_accept .encode s
  · exact irq_accept .decode s

/-! ## A transaction that ends by `raise` -/

@[simp] theorem validateNext_err (s : State) : (validateNext s).err = s.err := by
  obtain ⟨-, e⟩ | ⟨-, e⟩ := validateNext_cases s <;> rw [e]

@[simp] theorem emitNext_err (s : State) : (emitNext s).err = s.err := by
  obtain ⟨-, e⟩ | ⟨-, -, e⟩ | ⟨-, -, -, e⟩ | ⟨-, e⟩ := emitNext_cases s <;> rw [e]
  rfl

@[simp] theorem extractNext_err (s : State) : (extractNext s).err = s.err := by
  obtain ⟨-, e⟩ | ⟨-, e⟩ := extractNext_cases s <;> rw [e]
  rfl

/-- t is s after `raise`, with nothing but free values drawn before it. -/
def RaisedFrom (s t : State) : Prop := ∃ e i v n, t = raise e i v { s with draws := n }

theorem RaisedFrom.mem {s t : State} (h : RaisedFrom s t) : t.mem = s.mem := by
  obtain ⟨e, i, v, n, rfl⟩ := h
  rfl

theorem RaisedFrom.outLen {s t : State} (h : RaisedFrom s t) : t.outLen = 0#32 := by
  obtain ⟨e, i, v, n, rfl⟩ := h
  rfl

/-- By the phase: a micro-step leaves ERR as it is, or raises before the checks have passed or for want of input in
D_FILL (rules R98, R126). -/
theorem microStep_err_cases {s t : State} (h : microStep s = .next t) :
    t.err = s.err ∨
      (RaisedFrom s t ∧ (checksPassed s.phase = false ∨ (s.phase = .dFill ∧ s.inPos = s.srcLen))) := by
  cases hp : s.phase <;> simp only [microStep, hp] at h
  case idle =>
    cases h
    exact .inl rfl
  case eCheck =>
    obtain ⟨-, e⟩ | ⟨-, _, -, e⟩ | ⟨-, -, e⟩ := microECheck_cases s <;> cases e.symm.trans h
    · exact .inl rfl
    · exact .inr ⟨⟨_, _, _, s.draws, rfl⟩, .inl rfl⟩
    · exact .inl rfl
  case eValidate =>
    obtain ⟨w, n, -, ⟨-, rfl⟩ | ⟨-, rfl⟩⟩ := microEValidate_cases h
    · exact .inl (validateNext_err _)
    · exact .inr ⟨⟨_, _, _, n, rfl⟩, .inl rfl⟩
  case eHeader =>
    obtain ⟨-, -, v, n, l, rfl, -⟩ := microEHeader_cases h
    exact .inl rfl
  case eLoad =>
    obtain ⟨g, n, -, rfl⟩ := microELoad_cases h
    exact .inl rfl
  case eEmit =>
    obtain ⟨-, -, v, n, l, rfl, -⟩ := microEEmit_cases h
    exact .inl (emitNext_err _)
  case eFlush =>
    obtain ⟨-, -, -, v, n, rfl, -⟩ := microEFlush_cases h
    exact .inl rfl
  case dCheck0 =>
    obtain ⟨-, e⟩ | ⟨-, _, -, e⟩ | ⟨-, -, e⟩ := microDCheck0_cases s <;> cases e.symm.trans h
    · exact .inl rfl
    · exact .inr ⟨⟨_, _, _, s.draws, rfl⟩, .inl rfl⟩
    · exact .inl rfl
  case dHeader =>
    obtain ⟨-, b, n, rfl⟩ := microDHeader_cases h
    exact .inl rfl
  case dCheck =>
    obtain ⟨_, -, e⟩ | ⟨-, -, e⟩ | ⟨-, -, e⟩ := microDCheck_cases s <;> cases e.symm.trans h
    · exact .inr ⟨⟨_, _, _, s.draws, rfl⟩, .inl rfl⟩
    · exact .inl rfl
    · exact .inl rfl
  case dFill =>
    obtain ⟨hin, rfl⟩ | ⟨-, -, b, n, rfl⟩ := microDFill_cases h
    · exact .inr ⟨⟨_, _, _, s.draws, rfl⟩, .inr ⟨rfl, hin⟩⟩
    · exact .inl rfl
  case dExtract =>
    obtain ⟨-, -, v0, v1, v2, v3, n, l, rfl, -⟩ := microDExtract_cases h
    exact .inl (extractNext_err _)

/-- D_FILL finds input left: the elements not yet written need more payload bits than are held (rule R125). -/
theorem inPos_lt_srcLen_of_dFill {s : State} (hp : s.phase = .dFill) (hi : phaseInv s = true) :
    s.inPos.toNat < s.srcLen.toNat := by
  obtain ⟨hck, hun, hh⟩ := (phaseInv_dFill hp).1 hi
  obtain ⟨-, h0, hc⟩ := (decodeChecked_iff s).1 hck
  obtain ⟨hlen, -⟩ := decodeCheck_none hc (toNat_ne_zero h0)
  obtain ⟨h4, hout, hin, hbits⟩ := (unpackedSoFar_iff s).1 hun
  rw [payload] at hlen
  omega

/-- Before the checks have passed no destination is claimed, so nothing has been written (rules R98, R163). -/
theorem outPos_of_unchecked {s : State} (hinv : s.inv = true) (hb : s.busy = true)
    (hc : checksPassed s.phase = false) : s.outPos = 0#32 := by
  have hl : outputLength s = 0 := by
    cases hp : s.phase <;> simp [checksPassed, outputLength, hp] at hc ⊢
  have hst := (destinationFits_of_inv hinv hb).stored
  exact BitVec.eq_of_toNat_eq (by rw [BitVec.toNat_ofNat]; omega)

/-- Settles O36: under the invariant D_FILL never lacks input, and every other `raise` comes before the checks have
passed. -/
theorem failureWritesNoMemory : Obligations.FailureWritesNoMemory := by
  intro s₀ s t hn hinv hb h ht
  obtain ⟨hrun, -, hi⟩ := (inv_iff_of_busy hb).1 hinv
  rw [step_blockTurn_busy hn hb] at h
  obtain he | ⟨hr, hc | ⟨hp, hin⟩⟩ := microStep_err_cases h
  · simp [he, hrun.err] at ht
  · exact ⟨hr.mem, outPos_of_unchecked hinv hb hc, hc, hr.outLen⟩
  · have hlt := inPos_lt_srcLen_of_dFill hp hi
    rw [hin] at hlt
    exact absurd hlt (lt_irrefl _)

end Sys2Proof.Machine
end

section
/-! SUPPORT. The bit buffer as a string of bits (rules R17, R99 to R103) and its preconditions (rules R105, R113, R125),
and the obligations about them. -/

namespace Sys2Proof.Machine

/-! ## The low bits of a number as a string -/

/-- The low n bits of x, most significant first. -/
def lowBits (n x : Nat) : List Bool := (List.range n).map fun k => x.testBit (n - 1 - k)

theorem heldBits_eq_lowBits (s : State) : heldBits s = lowBits s.held.toNat s.acc.toNat := rfl

theorem bitsOf_eq_lowBits {w : Nat} (v : BitVec w) : bitsOf v = lowBits w v.toNat := rfl

/-- The string does not read the bits from n on. -/
theorem lowBits_mod (n x : Nat) : lowBits n (x % 2 ^ n) = lowBits n x := by
  refine List.map_congr_left fun k hk => ?_
  have hlt : n - 1 - k < n := by have := List.mem_range.1 hk; omega
  simp [Nat.testBit_mod_two_pow, hlt]

theorem lowBits_zero (n : Nat) : lowBits n 0 = List.replicate n false := by
  simp [lowBits, List.map_const']

/-- The string of h + k bits is cut after its first h. -/
theorem lowBits_add (h k x : Nat) : lowBits (h + k) x = lowBits h (x / 2 ^ k) ++ lowBits k x := by
  simp only [lowBits, List.range_add, List.map_append, List.map_map]
  congr 1
  · refine List.map_congr_left fun j hj => ?_
    have hlt := List.mem_range.1 hj
    rw [Nat.testBit_div_two_pow, show h + k - 1 - j = h - 1 - j + k by omega]
  · refine List.map_congr_left fun j _ => ?_
    show x.testBit (h + k - 1 - (h + j)) = x.testBit (k - 1 - j)
    congr 1
    omega

/-- Two strings one after the other, as a number. -/
theorem lowBits_mul_add (h a : Nat) {k b : Nat} (hb : b < 2 ^ k) :
    lowBits (h + k) (a * 2 ^ k + b) = lowBits h a ++ lowBits k b := by
  have hdiv : (a * 2 ^ k + b) / 2 ^ k = a := by
    rw [mul_comm, Nat.mul_add_div (by positivity), Nat.div_eq_of_lt hb, add_zero]
  rw [lowBits_add, hdiv, ← lowBits_mod k (a * 2 ^ k + b), Nat.mul_add_mod', lowBits_mod]

/-! ## The operations on the held string -/

/-- An operation that shifts v in appends its bits (rules R99, R102). -/
theorem heldBits_append {s t : State} {w : Nat} (v : BitVec w) (hheld : t.held.toNat = s.held.toNat + w)
    (hacc : t.acc.toNat = s.acc.toNat * 2 ^ w + v.toNat) : heldBits t = heldBits s ++ bitsOf v := by
  rw [heldBits_eq_lowBits, hheld, hacc, lowBits_mul_add _ _ v.isLt, heldBits_eq_lowBits, bitsOf_eq_lowBits]

/-- An operation that answers the first w held bits and masks them off drops them (rules R100, R103). -/
theorem heldBits_split {s t : State} {w : Nat} (v : BitVec w) (hw : w ≤ s.held.toNat)
    (hv : v.toNat = s.acc.toNat / 2 ^ (s.held.toNat - w) % 2 ^ w) (hheld : t.held.toNat = s.held.toNat - w)
    (hacc : t.acc.toNat = s.acc.toNat % 2 ^ (s.held.toNat - w)) : heldBits s = bitsOf v ++ heldBits t := by
  rw [bitsOf_eq_lowBits, hv, lowBits_mod, heldBits_eq_lowBits t, hheld, hacc, lowBits_mod, ← lowBits_add,
    Nat.add_sub_cancel' hw, heldBits_eq_lowBits]

theorem heldBits_push9 (v : Group) {s : State} (h : s.held.toNat ≤ 7) (ha : s.acc.toNat < 2 ^ s.held.toNat) :
    heldBits (push9 v s) = heldBits s ++ bitsOf v :=
  heldBits_append v (push9_held v s h) (push9_acc v s h ha)

theorem heldBits_fill8 (b : Byte) {s : State} (h : s.held.toNat ≤ 8) (ha : s.acc.toNat < 2 ^ s.held.toNat) :
    heldBits (fill8 b s) = heldBits s ++ bitsOf b :=
  heldBits_append b (fill8_held b s h) (fill8_acc b s h ha)

theorem heldBits_emit8 {s : State} (h8 : 8 ≤ s.held.toNat) (h16 : s.held.toNat ≤ 16) :
    heldBits s = bitsOf (emit8 s).1 ++ heldBits (emit8 s).2 :=
  heldBits_split _ h8 (emit8_byte s) (emit8_held s h8) (emit8_acc s h16)

theorem heldBits_pull9 {s : State} (h9 : 9 ≤ s.held.toNat) (h16 : s.held.toNat ≤ 16) :
    heldBits s = bitsOf (pull9 s).1 ++ heldBits (pull9 s).2 :=
  heldBits_split _ h9 (pull9_group s) (pull9_held s h9) (pull9_acc s h16)

/-- The last byte is the held string above zeros (rule R101). -/
theorem bitsOf_padFlush {s : State} (h : s.held.toNat ≤ 7) (ha : s.acc.toNat < 2 ^ s.held.toNat) :
    bitsOf (padFlush s).1 = heldBits s ++ List.replicate (8 - s.held.toNat) false := by
  have hcut := lowBits_mul_add s.held.toNat s.acc.toNat (Nat.two_pow_pos (8 - s.held.toNat))
  rw [Nat.add_sub_cancel' (by omega), add_zero, lowBits_zero] at hcut
  rw [bitsOf_eq_lowBits, padFlush_byte s h ha, hcut, heldBits_eq_lowBits]

/-- Settles O31, by the operation: two shift a value in, two cut one off the front, and one pads. -/
theorem bitBufferActsOnHeldString : Obligations.BitBufferActsOnHeldString := fun s ha =>
  ⟨fun v h7 => ⟨heldBits_push9 v h7 ha, push9_keeps_bound v s h7 ha⟩,
    fun h8 h16 => ⟨heldBits_emit8 h8 h16, emit8_keeps_bound s h8 h16⟩,
    fun _ h7 => ⟨bitsOf_padFlush h7 ha, rfl, rfl⟩,
    fun b h8 => ⟨heldBits_fill8 b h8 ha, fill8_keeps_bound b s h8 ha⟩,
    fun h9 h16 => ⟨heldBits_pull9 h9 h16, pull9_keeps_bound s h9 h16⟩⟩

/-! ## Where a precondition can fail -/

/-- The precondition of the micro-step PHASE names fails: of the header byte's index (rule R113), or of the operation
that takes bits out of the buffer (rules R100, R101, R103). -/
def PreconditionFails (s : State) : Prop :=
  (s.phase = .eHeader ∧ 3 < s.outPos.toNat) ∨ (s.phase = .eEmit ∧ s.held.toNat < 8) ∨
  (s.phase = .eFlush ∧ (s.held.toNat = 0 ∨ 7 < s.held.toNat)) ∨ (s.phase = .dExtract ∧ s.held.toNat < 9)

/-- By the phase: no other fault of a micro-step is the broken precondition. -/
theorem preconditionFails_of_microStep {s : State} (h : microStep s = .fault .brokenPrecondition) :
    PreconditionFails s := by
  cases hp : s.phase <;> simp only [microStep, hp] at h
  case idle => cases h
  case eCheck => obtain ⟨-, e⟩ | ⟨-, _, -, e⟩ | ⟨-, -, e⟩ := microECheck_cases s <;> cases e.symm.trans h
  case dCheck0 => obtain ⟨-, e⟩ | ⟨-, _, -, e⟩ | ⟨-, -, e⟩ := microDCheck0_cases s <;> cases e.symm.trans h
  case dCheck => obtain ⟨_, -, e⟩ | ⟨-, -, e⟩ | ⟨-, -, e⟩ := microDCheck_cases s <;> cases e.symm.trans h
  case eValidate =>
    unfold microEValidate at h
    split at h
    · cases h
    · split at h <;> cases h
  case eLoad =>
    unfold microELoad at h
    split at h <;> cases h
  case dHeader =>
    unfold microDHeader at h
    split at h <;> cases h
  case dFill =>
    unfold microDFill at h
    split at h
    · cases h
    · split at h <;> cases h
  case eHeader =>
    refine .inl ⟨hp, ?_⟩
    by_contra hn
    rw [microEHeader, if_neg hn] at h
    split at h <;> cases h
  case eEmit =>
    refine .inr (.inl ⟨hp, ?_⟩)
    by_contra hn
    rw [microEEmit, if_neg hn] at h
    split at h
    split at h <;> cases h
  case eFlush =>
    refine .inr (.inr (.inl ⟨hp, ?_⟩))
    by_contra hn
    rw [microEFlush, if_neg hn] at h
    split at h
    split at h <;> cases h
  case dExtract =>
    refine .inr (.inr (.inr ⟨hp, ?_⟩))
    by_contra hn
    rw [microDExtract, if_neg hn] at h
    split at h
    split at h <;> cases h

/-- Each phase's clause of the invariant has the precondition in it (rule R105). -/
theorem not_preconditionFails {s : State} (hi : phaseInv s = true) : ¬ PreconditionFails s := by
  rintro (⟨hp, hlt⟩ | ⟨hp, hlt⟩ | ⟨hp, hlt⟩ | ⟨hp, hlt⟩)
  · obtain ⟨-, -, hout, -⟩ := (phaseInv_eHeader hp).1 hi
    omega
  · obtain ⟨-, -, -, h8⟩ := (phaseInv_eEmit hp).1 hi
    omega
  · obtain ⟨-, -, -, h1, h7⟩ := (phaseInv_eFlush hp).1 hi
    omega
  · obtain ⟨-, -, h9⟩ := (phaseInv_dExtract hp).1 hi
    omega

/-- By the agent: no step but the block's answers this fault. -/
theorem blockTurn_of_step_brokenPrecondition {s₀ : State} (h : step s₀ = .fault .brokenPrecondition) :
    ∃ s, BlockTurnAt s₀ s ∧ blockTurn s = .fault .brokenPrecondition := by
  obtain ⟨hin, -⟩ | ⟨e, rest, hin, he⟩ := nextEvent_cases s₀
  · have hn : BlockTurnAt s₀ s₀ := .inl ⟨hin, rfl⟩
    exact ⟨s₀, hn, (step_blockTurn hn).symm.trans h⟩
  · rw [step, serveNext, he] at h
    cases e with
    | block => exact ⟨_, .inr ⟨rest, hin, rfl⟩, h⟩
    | bus a =>
      simp only [serve, serveUnread, busAccess] at h
      split at h
      · obtain ⟨t, ht⟩ := exec_next _ _
        cases ht.symm.trans h
      · cases h
    | hostRead a =>
      simp only [serve, hostReadByte] at h
      split at h <;> cases h
    | hostWrite a v =>
      simp only [serve, serveUnread, hostWriteByte] at h
      split at h <;> cases h
    | reset => cases h

/-- The invariant does not read the events to come. -/
theorem inv_of_blockTurnAt {s₀ s : State} (hn : BlockTurnAt s₀ s) (hinv : s₀.inv = true) : s.inv = true := by
  obtain ⟨-, rfl⟩ | ⟨rest, -, rfl⟩ := hn <;> exact hinv

theorem blockTurn_ne_brokenPrecondition {s : State} (hinv : s.inv = true) :
    blockTurn s ≠ .fault .brokenPrecondition := by
  intro h
  unfold blockTurn at h
  split at h
  case isTrue hb =>
    obtain ⟨-, -, hi⟩ := (inv_iff_of_busy hb).1 hinv
    exact not_preconditionFails hi (preconditionFails_of_microStep h)
  case isFalse => cases h

/-- Settles O35: the fault is the block's alone, and each phase's clause of the invariant excludes it; D_FILL's bounds
the bits read. -/
theorem preconditionsAlwaysHold : Obligations.PreconditionsAlwaysHold := by
  refine fun s hinv => ⟨fun h => ?_, fun hp => ?_⟩
  · obtain ⟨t, hn, ht⟩ := blockTurn_of_step_brokenPrecondition h
    exact blockTurn_ne_brokenPrecondition (inv_of_blockTurnAt hn hinv) ht
  · obtain ⟨-, -, hi⟩ := (inv_iff_of_busy (busy_of_phase hinv (by simp [hp]))).1 hinv
    exact inPos_lt_srcLen_of_dFill hp hi

end Sys2Proof.Machine
end

section
/-! SUPPORT. The micro-steps of ENCODE as equations (rules R110 to R116) and the two ends of a transaction (rules R117,
R149), and the obligations about them. -/

namespace Sys2Proof.Machine

/-! ## The two ends of a transaction -/

/-- t is s after `finish`, with bytes stored and free values drawn before it (rule R117). -/
def FinishedFrom (s t : State) : Prop := ∃ p m n, t = finish { s with outPos := p, mem := m, draws := n }

/-- t is s after `raise`, with free values drawn before it, and an index and a value only of OUT_OF_RANGE (rules R143 to
R149). -/
def RecordedFrom (s t : State) : Prop :=
  ∃ e i v n, t = raise e i v { s with draws := n } ∧ (e ≠ .outOfRange → i = 0#32 ∧ v = 0#32)

theorem RecordedFrom.of_raise (e : ErrCode) (s : State) : RecordedFrom s (raise e 0#32 0#32 s) :=
  ⟨e, _, _, s.draws, rfl, fun _ => ⟨rfl, rfl⟩⟩

/-- By the phase: a micro-step leaves BUSY, or ends the transaction in one of two ways. -/
theorem microStep_end_cases {s t : State} (h : microStep s = .next t) :
    t.busy = s.busy ∨ FinishedFrom s t ∨ RecordedFrom s t := by
  cases hp : s.phase <;> simp only [microStep, hp] at h
  case idle =>
    cases h
    exact .inl rfl
  case eCheck =>
    obtain ⟨-, e⟩ | ⟨-, _, -, e⟩ | ⟨-, -, e⟩ := microECheck_cases s <;> cases e.symm.trans h
    · exact .inr (.inl ⟨s.outPos, s.mem, s.draws, rfl⟩)
    · exact .inr (.inr (.of_raise _ s))
    · exact .inl rfl
  case eValidate =>
    obtain ⟨w, n, -, ⟨-, rfl⟩ | ⟨-, rfl⟩⟩ := microEValidate_cases h
    · obtain ⟨-, e⟩ | ⟨-, e⟩ := validateNext_cases { s with draws := n } <;> rw [e] <;> exact .inl rfl
    · exact .inr (.inr ⟨_, _, _, n, rfl, fun he => absurd rfl he⟩)
  case eHeader =>
    obtain ⟨-, -, v, n, l, rfl, -⟩ := microEHeader_cases h
    exact .inl rfl
  case eLoad =>
    obtain ⟨g, n, -, rfl⟩ := microELoad_cases h
    exact .inl rfl
  case eEmit =>
    obtain ⟨-, -, v, n, l, rfl, -⟩ := microEEmit_cases h
    obtain ⟨-, e⟩ | ⟨-, -, e⟩ | ⟨-, -, -, e⟩ | ⟨-, e⟩ := emitNext_cases _ <;> rw [e]
    · exact .inl rfl
    · exact .inl rfl
    · exact .inl rfl
    · exact .inr (.inl ⟨_, _, n, rfl⟩)
  case eFlush =>
    obtain ⟨-, -, -, v, n, rfl, -⟩ := microEFlush_cases h
    exact .inr (.inl ⟨_, _, n, rfl⟩)
  case dCheck0 =>
    obtain ⟨-, e⟩ | ⟨-, _, -, e⟩ | ⟨-, -, e⟩ := microDCheck0_cases s <;> cases e.symm.trans h
    · exact .inr (.inl ⟨s.outPos, s.mem, s.draws, rfl⟩)
    · exact .inr (.inr (.of_raise _ s))
    · exact .inl rfl
  case dHeader =>
    obtain ⟨-, b, n, rfl⟩ := microDHeader_cases h
    exact .inl rfl
  case dCheck =>
    obtain ⟨_, -, e⟩ | ⟨-, -, e⟩ | ⟨-, -, e⟩ := microDCheck_cases s <;> cases e.symm.trans h
    · exact .inr (.inr (.of_raise _ s))
    · exact .inr (.inl ⟨s.outPos, s.mem, s.draws, rfl⟩)
    · exact .inl rfl
  case dFill =>
    obtain ⟨-, rfl⟩ | ⟨-, -, b, n, rfl⟩ := microDFill_cases h
    · exact .inr (.inr (.of_raise _ s))
    · exact .inl rfl
  case dExtract =>
    obtain ⟨-, -, v0, v1, v2, v3, n, l, rfl, -⟩ := microDExtract_cases h
    obtain ⟨-, e⟩ | ⟨-, e⟩ := extractNext_cases _ <;> rw [e]
    · exact .inr (.inl ⟨_, _, n, rfl⟩)
    · exact .inl rfl

/-- Settles O18: a micro-step that clears BUSY finishes or raises. -/
theorem transactionEndsByFinishOrRaise : Obligations.TransactionEndsByFinishOrRaise := by
  intro s₀ s t hn hb h hb'
  rw [step_blockTurn_busy hn hb] at h
  obtain he | ⟨p, m, n, rfl⟩ | ⟨e, i, v, n, rfl, hiv⟩ := microStep_end_cases h
  · exact absurd (he.symm.trans hb') (by simp [hb])
  · exact .inl ⟨rfl, fun hd => by simp [irq, hd]⟩
  · exact .inr ⟨e, i, v, rfl, hiv, fun he => by simp [irq, he]⟩

/-! ## E_CHECK and E_VALIDATE -/

theorem step_eCheck {s₀ s : State} (hn : BlockTurnAt s₀ s) (hb : s.busy = true) (hp : s.phase = .eCheck) :
    step s₀ = microECheck s := by
  simp [step_blockTurn_busy hn hb, microStep, hp]

/-- ENCODE's checks for N ≥ 1 on the registers' numbers, in their order (rule R96). -/
theorem encodeCheck_eq {s : State} (h0 : s.count.toNat ≠ 0) :
    encodeCheck s =
      if 4294967296 < s.srcAddr.toNat + 4 * s.count.toNat then some .invalidInput
      else if s.dstCap.toNat < 4 + payload s.count.toNat then some .capacity
      else if 4294967296 < s.dstAddr.toNat + (4 + payload s.count.toNat) then some .invalidInput
      else if s.srcAddr.toNat < s.dstAddr.toNat + (4 + payload s.count.toNat) ∧
          s.dstAddr.toNat < s.srcAddr.toNat + 4 * s.count.toNat then some .invalidInput
      else none := by
  have hsrc : 0 < 4 * s.count.toNat := by omega
  have hdst : 0 < 4 + payload s.count.toNat := by omega
  simp only [encodeCheck, wraps_iff, overlaps_iff, capacityFits, decide_eq_true_eq, encOut, encIn, h0, if_false,
    hsrc, hdst, true_and, Nat.not_le]

/-- Settles O19, by the first check that fails. -/
theorem encodeCheckStep : Obligations.EncodeCheckStep := by
  intro s₀ s hn hb hp
  rw [step_eCheck hn hb hp, microECheck]
  by_cases h0 : s.count.toNat = 0
  · rw [if_pos h0, if_pos h0]
  · rw [if_neg h0, if_neg h0, encodeCheck_eq h0]
    split_ifs <;> rfl

/-- Settles O20, by whether the word read is in range. -/
theorem encodeValidateStep : Obligations.EncodeValidateStep := by
  intro s₀ s hn hb hp hs hr
  rw [step_eValidate hn hb hp, microEValidate, blockReadWord_no_race hs (reaches_word.1 hr)]
  by_cases hw : (memWord s.mem (s.srcAddr.toNat + s.inPos.toNat)).toNat < 1 ∨
      300 < (memWord s.mem (s.srcAddr.toNat + s.inPos.toNat)).toNat
  · simp only [(elementInRange_eq_false_iff _).2 hw, if_pos hw, Bool.false_eq_true, if_false]
  · have hin := (elementInRange_iff (memWord s.mem (s.srcAddr.toNat + s.inPos.toNat))).2 (by omega)
    simp only [hin, if_true, if_neg hw]
    rfl

/-! ## E_HEADER, E_LOAD, E_EMIT and E_FLUSH -/

/-- Settles O21, by the store of the header byte and by whether it is the fourth. -/
theorem encodeHeaderStep : Obligations.EncodeHeaderStep := by
  intro s₀ s hn hb hp hout hs hr
  rw [step_eHeader hn hb hp, microEHeader, if_neg (by omega), blockWriteByte_no_race _ hs hr, wordByte_eq]
  simp only [headerNext, add_one_eq_four_iff, show s.outPos = 3#32 ↔ s.outPos.toNat = 3 from BitVec.toNat_inj.symm, hp]

theorem microELoad_no_race {s : State} (hs : ∀ j, j < 4 → staleAt s (s.srcAddr.toNat + s.inPos.toNat + j) = [])
    (hr : Reaches s (s.srcAddr.toNat + s.inPos.toNat) 4) :
    microELoad s = .next { push9 (groupOf (memWord s.mem (s.srcAddr.toNat + s.inPos.toNat))) s with
      inPos := s.inPos + 4#32, phase := .eEmit } := by
  simp only [microELoad, blockReadWord_no_race hs (reaches_word.1 hr), push9_fields]

/-- Settles O22: the word read is packed as its group. -/
theorem encodeLoadStep : Obligations.EncodeLoadStep := by
  intro s₀ s hn hb hp _ _ hs hr
  rw [step_eLoad hn hb hp, microELoad_no_race hs hr, push9_eq, groupOf_toNat]

theorem microEEmit_no_race {s : State} (hs : staleAt s (s.dstAddr.toNat + s.outPos.toNat) = [])
    (h8 : 8 ≤ s.held.toNat) (hr : ramAt s (s.dstAddr.toNat + s.outPos.toNat) = true) :
    microEEmit s = .next (emitNext { (emit8 s).2 with
      mem := memSet s.mem (s.dstAddr.toNat + s.outPos.toNat) (emit8 s).1
      dstSeen := (s.dstAddr.toNat + s.outPos.toNat, (emit8 s).1) ::
        (s.dstAddr.toNat + s.outPos.toNat, memByte s.mem (s.dstAddr.toNat + s.outPos.toNat)) :: s.dstSeen
      outPos := s.outPos + 1#32 }) := by
  have hw := blockWriteByte_no_race (s := (emit8 s).2) (emit8 s).1 hs hr
  simp only [microEEmit, if_neg (Nat.not_lt.2 h8), emit8_fields, hw]

theorem microEFlush_no_race {s : State} (hs : staleAt s (s.dstAddr.toNat + s.outPos.toNat) = [])
    (h1 : 1 ≤ s.held.toNat) (h7 : s.held.toNat ≤ 7) (hr : ramAt s (s.dstAddr.toNat + s.outPos.toNat) = true) :
    microEFlush s = .next (finish { s with
      mem := memSet s.mem (s.dstAddr.toNat + s.outPos.toNat) (padFlush s).1, outPos := s.outPos + 1#32 }) := by
  have hw := blockWriteByte_no_race (s := (padFlush s).2) (padFlush s).1 hs hr
  have hh : ¬ (s.held.toNat = 0 ∨ 7 < s.held.toNat) := by omega
  simp only [microEFlush, if_neg hh, padFlush_fields, hw]
  rfl

/-- Settles O23, by the store of the byte emitted and by how many bits were held. -/
theorem encodeEmitStep : Obligations.EncodeEmitStep := by
  intro s₀ s hn hb hp hs h8 h16 ha hr
  have he := (step_eEmit hn hb hp).trans (microEEmit_no_race hs h8 hr)
  refine ⟨_, ?_, he.trans (congrArg _ (emitNext_of_held (emit8_held s h8) h8 h16 hp))⟩
  rw [emit8_eq]

/-- Settles O24, by the store of the byte that pads the held bits. -/
theorem encodeFlushStep : Obligations.EncodeFlushStep := by
  intro s₀ s hn hb hp hs h1 h7 ha hr
  rw [step_eFlush hn hb hp, microEFlush_no_race hs h1 h7 hr, padFlush_eq s h7 ha]
  rfl

/-! ## The empty transactions -/

theorem transaction_of_idle {s : State} (hb : s.busy = false) (k : Nat) :
    transaction .encode k s = Host.Core.run Sys2Proof.core k (accept .encode s) ∧
    transaction .decode k s = Host.Core.run Sys2Proof.core k (accept .decode s) := by
  obtain ⟨he, hd, -⟩ := commandAcceptance s hb
  constructor
  · rw [transaction, he]; rfl
  · rw [transaction, hd]; rfl

/-- Settles O49: the first check ends either transaction with nothing read or written. -/
theorem emptyTransactions : Obligations.EmptyTransactions := by
  intro s hb hin hlen i hi
  have hn (c : Cmd) : BlockTurnAt (accept c s) (accept c s) := .inl ⟨hin, rfl⟩
  have hl : s.srcLen.toNat = 0 := by rw [hlen]; rfl
  obtain rfl | rfl := hi
  · have hs := (encodeCheckStep _ _ (hn .encode) rfl rfl).trans (congrArg _ (if_pos hl))
    exact ⟨_, (transaction_of_idle hb 1).1.trans (run_succ (M := Sys2Proof.core) hs 0), rfl, rfl, rfl, rfl, hlen, rfl⟩
  · have hs : step (accept .decode s) = .next (finish (accept .decode s)) := by
      rw [step_blockTurn_busy (hn .decode) rfl]
      exact if_pos hl
    exact ⟨_, (transaction_of_idle hb 1).2.trans (run_succ (M := Sys2Proof.core) hs 0), rfl, rfl, rfl, rfl, rfl, rfl⟩

end Sys2Proof.Machine
end

section
/-! SUPPORT. Runs of the block alone, and E_CHECK and E_VALIDATE as one (rules R96, R112, R119), and the obligation about
a bad element. -/

namespace Sys2Proof.Machine

/-! ## Runs of the block alone -/

/-- k steps of the machine lead from s to t, and the transaction is running before each of them. -/
inductive BusyRun : Nat → State → State → Prop
  | refl (s : State) : BusyRun 0 s s
  | cons {k : Nat} {s t u : State} (hb : s.busy = true) (hs : step s = .next t) (hr : BusyRun k t u) :
    BusyRun (k + 1) s u

theorem BusyRun.single {s t : State} (hb : s.busy = true) (hs : step s = .next t) : BusyRun 1 s t :=
  .cons hb hs (.refl t)

theorem BusyRun.trans {j k : Nat} {s t u : State} (h : BusyRun j s t) (h' : BusyRun k t u) :
    BusyRun (j + k) s u := by
  induction h with
  | refl s => rwa [Nat.zero_add]
  | cons hb hs _ ih =>
    rw [Nat.add_right_comm]
    exact .cons hb hs (ih h')

theorem BusyRun.run_eq {k : Nat} {s t : State} (h : BusyRun k s t) : Host.Core.run Sys2Proof.core k s = .next t := by
  induction h with
  | refl s => rfl
  | cons _ hs _ ih => exact (run_succ (M := Sys2Proof.core) hs _).trans ih

theorem BusyRun.busy_before {k : Nat} {s t : State} (h : BusyRun k s t) {i : Nat} (hi : i < k) :
    ∃ u, Host.Core.run Sys2Proof.core i s = .next u ∧ u.busy = true := by
  induction h generalizing i with
  | refl s => exact absurd hi (Nat.not_lt_zero i)
  | @cons k s t u hb hs _ ih =>
    cases i with
    | zero => exact ⟨s, rfl, hb⟩
    | succ i =>
      rw [run_succ (M := Sys2Proof.core) hs]
      exact ih (Nat.lt_of_succ_lt_succ hi)

/-- What holds at the start and is handed on by each of n steps holds after them. -/
theorem BusyRun.iterate {P : Nat → State → Prop} {n : Nat} {s : State} (h0 : P 0 s)
    (hstep : ∀ k, k < n → ∀ t, P k t → t.busy = true ∧ ∃ u, step t = .next u ∧ P (k + 1) u) :
    ∃ t, BusyRun n s t ∧ P n t := by
  induction n with
  | zero => exact ⟨s, .refl s, h0⟩
  | succ n ih =>
    obtain ⟨t, hrun, ht⟩ := ih fun k hk => hstep k (Nat.lt_succ_of_lt hk)
    obtain ⟨hb, u, hs, hu⟩ := hstep n (Nat.lt_succ_self n) t ht
    exact ⟨u, hrun.trans (.single hb hs), hu⟩

/-- Part of a reachable range is reachable. -/
theorem Reaches.sub {s : State} {a n k m : Nat} (h : Reaches s a n) (hkm : k + m ≤ n) : Reaches s (a + k) m := by
  intro i hi
  rw [Nat.add_assoc]
  exact h (k + i) (by omega)

/-! ## Through the checks and the validation pass -/

/-- ENCODE accepted in s, with its descriptors checked and j elements found in range (rule R112). -/
def validating (s : State) (j : Nat) : State :=
  { accept .encode s with phase := .eValidate, inPos := BitVec.ofNat 32 (4 * j) }

/-- ENCODE accepted in s, with every element found in range (rule R112). -/
def validated (s : State) : State := { accept .encode s with phase := .eHeader }

section Validation

variable {s : State} (hu : RangesUsable s (4 * s.srcLen.toNat) (4 + payload s.srcLen.toNat))
  (hc : 4 + payload s.srcLen.toNat ≤ s.dstCap.toNat)

include hu

/-- Disjoint ranges leave the source shorter than the address space. -/
theorem source_lt_addrSpace : 4 * s.srcLen.toNat < 4294967296 := by
  obtain ⟨-, -, hsrc, hdst, hdisj⟩ := hu
  omega

/-- By whether element j is in range, and whether it is the last. -/
theorem step_validating {j : Nat} (hj : j < s.srcLen.toNat) (hr : Reaches s s.srcAddr.toNat (4 * (j + 1))) :
    step (validating s j) = .next (
      if (sourceElement s j).toNat < 1 ∨ 300 < (sourceElement s j).toNat then
        raise .outOfRange (BitVec.ofNat 32 j) (sourceElement s j) (validating s j)
      else if j + 1 = s.srcLen.toNat then validated s
      else validating s (j + 1)) := by
  have hlt := source_lt_addrSpace hu
  obtain ⟨-, hin, -⟩ := hu
  have hpos : (validating s j).inPos.toNat = 4 * j := (BitVec.toNat_ofNat _ _).trans (Nat.mod_eq_of_lt (by omega))
  have hnext : (validating s j).inPos + 4#32 = BitVec.ofNat 32 (4 * (j + 1)) := by
    rw [Nat.mul_succ, BitVec.ofNat_add]; rfl
  have hend : (BitVec.ofNat 32 (4 * (j + 1))).toNat = 4 * s.srcLen.toNat ↔ j + 1 = s.srcLen.toNat := by
    rw [BitVec.toNat_ofNat, Nat.mod_eq_of_lt (by omega)]; omega
  have hword : memWord (validating s j).mem ((validating s j).srcAddr.toNat + (validating s j).inPos.toNat) =
      sourceElement s j := by rw [hpos]; rfl
  have hreach : Reaches (validating s j) ((validating s j).srcAddr.toNat + (validating s j).inPos.toNat) 4 := by
    rw [hpos]; exact hr.sub (by omega)
  refine (encodeValidateStep (validating s j) _ (.inl ⟨hin, rfl⟩) rfl rfl (fun _ _ => staleAt_nil rfl _)
    hreach).trans (congrArg _ ?_)
  rw [hword, hnext, hpos, Nat.mul_div_cancel_left _ (by decide)]
  split_ifs with hbad h4 h1 h1
  · rfl
  · rfl
  · exact absurd (hend.1 h4) h1
  · exact absurd (hend.2 h1) h4
  · rfl

include hc

theorem step_accept_encode (h0 : 0 < s.srcLen.toNat) : step (accept .encode s) = .next (validating s 0) := by
  obtain ⟨-, hin, hsrc, hdst, hdisj⟩ := hu
  rw [payload] at hc hdst hdisj
  refine (encodeCheckStep (accept .encode s) _ (.inl ⟨hin, rfl⟩) rfl rfl).trans (congrArg _ ?_)
  simp only [accept_fields, accept_encode_fields]
  rw [if_neg (by omega), if_neg (by omega), if_neg (by omega), if_neg (by omega), if_neg (by omega)]
  rfl

/-- The check and the first i elements, in range and not the last. -/
theorem run_validating {i : Nat} (hi : i < s.srcLen.toNat) (hr : Reaches s s.srcAddr.toNat (4 * i))
    (hok : ∀ j, j < i → 1 ≤ (sourceElement s j).toNat ∧ (sourceElement s j).toNat ≤ 300) :
    BusyRun (1 + i) (accept .encode s) (validating s i) := by
  refine (BusyRun.single rfl (step_accept_encode hu hc (by omega))).trans ?_
  obtain ⟨_, hrun, rfl⟩ := BusyRun.iterate (P := fun j t => t = validating s j) (n := i) rfl fun j hj t ht => by
    subst ht
    have hj' := hok j hj
    refine ⟨rfl, _, step_validating hu (by omega) (hr.sub (k := 0) (by omega)), ?_⟩
    rw [if_neg (by omega), if_neg (by omega)]
  exact hrun

/-- The check and all N ≥ 1 elements, in range. -/
theorem run_validated (h0 : 0 < s.srcLen.toNat) (hr : Reaches s s.srcAddr.toNat (4 * s.srcLen.toNat))
    (hok : ∀ j, j < s.srcLen.toNat → 1 ≤ (sourceElement s j).toNat ∧ (sourceElement s j).toNat ≤ 300) :
    BusyRun (1 + s.srcLen.toNat) (accept .encode s) (validated s) := by
  obtain ⟨n, hn⟩ : ∃ n, s.srcLen.toNat = n + 1 := ⟨_, (Nat.succ_pred_eq_of_pos h0).symm⟩
  have hlast := step_validating hu (j := n) (by omega) (by rwa [← hn])
  have hn' := hok n (by omega)
  rw [if_neg (by omega), if_pos hn.symm] at hlast
  have hfirst := run_validating hu hc (i := n) (by omega) (hr.sub (k := 0) (by omega)) fun j hj => hok j (by omega)
  rw [hn]
  exact hfirst.trans (.single rfl hlast)

end Validation

/-- Settles O47: the check, i elements in range, and the one that is not. -/
theorem encodeReportsFirstBadElement : Obligations.EncodeReportsFirstBadElement := by
  intro s i hi hu hc hr hok hbad
  have hlast := step_validating hu hi hr
  rw [if_pos hbad] at hlast
  have hrun := (run_validating hu hc hi (hr.sub (k := 0) (by omega)) hok).trans (.single rfl hlast)
  have hlt := source_lt_addrSpace hu
  obtain ⟨hb, -⟩ := hu
  obtain ⟨htrans, -⟩ := transaction_of_idle hb (2 + i)
  rw [htrans, show 2 + i = 1 + i + 1 by omega]
  refine ⟨_, hrun.run_eq, rfl, rfl, rfl, rfl, ?_, rfl, rfl, rfl, ?_, rfl⟩
  · exact (BitVec.toNat_ofNat _ _).trans (Nat.mod_eq_of_lt (by omega))
  · exact (BitVec.toNat_ofNat _ _).trans (Nat.mod_eq_of_lt (by omega))

end Sys2Proof.Machine
end

section
/-! SUPPORT. Values of a fixed width one after the other as a string of bits, and the packed buffer as one (rules R51,
R79). -/

namespace Sys2Proof.Machine

/-! ## Strings of values -/

/-- The bits of the first n values, each most significant first. -/
def bitStream {w : Nat} (v : Nat → BitVec w) (n : Nat) : List Bool := (List.range n).flatMap fun i => bitsOf (v i)

theorem bitsOf_length {w : Nat} (v : BitVec w) : (bitsOf v).length = w := by simp [bitsOf]

theorem heldBits_length (s : State) : (heldBits s).length = s.held.toNat := by simp [heldBits]

theorem heldBits_congr {s u : State} (ha : u.acc = s.acc) (hh : u.held = s.held) : heldBits u = heldBits s := by
  simp only [heldBits, ha, hh]

theorem bitStream_succ {w : Nat} (v : Nat → BitVec w) (n : Nat) :
    bitStream v (n + 1) = bitStream v n ++ bitsOf (v n) := by
  simp [bitStream, List.range_succ]

theorem bitStream_congr {w n : Nat} {v v' : Nat → BitVec w} (h : ∀ i, i < n → v i = v' i) :
    bitStream v n = bitStream v' n :=
  List.flatMap_congr fun i hi => by rw [h i (List.mem_range.1 hi)]

theorem bitStream_length {w : Nat} (v : Nat → BitVec w) (n : Nat) : (bitStream v n).length = w * n := by
  induction n with
  | zero => rfl
  | succ n ih => rw [bitStream_succ, List.length_append, ih, bitsOf_length, Nat.mul_succ]

/-- Bit k of the string is bit k mod w of value k / w, counted from the most significant. -/
theorem getElem?_bitStream {w : Nat} (v : Nat → BitVec w) {n k : Nat} (hk : k < w * n) :
    (bitStream v n)[k]? = some ((v (k / w)).getLsbD (w - 1 - k % w)) := by
  induction n with
  | zero => simp at hk
  | succ n ih =>
    rw [bitStream_succ]
    rcases Nat.lt_or_ge k (w * n) with hlt | hge
    · rw [List.getElem?_append_left (by rwa [bitStream_length]), ih hlt]
    · obtain ⟨r, rfl⟩ := Nat.exists_eq_add_of_le hge
      have hr : r < w := by rw [Nat.mul_succ] at hk; omega
      rw [List.getElem?_append_right (by rwa [bitStream_length]), bitStream_length, Nat.add_sub_cancel_left,
        Nat.mul_add_div (by omega), Nat.div_eq_of_lt hr, Nat.mul_add_mod, Nat.mod_eq_of_lt hr]
      simp [bitsOf, hr]

/-- The bytes of memory from address a on. -/
def bytesFrom (m : Memory) (a j : Nat) : Byte := memByte m (a + j)

/-- A byte stored right after the first e extends their string by its bits. -/
theorem bitStream_store (m : Memory) (a e : Nat) (b : Byte) :
    bitStream (bytesFrom (memSet m (a + e) b) a) (e + 1) = bitStream (bytesFrom m a) e ++ bitsOf b := by
  have hfirst : bitStream (bytesFrom (memSet m (a + e) b) a) e = bitStream (bytesFrom m a) e :=
    bitStream_congr fun j hj => memByte_memSet_ne _ _ _ _ (by omega)
  rw [bitStream_succ, hfirst, bytesFrom, memByte_memSet_self]

theorem memWord_congr {m m' : Memory} {a : Nat} (h : ∀ j, j < 4 → memByte m (a + j) = memByte m' (a + j)) :
    memWord m a = memWord m' a := by
  have h0 : memByte m a = memByte m' a := h 0 (by decide)
  rw [memWord, memWord, h0, h 1 (by decide), h 2 (by decide), h 3 (by decide)]

/-- The payload as a string: the groups, then zeros up to a whole byte (rule R79). -/
theorem holdsPacked_of_bitStream {m : Memory} {d n : Nat} {g : Nat → Group} (hn : (memWord m d).toNat = n)
    (hb : bitStream (bytesFrom m (d + 4)) (payload n) =
      bitStream g n ++ List.replicate (8 * payload n - 9 * n) false) : HoldsPacked m d n g := by
  refine ⟨hn, fun j t hj ht => ?_⟩
  have hk : 8 * j + t < 8 * payload n := by omega
  have hleft := getElem?_bitStream (bytesFrom m (d + 4)) hk
  rw [hb, Nat.mul_add_div (by decide), Nat.div_eq_of_lt ht, Nat.mul_add_mod, Nat.mod_eq_of_lt ht] at hleft
  rcases Nat.lt_or_ge (8 * j + t) (9 * n) with hlt | hge
  · rw [List.getElem?_append_left (by rwa [bitStream_length]), getElem?_bitStream g hlt] at hleft
    simpa [streamBit, hlt, bytesFrom] using (Option.some.inj hleft).symm
  · rw [List.getElem?_append_right (by rwa [bitStream_length]), bitStream_length,
      List.getElem?_replicate_of_lt (by omega)] at hleft
    simpa [streamBit, Nat.not_lt.2 hge, bytesFrom] using (Option.some.inj hleft).symm

end Sys2Proof.Machine
end

section
/-! SUPPORT. ENCODE's header and packing pass as one run (rules R107, R113 to R119), and the obligation about the whole
transaction. -/

namespace Sys2Proof.Machine

/-! ## The storing phases -/

theorem EngineOnly.surroundings {s u : State} (h : EngineOnly s u) :
    u.errCode = s.errCode ∧ u.inbox = s.inbox ∧ u.stale = s.stale ∧ u.plat = s.plat := by
  rw [h]
  exact ⟨rfl, rfl, rfl, rfl⟩

theorem EngineOnly.trans {s t u : State} (h : EngineOnly s t) (h' : EngineOnly t u) : EngineOnly s u := by
  rw [EngineOnly, h', h]

/-- ENCODE accepted in s₀ has taken i elements and stored p bytes, all in the destination range. -/
structure Storing (s₀ : State) (i p : Nat) (s : State) : Prop where
  engine : EngineOnly (accept .encode s₀) s
  count : s.count = s₀.srcLen
  inPos : s.inPos.toNat = 4 * i
  outPos : s.outPos.toNat = p
  frame : ∀ a, a < s₀.dstAddr.toNat ∨ s₀.dstAddr.toNat + (4 + payload s₀.srcLen.toNat) ≤ a →
    memByte s.mem a = memByte s₀.mem a

/-- The group ENCODE packs for element i (rules R78, R114). -/
def sourceGroup (s : State) (i : Nat) : Group := groupOf (sourceElement s i)

/-- u is s with byte b stored at DST_ADDR + OUT_POS, in whatever phase and with whatever bits held. -/
def StoredByte (b : Byte) (s u : State) : Prop :=
  u = { s with
    phase := u.phase, acc := u.acc, held := u.held, outPos := s.outPos + 1#32
    mem := memSet s.mem (s.dstAddr.toNat + s.outPos.toNat) b, dstSeen := u.dstSeen }

/-- u is s with an element taken, in whatever phase and with whatever bits held. -/
def TookElement (s u : State) : Prop :=
  u = { s with phase := u.phase, acc := u.acc, held := u.held, inPos := s.inPos + 4#32 }

theorem EncodeUsable.destination_lt {s : State} (hu : EncodeUsable s) : 4 + payload s.srcLen.toNat < 4294967296 := by
  obtain ⟨-, -, hcap, -⟩ := hu
  exact lt_of_le_of_lt hcap s.dstCap.isLt

section Storing

variable {s₀ s u : State} {i p : Nat} (hu : EncodeUsable s₀) (h : Storing s₀ i p s)

include h

theorem Storing.busy : s.busy = true := h.engine.flags.1

theorem Storing.staleAt_eq (a : Nat) : staleAt s a = [] := by
  obtain ⟨-, -, hstale, -⟩ := h.engine.surroundings
  exact staleAt_nil hstale a

theorem Storing.ramAt_eq (a : Nat) : ramAt s a = ramAt s₀ a := by
  obtain ⟨-, -, -, hplat⟩ := h.engine.surroundings
  exact ramAt_of_plat hplat a

theorem Storing.storeAddr : s.dstAddr.toNat + s.outPos.toNat = s₀.dstAddr.toNat + p := by
  obtain ⟨-, -, hdst, -⟩ := h.engine.descriptors
  rw [h.outPos, hdst]
  rfl

theorem Storing.loadAddr : s.srcAddr.toNat + s.inPos.toNat = s₀.srcAddr.toNat + 4 * i := by
  obtain ⟨hsrc, -⟩ := h.engine.descriptors
  rw [h.inPos, hsrc]
  rfl

include hu

theorem Storing.turn : BlockTurnAt s s := by
  obtain ⟨-, ⟨-, hin, -⟩, -⟩ := hu
  obtain ⟨-, hinbox, -⟩ := h.engine.surroundings
  exact .inl ⟨hinbox.trans hin, rfl⟩

theorem Storing.reaches_store (hp : p < 4 + payload s₀.srcLen.toNat) :
    ramAt s (s.dstAddr.toNat + s.outPos.toNat) = true := by
  obtain ⟨-, -, -, -, hdst⟩ := hu
  rw [h.ramAt_eq, h.storeAddr]
  exact hdst p hp

theorem Storing.reaches_load (hi : i < s₀.srcLen.toNat) : Reaches s (s.srcAddr.toNat + s.inPos.toNat) 4 := by
  obtain ⟨-, -, -, hsrc, -⟩ := hu
  intro j hj
  rw [h.ramAt_eq, h.loadAddr]
  exact hsrc.sub (by omega) j hj

/-- No store has touched the source. -/
theorem Storing.loads_sourceElement (hi : i < s₀.srcLen.toNat) :
    memWord s.mem (s.srcAddr.toNat + s.inPos.toNat) = sourceElement s₀ i := by
  obtain ⟨-, ⟨-, -, -, -, hdisj⟩, -⟩ := hu
  rw [h.loadAddr]
  exact memWord_congr fun j hj => h.frame _ (by omega)

/-- A byte stored inside the destination range. -/
theorem Storing.store {b : Byte} (hp : p < 4 + payload s₀.srcLen.toNat) (hs : StoredByte b s u) :
    Storing s₀ i (p + 1) u ∧ u.mem = memSet s.mem (s₀.dstAddr.toNat + p) b := by
  have hlt := hu.destination_lt
  have hout := h.outPos
  have hmem : u.mem = memSet s.mem (s₀.dstAddr.toNat + p) b := by rw [hs, h.storeAddr]
  refine ⟨⟨h.engine.trans (by rw [hs]; rfl), by rw [hs]; exact h.count, by rw [hs]; exact h.inPos, ?_, fun a ha => ?_⟩,
    hmem⟩
  · rw [hs, ← hout]
    exact toNat_add_pos (by omega)
  · rw [hmem, memByte_memSet_ne _ _ _ _ (by omega)]
    exact h.frame a ha

theorem Storing.take (hi : i < s₀.srcLen.toNat) (ht : TookElement s u) : Storing s₀ (i + 1) p u ∧ u.mem = s.mem := by
  obtain ⟨-, hranges, -⟩ := hu
  have hlt := source_lt_addrSpace hranges
  have hin := h.inPos
  refine ⟨⟨h.engine.trans (by rw [ht]; rfl), by rw [ht]; exact h.count, ?_, by rw [ht]; exact h.outPos, ?_⟩, by rw [ht]⟩
  · rw [ht, Nat.mul_succ, ← hin]
    exact toNat_add_pos (by omega)
  · rw [ht]
    exact h.frame

end Storing

/-! ## E_HEADER -/

/-- ENCODE accepted in s₀ has written j bytes of its header, and nothing is held (rule R113). -/
structure HeaderUpTo (s₀ : State) (j : Nat) (s : State) : Prop extends Storing s₀ 0 j s where
  phase : s.phase = if j < 4 then .eHeader else .eLoad
  acc : s.acc = 0#16
  held : s.held = 0#5
  bytes : ∀ k, k < j → memByte s.mem (s₀.dstAddr.toNat + k) = wordByte s₀.srcLen k

theorem headerUpTo_validated (s₀ : State) : HeaderUpTo s₀ 0 (validated s₀) :=
  { engine := rfl, count := rfl, inPos := rfl, outPos := rfl, frame := fun _ _ => rfl, phase := rfl, acc := rfl
    held := rfl, bytes := fun k hk => absurd hk (Nat.not_lt_zero k) }

theorem HeaderUpTo.store {s₀ s u : State} {j : Nat} {b : Byte} (hu : EncodeUsable s₀) (h : HeaderUpTo s₀ j s)
    (hj : j < 4) (hs : StoredByte b s u) (hb : b = wordByte s₀.srcLen j)
    (hp : u.phase = if j + 1 < 4 then .eHeader else .eLoad) (ha : u.acc = s.acc) (hh : u.held = s.held) :
    HeaderUpTo s₀ (j + 1) u := by
  obtain ⟨hst, hmem⟩ := h.toStoring.store hu (by omega) hs
  refine { hst with phase := hp, acc := ha.trans h.acc, held := hh.trans h.held, bytes := fun k hk => ?_ }
  rw [hmem, hb, memByte_memSet]
  split
  · obtain rfl : j = k := by omega
    rfl
  · exact h.bytes k (by omega)

theorem HeaderUpTo.step {s₀ s : State} {j : Nat} (hu : EncodeUsable s₀) (h : HeaderUpTo s₀ j s) (hj : j < 4) :
    ∃ t, step s = .next t ∧ HeaderUpTo s₀ (j + 1) t := by
  have hs := encodeHeaderStep s s (h.turn hu) h.busy (by rw [h.phase, if_pos hj]) (by rwa [h.outPos]) (h.staleAt_eq _)
    (h.reaches_store hu (by omega))
  refine ⟨_, hs, h.store hu hj rfl ?_ ?_ rfl rfl⟩
  · rw [wordByte_eq, h.count, h.outPos]
  · by_cases h3 : j = 3
    · simp [h.outPos, h3]
    · have hlt : j + 1 < 4 := by omega
      simp [h.outPos, h3, hlt]

/-- All four bytes are the count, big-endian (rules R51, R113). -/
theorem HeaderUpTo.memWord_eq {s₀ s : State} (h : HeaderUpTo s₀ 4 s) : memWord s.mem s₀.dstAddr.toNat = s₀.srcLen := by
  have h0 : memByte s.mem s₀.dstAddr.toNat = wordByte s₀.srcLen 0 := h.bytes 0 (by decide)
  rw [memWord, h0, h.bytes 1 (by decide), h.bytes 2 (by decide), h.bytes 3 (by decide), wordOfBytes_wordByte]

/-! ## The packing pass -/

/-- ENCODE accepted in s₀ has written its header and e payload bytes: they and the bits held are the groups of the i
elements taken (rule R107). -/
structure Packing (s₀ : State) (i e : Nat) (s : State) : Prop extends Storing s₀ i (4 + e) s where
  acc : s.acc.toNat < 2 ^ s.held.toNat
  header : memWord s.mem s₀.dstAddr.toNat = s₀.srcLen
  bits : bitStream (bytesFrom s.mem (s₀.dstAddr.toNat + 4)) e ++ heldBits s = bitStream (sourceGroup s₀) i

/-- ENCODE accepted in s₀ has written its header and its whole payload (rules R79, R118). -/
structure Packed (s₀ s : State) : Prop extends Storing s₀ s₀.srcLen.toNat (4 + payload s₀.srcLen.toNat) s where
  header : memWord s.mem s₀.dstAddr.toNat = s₀.srcLen
  bits : bitStream (bytesFrom s.mem (s₀.dstAddr.toNat + 4)) (payload s₀.srcLen.toNat) =
    bitStream (sourceGroup s₀) s₀.srcLen.toNat ++
      List.replicate (8 * payload s₀.srcLen.toNat - 9 * s₀.srcLen.toNat) false

/-- PHASE fits the bits held and the elements taken (rules R114 to R116). -/
def PackingPhase (s₀ : State) (i : Nat) (s : State) : Prop :=
  (s.phase = .eLoad ∧ i < s₀.srcLen.toNat ∧ s.held.toNat ≤ 7) ∨
  (s.phase = .eEmit ∧ i ≤ s₀.srcLen.toNat ∧ 8 ≤ s.held.toNat ∧ s.held.toNat ≤ 16) ∨
  (s.phase = .eFlush ∧ i = s₀.srcLen.toNat ∧ 1 ≤ s.held.toNat ∧ s.held.toNat ≤ 7)

/-- k micro-steps into the packing pass: an element taken or a byte stored by each, or the pass is over. -/
def PackedSteps (s₀ : State) (k : Nat) (t : State) : Prop :=
  (∃ i e, i + e = k ∧ Packing s₀ i e t ∧ PackingPhase s₀ i t) ∨
  (k = s₀.srcLen.toNat + payload s₀.srcLen.toNat ∧ ∃ u, t = finish u ∧ Packed s₀ u)

/-- Nothing taken and nothing held: the header alone. -/
theorem packing_of_headerUpTo {s₀ s : State} (h : HeaderUpTo s₀ 4 s) : Packing s₀ 0 0 s :=
  { h.toStoring with
    acc := by simp [h.acc, h.held]
    header := h.memWord_eq
    bits := by simp [bitStream, heldBits, h.held] }

section Packing

variable {s₀ s u : State} {i e : Nat} (hu : EncodeUsable s₀) (h : Packing s₀ i e s)

include h

/-- The bits written and held are nine for each element taken (rule R107). -/
theorem Packing.bits_count : 8 * e + s.held.toNat = 9 * i := by
  have hlen := congrArg List.length h.bits
  rwa [List.length_append, bitStream_length, bitStream_length, heldBits_length] at hlen

/-- With every element taken and no bit held the payload is whole (rule R118). -/
theorem Packing.packed (hi : i = s₀.srcLen.toNat) (hh : s.held.toNat = 0) :
    Packed s₀ s := by
  subst hi
  have hcount := h.bits_count
  obtain rfl : e = payload s₀.srcLen.toNat := by rw [payload]; omega
  have hheld : heldBits s = [] := List.length_eq_zero_iff.1 ((heldBits_length s).trans hh)
  refine { h.toStoring with header := h.header, bits := ?_ }
  rw [← h.bits, hheld, show 8 * payload s₀.srcLen.toNat - 9 * s₀.srcLen.toNat = 0 by omega]
  simp

/-- The pass is not over before its last micro-step (rule R119). -/
theorem Packing.steps_lt (hp : PackingPhase s₀ i s) : i + e < s₀.srcLen.toNat + payload s₀.srcLen.toNat := by
  have hcount := h.bits_count
  rw [payload]
  obtain ⟨-, hi, h7⟩ | ⟨-, hi, h8, -⟩ | ⟨-, hi, h1, -⟩ := hp <;> omega

include hu

theorem Packing.take (hi : i < s₀.srcLen.toNat) (h7 : s.held.toNat ≤ 7) (ht : TookElement s u)
    (ha : u.acc = (push9 (sourceGroup s₀ i) s).acc) (hh : u.held = (push9 (sourceGroup s₀ i) s).held) :
    Packing s₀ (i + 1) e u := by
  obtain ⟨hst, hmem⟩ := h.toStoring.take hu hi ht
  have hheld : heldBits u = heldBits s ++ bitsOf (sourceGroup s₀ i) := by
    rw [← heldBits_push9 _ h7 h.acc, heldBits_congr ha hh]
  refine { hst with acc := ?_, header := by rw [hmem, h.header], bits := ?_ }
  · rw [ha, hh]
    exact push9_keeps_bound _ s h7 h.acc
  · rw [hmem, hheld, ← List.append_assoc, h.bits, bitStream_succ]

/-- A payload byte stored leaves the header and extends the payload. -/
theorem Packing.store {b : Byte} (he : e < payload s₀.srcLen.toNat) (hs : StoredByte b s u) :
    Storing s₀ i (4 + (e + 1)) u ∧ memWord u.mem s₀.dstAddr.toNat = s₀.srcLen ∧
      bitStream (bytesFrom u.mem (s₀.dstAddr.toNat + 4)) (e + 1) =
        bitStream (bytesFrom s.mem (s₀.dstAddr.toNat + 4)) e ++ bitsOf b := by
  obtain ⟨hst, hmem⟩ := h.toStoring.store hu (by omega) hs
  refine ⟨hst, ?_, ?_⟩
  · rw [← h.header, hmem]
    exact memWord_congr fun j hj => memByte_memSet_ne _ _ _ _ (by omega)
  · rw [hmem, ← Nat.add_assoc, bitStream_store]

theorem Packing.emit (he : e < payload s₀.srcLen.toNat) (h8 : 8 ≤ s.held.toNat) (h16 : s.held.toNat ≤ 16)
    (hs : StoredByte (emit8 s).1 s u) (ha : u.acc = (emit8 s).2.acc) (hh : u.held = (emit8 s).2.held) :
    Packing s₀ i (e + 1) u := by
  obtain ⟨hst, hhead, hbits⟩ := h.store hu he hs
  have hheld : heldBits s = bitsOf (emit8 s).1 ++ heldBits u := by
    rw [heldBits_emit8 h8 h16, heldBits_congr ha hh]
  refine { hst with acc := ?_, header := hhead, bits := ?_ }
  · rw [ha, hh]
    exact emit8_keeps_bound s h8 h16
  · rw [hbits, List.append_assoc, ← hheld, h.bits]

/-- The held bits stored above zeros complete the payload (rule R116). -/
theorem Packing.flush (hi : i = s₀.srcLen.toNat) (hpay : payload s₀.srcLen.toNat = e + 1) (h7 : s.held.toNat ≤ 7)
    (hs : StoredByte (padFlush s).1 s u) : Packed s₀ u := by
  subst hi
  have hcount := h.bits_count
  obtain ⟨hst, hhead, hbits⟩ := h.store hu (by omega) hs
  rw [← hpay] at hst hbits
  refine { hst with header := hhead, bits := ?_ }
  rw [hbits, bitsOf_padFlush h7 h.acc, ← List.append_assoc, h.bits]
  congr 2
  omega

/-- An element is taken, and at least nine bits are held after it. -/
theorem Packing.step_eLoad (hp : s.phase = .eLoad) (hi : i < s₀.srcLen.toNat) (h7 : s.held.toNat ≤ 7) :
    ∃ t, step s = .next t ∧ PackedSteps s₀ (i + e + 1) t := by
  have hs := (Machine.step_eLoad (h.turn hu) h.busy hp).trans
    (microELoad_no_race (fun _ _ => h.staleAt_eq _) (h.reaches_load hu hi))
  rw [h.loads_sourceElement hu hi] at hs
  have hheld := push9_held (sourceGroup s₀ i) s h7
  refine ⟨_, hs, .inl ⟨i + 1, e, by omega, h.take hu hi h7 rfl rfl rfl, .inr (.inl ⟨rfl, hi, ?_, ?_⟩)⟩⟩
  · exact le_of_le_of_eq (by omega) hheld.symm
  · exact le_of_eq_of_le hheld (by omega)

/-- A byte is stored, and the next phase is the one of the bits left and the elements left. -/
theorem Packing.step_eEmit (hp : s.phase = .eEmit) (hi : i ≤ s₀.srcLen.toNat) (h8 : 8 ≤ s.held.toNat)
    (h16 : s.held.toNat ≤ 16) : ∃ t, step s = .next t ∧ PackedSteps s₀ (i + e + 1) t := by
  have hcount := h.bits_count
  have he : e < payload s₀.srcLen.toNat := by rw [payload]; omega
  have hheld := emit8_held s h8
  have hin : s.inPos.toNat < 4 * s.count.toNat ↔ i < s₀.srcLen.toNat := by rw [h.inPos, h.count]; omega
  have hs := ((Machine.step_eEmit (h.turn hu) h.busy hp).trans
    (microEEmit_no_race (h.staleAt_eq _) h8 (h.reaches_store hu (by omega)))).trans
    (congrArg _ (emitNext_of_held (emit8_held s h8) h8 h16 hp))
  refine ⟨_, hs, ?_⟩
  split_ifs with hfull hmore hrest
  · refine .inl ⟨i, e + 1, by omega, h.emit hu he h8 h16 rfl rfl rfl, .inr (.inl ⟨hp, hi, ?_, ?_⟩)⟩
    · show 8 ≤ (emit8 s).2.held.toNat
      omega
    · show (emit8 s).2.held.toNat ≤ 16
      omega
  · refine .inl ⟨i, e + 1, by omega, h.emit hu he h8 h16 rfl rfl rfl, .inl ⟨rfl, hin.1 hmore, ?_⟩⟩
    show (emit8 s).2.held.toNat ≤ 7
    omega
  · have hlast : ¬ i < s₀.srcLen.toNat := mt hin.2 hmore
    refine .inl ⟨i, e + 1, by omega, h.emit hu he h8 h16 rfl rfl rfl, .inr (.inr ⟨rfl, by omega, ?_, ?_⟩)⟩
    · show 1 ≤ (emit8 s).2.held.toNat
      omega
    · show (emit8 s).2.held.toNat ≤ 7
      omega
  · have hlast : ¬ i < s₀.srcLen.toNat := mt hin.2 hmore
    have hnone : (emit8 s).2.held.toNat = 0 := by omega
    have hpay : payload s₀.srcLen.toNat = e + 1 := by rw [payload]; omega
    exact .inr ⟨by omega, _, rfl, Packing.packed (h.emit hu he h8 h16 rfl rfl rfl) (by omega) hnone⟩

/-- The last byte is stored, padded with zeros, and the pass is over. -/
theorem Packing.step_eFlush (hp : s.phase = .eFlush) (hi : i = s₀.srcLen.toNat) (h1 : 1 ≤ s.held.toNat)
    (h7 : s.held.toNat ≤ 7) : ∃ t, step s = .next t ∧ PackedSteps s₀ (i + e + 1) t := by
  have hcount := h.bits_count
  have hpay : payload s₀.srcLen.toNat = e + 1 := by rw [payload]; omega
  have hs := (Machine.step_eFlush (h.turn hu) h.busy hp).trans
    (microEFlush_no_race (h.staleAt_eq _) h1 h7 (h.reaches_store hu (by omega)))
  exact ⟨_, hs, .inr ⟨by omega, _, rfl, h.flush hu hi hpay h7 rfl⟩⟩

/-- By the phase. -/
theorem Packing.step_packs (hp : PackingPhase s₀ i s) : ∃ t, step s = .next t ∧ PackedSteps s₀ (i + e + 1) t := by
  obtain ⟨hp, hi, h7⟩ | ⟨hp, hi, h8, h16⟩ | ⟨hp, hi, h1, h7⟩ := hp
  · exact h.step_eLoad hu hp hi h7
  · exact h.step_eEmit hu hp hi h8 h16
  · exact h.step_eFlush hu hp hi h1 h7

end Packing

/-! ## The whole transaction -/

section Transaction

variable {s : State} (hu : EncodeUsable s)

include hu

/-- The packing pass: N elements taken, ceil(9N/8) bytes stored (rule R119). -/
theorem run_packed {t : State} (h : HeaderUpTo s 4 t) :
    ∃ u, BusyRun (s.srcLen.toNat + payload s.srcLen.toNat) t (finish u) ∧ Packed s u := by
  obtain ⟨hpos, -⟩ := id hu
  have h0 : PackedSteps s 0 t := .inl ⟨0, 0, rfl, packing_of_headerUpTo h, .inl ⟨h.phase, hpos, by simp [h.held]⟩⟩
  obtain ⟨_, hrun, ⟨i, e, hk, hpk, hp⟩ | ⟨-, u, rfl, hu'⟩⟩ := BusyRun.iterate h0 fun k hk t ht => by
    obtain ⟨i, e, rfl, hpk, hp⟩ | ⟨rfl, -⟩ := ht
    · exact ⟨hpk.busy, hpk.step_packs hu hp⟩
    · exact absurd hk (lt_irrefl _)
  · exact absurd hk (ne_of_lt (hpk.steps_lt hp))
  · exact ⟨u, hrun, hu'⟩

/-- ENCODE of N ≥ 1 elements in range, from its acceptance to its end (rules R118, R119). -/
theorem run_encode (hok : ∀ j, j < s.srcLen.toNat → 1 ≤ (sourceElement s j).toNat ∧ (sourceElement s j).toNat ≤ 300) :
    ∃ u, BusyRun (encodeSteps s.srcLen.toNat) (accept .encode s) (finish u) ∧ Packed s u := by
  obtain ⟨h0, hr, hc, hsrc, -⟩ := id hu
  have hvalid := run_validated hr hc h0 hsrc hok
  obtain ⟨t, hhead, ht⟩ := BusyRun.iterate (n := 4) (headerUpTo_validated s) fun k hk t ht =>
    ⟨ht.busy, ht.step hu hk⟩
  obtain ⟨u, hpack, hu'⟩ := run_packed hu ht
  have hsteps : encodeSteps s.srcLen.toNat = 1 + s.srcLen.toNat + 4 + (s.srcLen.toNat + payload s.srcLen.toNat) := by
    rw [encodeSteps]; omega
  rw [hsteps]
  exact ⟨u, (hvalid.trans hhead).trans hpack, hu'⟩

end Transaction

/-- Settles O44: the run of ENCODE as one, and what the packing pass leaves. -/
theorem encodeTransactionResult : Obligations.EncodeTransactionResult := by
  intro s hu hok
  obtain ⟨u, hrun, hp⟩ := run_encode hu hok
  obtain ⟨-, ⟨hidle, -⟩, -⟩ := hu
  have htrans (k : Nat) := (transaction_of_idle hidle k).1
  obtain ⟨-, -, herr, -, hop⟩ := hp.engine.flags
  obtain ⟨herrCode, -⟩ := hp.engine.surroundings
  refine ⟨fun k hk => ?_, finish u, ?_, rfl, rfl, herr, herrCode, hop, hp.count, hp.inPos, hp.outPos, rfl,
    ?_, hp.frame⟩
  · rw [htrans]
    exact hrun.busy_before hk
  · rw [htrans]
    exact hrun.run_eq
  · exact holdsPacked_of_bitStream (congrArg BitVec.toNat hp.header) hp.bits

end Sys2Proof.Machine
end

section
/-! SUPPORT. The micro-steps of DECODE as equations (rules R121 to R127), and the obligations about them. -/

namespace Sys2Proof.Machine

/-! ## D_CHECK0 and D_CHECK -/

theorem step_dCheck0 {s₀ s : State} (hn : BlockTurnAt s₀ s) (hb : s.busy = true) (hp : s.phase = .dCheck0) :
    step s₀ = microDCheck0 s := by
  simp [step_blockTurn_busy hn hb, microStep, hp]

theorem step_dCheck {s₀ s : State} (hn : BlockTurnAt s₀ s) (hb : s.busy = true) (hp : s.phase = .dCheck) :
    step s₀ = microDCheck s := by
  simp [step_blockTurn_busy hn hb, microStep, hp]

/-- DECODE's first checks for L ≥ 1 on the registers' numbers, in their order (rule R97). -/
theorem decodeCheck0_eq {s : State} (h0 : s.srcLen.toNat ≠ 0) :
    decodeCheck0 s =
      if 4294967296 < s.srcAddr.toNat + s.srcLen.toNat then some .invalidInput
      else if s.srcLen.toNat < 4 then some .truncatedBuffer
      else none := by
  simp only [decodeCheck0, wraps_iff, Nat.pos_of_ne_zero h0, true_and]

/-- Settles O25, by the first check that fails. -/
theorem decodeFirstCheckStep : Obligations.DecodeFirstCheckStep := by
  intro s₀ s hn hb hp
  rw [step_dCheck0 hn hb hp, microDCheck0]
  by_cases h0 : s.srcLen.toNat = 0
  · rw [if_pos h0, if_pos h0]
  · rw [if_neg h0, if_neg h0, decodeCheck0_eq h0]
    split_ifs <;> rfl

/-- DECODE's later checks on the registers' numbers, in their order (rule R97): a source that holds the header is not
empty. -/
theorem decodeCheck_eq (s : State) :
    decodeCheck s =
      if s.srcLen.toNat < 4 + payload s.count.toNat then some .truncatedBuffer
      else if s.dstCap.toNat < 4 * s.count.toNat then some .capacity
      else if 0 < s.count.toNat ∧ 4294967296 < s.dstAddr.toNat + 4 * s.count.toNat then some .invalidInput
      else if 0 < s.count.toNat ∧ s.srcAddr.toNat < s.dstAddr.toNat + 4 * s.count.toNat ∧
          s.dstAddr.toNat < s.srcAddr.toNat + s.srcLen.toNat then some .invalidInput
      else none := by
  have hdst : 0 < 4 * s.count.toNat ↔ 0 < s.count.toNat := by omega
  simp only [decodeCheck, wraps_iff, overlaps_iff, capacityFits, decide_eq_true_eq, Nat.not_le, hdst]
  by_cases hlen : s.srcLen.toNat < 4 + payload s.count.toNat
  · rw [if_pos hlen, if_pos hlen]
  · have hsrc : 0 < s.srcLen.toNat := by omega
    simp only [hsrc, true_and]

/-- Settles O27, by the first check that fails, and by whether there is an element to unpack. -/
theorem decodeSecondCheckStep : Obligations.DecodeSecondCheckStep := by
  intro s₀ s hn hb hp
  rw [step_dCheck hn hb hp, microDCheck, decodeCheck_eq]
  split_ifs <;> rfl

/-! ## D_HEADER and D_FILL -/

theorem microDHeader_no_race {s : State} (hs : staleAt s (s.srcAddr.toNat + s.inPos.toNat) = [])
    (hr : ramAt s (s.srcAddr.toNat + s.inPos.toNat) = true) :
    microDHeader s = .next (headerShift (memByte s.mem (s.srcAddr.toNat + s.inPos.toNat)) s) := by
  simp only [microDHeader, blockReadByte_no_race hs hr]

/-- Settles O26, by whether the header byte read is the fourth. -/
theorem decodeHeaderStep : Obligations.DecodeHeaderStep := by
  intro s₀ s hn hb hp hs hr
  rw [step_dHeader hn hb hp, microDHeader_no_race hs hr]
  obtain ⟨h4, e⟩ | ⟨h4, e⟩ := headerShift_cases (memByte s.mem (s.srcAddr.toNat + s.inPos.toNat)) s
  · rw [e, if_pos ((add_one_eq_four_iff _).1 h4)]
  · rw [e, if_neg (mt (add_one_eq_four_iff _).2 h4), ← hp]

/-- What D_FILL leads to, by whether a bit was held before it (rule R126). -/
theorem fillNext_fill8 (b : Byte) {s : State} (h8 : s.held.toNat ≤ 8) :
    fillNext (fill8 b s) = { fill8 b s with
      inPos := s.inPos + 1#32, phase := if 1 ≤ s.held.toNat then .dExtract else s.phase } := by
  have hheld := fill8_held b s h8
  obtain ⟨h9, e⟩ | ⟨h9, e⟩ := fillNext_cases (fill8 b s)
  · rw [e, if_pos (by omega)]
    rfl
  · rw [e, if_neg (by omega)]
    rfl

theorem microDFill_no_race {s : State} (hin : s.inPos ≠ s.srcLen)
    (hs : staleAt s (s.srcAddr.toNat + s.inPos.toNat) = []) (h8 : s.held.toNat ≤ 8)
    (hr : ramAt s (s.srcAddr.toNat + s.inPos.toNat) = true) :
    microDFill s = .next { fill8 (memByte s.mem (s.srcAddr.toNat + s.inPos.toNat)) s with
      inPos := s.inPos + 1#32, phase := if 1 ≤ s.held.toNat then .dExtract else s.phase } := by
  simp only [microDFill, if_neg hin, blockReadByte_no_race hs hr, fillNext_fill8 _ h8]

/-- Settles O28, by whether any input is left. -/
theorem decodeFillStep : Obligations.DecodeFillStep := by
  intro s₀ s hn hb hp
  rw [step_dFill hn hb hp]
  refine ⟨fun hin => if_pos hin, fun hin hs h8 _ hr => ?_⟩
  rw [microDFill_no_race hin hs h8 hr, fill8_eq, hp]

/-! ## D_EXTRACT -/

/-- t is s with word w stored at address a, and no other byte written (rules R13, R57). -/
structure StoredWord (a : Nat) (w : Word) (s t : State) : Prop where
  fields : t = { s with mem := t.mem, dstSeen := t.dstSeen }
  word : memWord t.mem a = w
  frame : ∀ x, x < a ∨ a + 4 ≤ x → memByte t.mem x = memByte s.mem x

theorem blockWriteWord_storedWord {s : State} {a : Nat} (w : Word) (hs : ∀ j, j < 4 → staleAt s (a + j) = [])
    (hr : Reaches s a 4) : ∃ t, blockWriteWord a w s = some t ∧ StoredWord a w s t := by
  obtain ⟨l, e, -⟩ := blockWriteWord_no_race w hs (reaches_word.1 hr)
  refine ⟨_, e, rfl, memWord_memSet_word _ _ _, fun x hx => ?_⟩
  rw [memByte_memSet_ne _ _ _ _ (by omega), memByte_memSet_ne _ _ _ _ (by omega),
    memByte_memSet_ne _ _ _ _ (by omega), memByte_memSet_ne _ _ _ _ (by omega)]

theorem microDExtract_no_race {s : State} (hs : ∀ j, j < 4 → staleAt s (s.dstAddr.toNat + s.outPos.toNat + j) = [])
    (h9 : 9 ≤ s.held.toNat) (hr : Reaches s (s.dstAddr.toNat + s.outPos.toNat) 4) :
    ∃ t, StoredWord (s.dstAddr.toNat + s.outPos.toNat) (elementOf (pull9 s).1) (pull9 s).2 t ∧
      microDExtract s = .next (extractNext t) := by
  obtain ⟨t, e, ht⟩ := blockWriteWord_storedWord (s := (pull9 s).2) (elementOf (pull9 s).1) hs hr
  exact ⟨t, ht, by simp only [microDExtract, if_neg (Nat.not_lt.2 h9), pull9_fields, e]⟩

/-- Settles O29: nine bits within the bound are the number above the bits left, and the element is one more. -/
theorem decodeExtractStep : Obligations.DecodeExtractStep := by
  intro s₀ s hn hb hp hs h9 _ ha hr
  obtain ⟨u, hu, e⟩ := microDExtract_no_race hs h9 hr
  obtain ⟨hout, hcount⟩ : u.outPos = s.outPos ∧ u.count = s.count := by rw [hu.fields]; exact ⟨rfl, rfl⟩
  refine ⟨_, { u with outPos := s.outPos + 4#32 }, (step_dExtract hn hb hp).trans e, ?_, ?_, hu.frame, ?_⟩
  · rw [hu.fields, pull9_eq]
  · rw [hu.word, elementOf_toNat, pull9_group, Nat.mod_eq_of_lt (pulled_lt s h9 ha)]
  · rw [extractNext_eq, hout, hcount]

end Sys2Proof.Machine
end

section
/-! SUPPORT. DECODE's checks and its header pass as one run (rules R97, R121 to R124, R131), and the obligations about a
transaction that ends at D_CHECK. -/

namespace Sys2Proof.Machine

/-- Byte j of the word at a is byte j from a on (rule R13). -/
theorem wordByte_memWord (m : Memory) (a : Nat) {j : Nat} (hj : j < 4) :
    wordByte (memWord m a) j = memByte m (a + j) := by
  obtain ⟨h0, h1, h2, h3⟩ := wordByte_wordOfBytes (memByte m a) (memByte m (a + 1)) (memByte m (a + 2))
    (memByte m (a + 3))
  interval_cases j
  · exact h0
  · exact h1
  · exact h2
  · exact h3

/-- The first j bytes of a word, as a number. -/
def wordPrefix (w : Word) (j : Nat) : Word := BitVec.ofNat 32 (w.toNat / 2 ^ (32 - 8 * j))

/-- One byte more, shifted in from below (rule R123). -/
theorem wordPrefix_succ (w : Word) {j : Nat} (hj : j < 4) :
    BitVec.ofNat 32 ((wordPrefix w j).toNat * 256 + (wordByte w j).toNat) = wordPrefix w (j + 1) := by
  have hlt : w.toNat / 2 ^ (32 - 8 * j) < 2 ^ 32 := lt_of_le_of_lt (Nat.div_le_self _ _) w.isLt
  have hpow : 2 ^ (32 - 8 * j) = 2 ^ (24 - 8 * j) * 2 ^ 8 := by rw [← pow_add]; congr 1; omega
  have hexp : 32 - 8 * (j + 1) = 24 - 8 * j := by omega
  rw [wordPrefix, wordPrefix, wordByte_eq, BitVec.toNat_ofNat, BitVec.toNat_ofNat, Nat.mod_eq_of_lt hlt, hpow,
    ← Nat.div_div_eq_div_mul, hexp]
  exact congrArg _ (Nat.div_add_mod' _ (2 ^ 8))

theorem wordPrefix_zero (w : Word) : wordPrefix w 0 = 0#32 := by
  rw [wordPrefix, Nat.div_eq_of_lt w.isLt]

theorem wordPrefix_four (w : Word) : wordPrefix w 4 = w := by simp [wordPrefix]

/-- DECODE accepted in s, with its first checks passed and j bytes of its header read (rule R123). -/
def readingHeader (s : State) (j : Nat) : State :=
  { accept .decode s with
    phase := if j < 4 then .dHeader else .dCheck
    inPos := BitVec.ofNat 32 j
    count := wordPrefix (memWord s.mem s.srcAddr.toNat) j }

/-- DECODE accepted in s, with its whole header read (rule R123). -/
def headerRead (s : State) : State :=
  { accept .decode s with phase := .dCheck, inPos := 4#32, count := memWord s.mem s.srcAddr.toNat }

theorem readingHeader_four (s : State) : readingHeader s 4 = headerRead s := by
  rw [readingHeader, wordPrefix_four]
  rfl

section Header

variable {s : State} (hin : s.inbox = [])

include hin

theorem step_accept_decode (h4 : 4 ≤ s.srcLen.toNat) (hsrc : s.srcAddr.toNat + s.srcLen.toNat ≤ 4294967296) :
    step (accept .decode s) = .next (readingHeader s 0) := by
  refine (decodeFirstCheckStep (accept .decode s) _ (.inl ⟨hin, rfl⟩) rfl rfl).trans (congrArg _ ?_)
  simp only [accept_fields]
  rw [if_neg (by omega), if_neg (by omega), if_neg (by omega), readingHeader, wordPrefix_zero]
  rfl

theorem step_readingHeader {j : Nat} (hj : j < 4) (hr : ramAt s (s.srcAddr.toNat + j) = true) :
    step (readingHeader s j) = .next (readingHeader s (j + 1)) := by
  have hpos : (readingHeader s j).inPos.toNat = j := (BitVec.toNat_ofNat _ _).trans (Nat.mod_eq_of_lt (by omega))
  have hnext : (readingHeader s j).inPos + 1#32 = BitVec.ofNat 32 (j + 1) := (BitVec.ofNat_add j 1).symm
  have hlast : (readingHeader s j).inPos = 3#32 ↔ ¬ j + 1 < 4 := by
    rw [← BitVec.toNat_inj, hpos, show (3#32).toNat = 3 from rfl]
    omega
  have haddr : (readingHeader s j).srcAddr.toNat + (readingHeader s j).inPos.toNat = s.srcAddr.toNat + j := by
    rw [hpos]; rfl
  refine (decodeHeaderStep (readingHeader s j) _ (.inl ⟨hin, rfl⟩) rfl (if_pos hj) (staleAt_nil rfl _)
    (by rw [haddr]; exact hr)).trans (congrArg _ ?_)
  have hbyte : memByte (readingHeader s j).mem (s.srcAddr.toNat + j) = wordByte (memWord s.mem s.srcAddr.toNat) j :=
    (wordByte_memWord _ _ hj).symm
  have hcount := wordPrefix_succ (memWord s.mem s.srcAddr.toNat) hj
  rw [haddr, hnext, hbyte, if_congr hlast rfl rfl, ite_not]
  rw [readingHeader, readingHeader, ← hcount]

/-- The first check and the four bytes of the header. -/
theorem run_headerRead (h4 : 4 ≤ s.srcLen.toNat) (hsrc : s.srcAddr.toNat + s.srcLen.toNat ≤ 4294967296)
    (hr : Reaches s s.srcAddr.toNat 4) : BusyRun 5 (accept .decode s) (headerRead s) := by
  obtain ⟨_, hrun, rfl⟩ := BusyRun.iterate (P := fun j t => t = readingHeader s j) (n := 4) rfl fun j hj t ht => by
    subst ht
    exact ⟨rfl, _, step_readingHeader hin hj (hr j hj), rfl⟩
  rw [← readingHeader_four]
  exact (BusyRun.single rfl (step_accept_decode hin h4 hsrc)).trans hrun

theorem step_headerRead : step (headerRead s) = microDCheck (headerRead s) := step_dCheck (.inl ⟨hin, rfl⟩) rfl rfl

end Header

/-- A DECODE that ends at D_CHECK ends there as that micro-step says (rule R131). -/
theorem transaction_to_dCheck {s t : State} (hb : s.busy = false) (hin : s.inbox = []) (h4 : 4 ≤ s.srcLen.toNat)
    (hsrc : s.srcAddr.toNat + s.srcLen.toNat ≤ 4294967296) (hr : Reaches s s.srcAddr.toNat 4)
    (ht : microDCheck (headerRead s) = .next t) : transaction .decode 6 s = .next t := by
  rw [(transaction_of_idle hb 6).2]
  exact ((run_headerRead hin h4 hsrc hr).trans (.single rfl ((step_headerRead hin).trans ht))).run_eq

/-- Settles O48: the header read asks for more than L, so the first check of D_CHECK fails. -/
theorem decodeDetectsTruncation : Obligations.DecodeDetectsTruncation := by
  intro s hb hin h4 hsrc hr hshort
  have hcheck : decodeCheck (headerRead s) = some .truncatedBuffer := (decodeCheck_eq _).trans (if_pos hshort)
  refine ⟨raise .truncatedBuffer 0#32 0#32 (headerRead s), transaction_to_dCheck hb hin h4 hsrc hr ?_, rfl, rfl, rfl,
    rfl, rfl, rfl, rfl, rfl, rfl, rfl⟩
  rw [microDCheck, hcheck]

/-- Settles O59: a header of 0 asks for no more than the header and for no destination, so every check passes. -/
theorem decodeOfZeroCount : Obligations.DecodeOfZeroCount := by
  intro s hb hin h4 hsrc hr hzero
  have hcount : (headerRead s).count.toNat = 0 := congrArg BitVec.toNat hzero
  have hlen : 4 + payload 0 ≤ (headerRead s).srcLen.toNat := h4
  have hcheck : decodeCheck (headerRead s) = none := by
    rw [decodeCheck_eq, hcount, if_neg (Nat.not_lt.2 hlen), if_neg (by simp), if_neg (by simp), if_neg (by simp)]
  refine ⟨finish (headerRead s), transaction_to_dCheck hb hin h4 hsrc hr ?_, rfl, rfl, rfl, rfl, rfl, hzero, rfl, rfl,
    rfl⟩
  rw [microDCheck, hcheck]
  exact if_pos hcount

end Sys2Proof.Machine
end

section
/-! SUPPORT. DECODE's unpacking pass as one run (rules R107, R126 to R131), and the obligations about the whole
transaction and the round trip. -/

namespace Sys2Proof.Machine

/-! ## The groups of a buffer as a string of bits -/

/-- The bits of a value tell it. -/
theorem bitsOf_injective {w : Nat} {v v' : BitVec w} (h : bitsOf v = bitsOf v') : v = v' := by
  refine BitVec.eq_of_getLsbD_eq fun i hi => ?_
  have hbit := List.map_inj_left.1 h (w - 1 - i) (List.mem_range.2 (by omega))
  rwa [show w - 1 - (w - 1 - i) = i by omega] at hbit

/-- The first k groups are the first bits of the payload, wherever they end in it (rules R51, R79). -/
theorem HoldsGroups.bitStream_isPrefix {m : Memory} {d n : Nat} {g : Nat → Group} (h : HoldsGroups m d n g) {k e : Nat}
    (hk : k ≤ n) (hke : 9 * k ≤ 8 * e) : bitStream g k <+: bitStream (bytesFrom m (d + 4)) e := by
  obtain ⟨-, hbits⟩ := h
  refine List.prefix_iff_getElem?.2 fun j hj => ?_
  have hlen := hj
  rw [bitStream_length] at hlen
  rw [← List.getElem?_eq_getElem hj, getElem?_bitStream _ (by omega), getElem?_bitStream _ hlen]
  exact congrArg some (hbits j (by omega))

/-- A packed buffer holds its groups: pad bits are not looked at (rule R129). -/
theorem HoldsPacked.holdsGroups {m : Memory} {d n : Nat} {g : Nat → Group} (h : HoldsPacked m d n g) :
    HoldsGroups m d n g := by
  obtain ⟨hn, hbits⟩ := h
  refine ⟨hn, fun j hj => ?_⟩
  rw [hbits (j / 8) (j % 8) (by rw [payload]; omega) (Nat.mod_lt _ (by decide)), Nat.div_add_mod, streamBit,
    decide_eq_true hj, Bool.true_and]

/-! ## The unpacking pass -/

/-- DECODE accepted in s₀ with a header of n has read e payload bytes and written k elements, those of the groups g: the
bytes read are the bits of these groups and the bits held (rule R107). -/
structure Unpacking (s₀ : State) (n : Nat) (g : Nat → Group) (e k : Nat) (s : State) : Prop where
  engine : EngineOnly (accept .decode s₀) s
  count : s.count.toNat = n
  inPos : s.inPos.toNat = 4 + e
  outPos : s.outPos.toNat = 4 * k
  frame : ∀ a, a < s₀.dstAddr.toNat ∨ s₀.dstAddr.toNat + 4 * n ≤ a → memByte s.mem a = memByte s₀.mem a
  elements : ∀ i, i < k → memWord s.mem (s₀.dstAddr.toNat + 4 * i) = elementOf (g i)
  acc : s.acc.toNat < 2 ^ s.held.toNat
  bits : bitStream g k ++ heldBits s = bitStream (bytesFrom s₀.mem (s₀.srcAddr.toNat + 4)) e

/-- PHASE fits the bits held, with an element still to be written (rules R126, R127). -/
def UnpackingPhase (n k : Nat) (s : State) : Prop :=
  k < n ∧ ((s.phase = .dFill ∧ s.held.toNat ≤ 8) ∨ (s.phase = .dExtract ∧ 9 ≤ s.held.toNat ∧ s.held.toNat ≤ 16))

/-- j micro-steps into the unpacking pass: a byte read or an element written by each, or the pass is over. -/
def UnpackedSteps (s₀ : State) (n : Nat) (g : Nat → Group) (j : Nat) (t : State) : Prop :=
  (∃ e k, e + k = j ∧ Unpacking s₀ n g e k t ∧ UnpackingPhase n k t) ∨
  (j = n + payload n ∧ ∃ u, t = finish u ∧ Unpacking s₀ n g (payload n) n u)

section Unpacking

variable {s₀ s : State} {n e k : Nat} {g : Nat → Group} (hu : DecodeUsable s₀ n)
  (hg : HoldsGroups s₀.mem s₀.srcAddr.toNat n g) (h : Unpacking s₀ n g e k s)

include h

theorem Unpacking.busy : s.busy = true := h.engine.flags.1

theorem Unpacking.staleAt_eq (a : Nat) : staleAt s a = [] := by
  obtain ⟨-, -, hstale, -⟩ := h.engine.surroundings
  exact staleAt_nil hstale a

theorem Unpacking.ramAt_eq (a : Nat) : ramAt s a = ramAt s₀ a := by
  obtain ⟨-, -, -, hplat⟩ := h.engine.surroundings
  exact ramAt_of_plat hplat a

theorem Unpacking.readAddr : s.srcAddr.toNat + s.inPos.toNat = s₀.srcAddr.toNat + 4 + e := by
  obtain ⟨hsrc, -⟩ := h.engine.descriptors
  rw [h.inPos, hsrc, Nat.add_assoc]
  rfl

theorem Unpacking.storeAddr : s.dstAddr.toNat + s.outPos.toNat = s₀.dstAddr.toNat + 4 * k := by
  obtain ⟨-, -, hdst, -⟩ := h.engine.descriptors
  rw [h.outPos, hdst]
  rfl

/-- The bits read are nine for each element written, and those held (rule R107). -/
theorem Unpacking.bits_count : 9 * k + s.held.toNat = 8 * e := by
  have hlen := congrArg List.length h.bits
  rwa [List.length_append, bitStream_length, bitStream_length, heldBits_length] at hlen

/-- The pass is not over before its last micro-step (rule R131). -/
theorem Unpacking.steps_lt (hp : UnpackingPhase n k s) : e + k < n + payload n := by
  have hcount := h.bits_count
  rw [payload]
  obtain ⟨hk, ⟨-, h8⟩ | ⟨-, -, h16⟩⟩ := hp <;> omega

include hg in
/-- The first nine bits held are the next group. -/
theorem Unpacking.pulls_group (hk : k < n) (h9 : 9 ≤ s.held.toNat) (h16 : s.held.toNat ≤ 16) : (pull9 s).1 = g k := by
  have hcount := h.bits_count
  have hpre := hg.bitStream_isPrefix (k := k + 1) (e := e) hk (by omega)
  rw [← h.bits, bitStream_succ, List.prefix_append_right_inj, heldBits_pull9 h9 h16] at hpre
  have hlen : (bitsOf (g k)).length = (bitsOf (pull9 s).1).length := by rw [bitsOf_length, bitsOf_length]
  have hfirst := List.prefix_of_prefix_length_le hpre (List.prefix_append _ _) hlen.le
  exact (bitsOf_injective (hfirst.eq_of_length hlen)).symm

include hu

theorem Unpacking.turn : BlockTurnAt s s := by
  obtain ⟨-, -, ⟨-, hin, -⟩, -⟩ := hu
  obtain ⟨-, hinbox, -⟩ := h.engine.surroundings
  exact .inl ⟨hinbox.trans hin, rfl⟩

theorem Unpacking.reaches_read (he : e < payload n) : ramAt s (s.srcAddr.toNat + s.inPos.toNat) = true := by
  obtain ⟨-, -, -, -, hsrc, -⟩ := hu
  rw [h.ramAt_eq, h.readAddr, Nat.add_assoc]
  exact hsrc (4 + e) (by omega)

theorem Unpacking.reaches_store (hk : k < n) : Reaches s (s.dstAddr.toNat + s.outPos.toNat) 4 := by
  obtain ⟨-, -, -, -, -, hdst⟩ := hu
  intro j hj
  rw [h.ramAt_eq, h.storeAddr]
  exact hdst.sub (by omega) j hj

/-- Input is left (rule R125). -/
theorem Unpacking.inPos_ne_srcLen (he : e < payload n) : s.inPos ≠ s.srcLen := by
  obtain ⟨-, hneed, -⟩ := hu
  obtain ⟨-, hlen, -⟩ := h.engine.descriptors
  have hlen : s.srcLen.toNat = s₀.srcLen.toNat := congrArg BitVec.toNat hlen
  have hin := h.inPos
  intro heq
  rw [heq, hlen] at hin
  omega

/-- No store has touched the source. -/
theorem Unpacking.reads_sourceByte (he : e < payload n) :
    memByte s.mem (s.srcAddr.toNat + s.inPos.toNat) = bytesFrom s₀.mem (s₀.srcAddr.toNat + 4) e := by
  obtain ⟨-, hneed, ⟨-, -, -, -, hdisj⟩, -⟩ := hu
  rw [h.readAddr]
  exact h.frame _ (by omega)

/-- A payload byte is taken into the bit buffer. -/
theorem Unpacking.fill (he : e < payload n) (h8 : s.held.toNat ≤ 8) (p : Phase) :
    Unpacking s₀ n g (e + 1) k
      { fill8 (bytesFrom s₀.mem (s₀.srcAddr.toNat + 4) e) s with inPos := s.inPos + 1#32, phase := p } := by
  obtain ⟨-, hneed, -⟩ := hu
  have hlen := s₀.srcLen.isLt
  have hin := h.inPos
  refine ⟨h.engine.trans rfl, h.count, ?_, h.outPos, h.frame, h.elements, fill8_keeps_bound _ s h8 h.acc, ?_⟩
  · rw [← Nat.add_assoc, ← hin]
    exact toNat_add_pos (by omega)
  · rw [bitStream_succ, ← h.bits, List.append_assoc, ← heldBits_fill8 _ h8 h.acc]
    rfl

/-- A byte is read, and an element can be written once nine bits are held. -/
theorem Unpacking.step_dFill (hp : s.phase = .dFill) (hk : k < n) (h8 : s.held.toNat ≤ 8) :
    ∃ t, step s = .next t ∧ UnpackedSteps s₀ n g (e + k + 1) t := by
  have hcount := h.bits_count
  have he : e < payload n := by rw [payload]; omega
  have hs := (Machine.step_dFill (h.turn hu) h.busy hp).trans
    (microDFill_no_race (h.inPos_ne_srcLen hu he) (h.staleAt_eq _) h8 (h.reaches_read hu he))
  rw [h.reads_sourceByte hu he] at hs
  have hheld := fill8_held (bytesFrom s₀.mem (s₀.srcAddr.toNat + 4) e) s h8
  refine ⟨_, hs, .inl ⟨e + 1, k, by omega, h.fill hu he h8 _, hk, ?_⟩⟩
  by_cases h1 : 1 ≤ s.held.toNat
  · exact .inr ⟨if_pos h1, le_of_le_of_eq (by omega) hheld.symm, le_of_eq_of_le hheld (by omega)⟩
  · exact .inl ⟨(if_neg h1).trans hp, le_of_eq_of_le hheld (by omega)⟩

include hg

/-- The next element is written, and its nine bits are dropped. -/
theorem Unpacking.extract {t : State} (hk : k < n) (h9 : 9 ≤ s.held.toNat) (h16 : s.held.toNat ≤ 16)
    (ht : StoredWord (s.dstAddr.toNat + s.outPos.toNat) (elementOf (pull9 s).1) (pull9 s).2 t) (p : Phase) :
    Unpacking s₀ n g e (k + 1) { t with outPos := t.outPos + 4#32, phase := p } := by
  obtain ⟨hfields, hword, hframe⟩ := ht
  rw [h.storeAddr] at hword hframe
  have hgroup := h.pulls_group hg hk h9 h16
  obtain ⟨-, -, -, hcap, -⟩ := hu
  have hlt := s₀.dstCap.isLt
  have hout := h.outPos
  refine ⟨h.engine.trans (by rw [hfields]; rfl), ?_, ?_, ?_, fun a ha => ?_, fun i hi => ?_, ?_, ?_⟩
  · rw [hfields]; exact h.count
  · rw [hfields]; exact h.inPos
  · have hnext : (s.outPos + 4#32).toNat = s.outPos.toNat + 4 := toNat_add_pos (by omega)
    rw [hfields, Nat.mul_succ, ← hout]
    exact hnext
  · exact (hframe a (by omega)).trans (h.frame a ha)
  · obtain hlast | hlast : i < k ∨ i = k := by omega
    · exact (memWord_congr fun j hj => hframe _ (by omega)).trans (h.elements i hlast)
    · rw [hlast, ← hgroup, ← hword]
  · rw [hfields]
    exact pull9_keeps_bound s h9 h16
  · rw [← h.bits, heldBits_pull9 h9 h16, hgroup, bitStream_succ, List.append_assoc, hfields]
    rfl

/-- An element is written, and the pass is over with the last one. -/
theorem Unpacking.step_dExtract (hp : s.phase = .dExtract) (hk : k < n) (h9 : 9 ≤ s.held.toNat)
    (h16 : s.held.toNat ≤ 16) : ∃ t, step s = .next t ∧ UnpackedSteps s₀ n g (e + k + 1) t := by
  have hcount := h.bits_count
  obtain ⟨t, ht, hmicro⟩ := microDExtract_no_race (fun _ _ => h.staleAt_eq _) h9 (h.reaches_store hu hk)
  refine ⟨_, (Machine.step_dExtract (h.turn hu) h.busy hp).trans hmicro, ?_⟩
  have hnext (p : Phase) := h.extract hu hg hk h9 h16 ht p
  have hout : (t.outPos + 4#32).toNat = 4 * (k + 1) := (hnext t.phase).outPos
  have hn : t.count.toNat = n := (hnext t.phase).count
  have hheld : t.held.toNat = s.held.toNat - 9 := by rw [ht.fields]; exact pull9_held s h9
  rw [extractNext_eq, hout, hn]
  split_ifs with hlast
  · obtain rfl : n = k + 1 := by omega
    obtain rfl : e = payload (k + 1) := by rw [payload]; omega
    exact .inr ⟨by omega, _, rfl, hnext t.phase⟩
  · refine .inl ⟨e, k + 1, by omega, hnext .dFill, by omega, .inl ⟨rfl, ?_⟩⟩
    show t.held.toNat ≤ 8
    omega

/-- By the phase. -/
theorem Unpacking.step_unpacks (hp : UnpackingPhase n k s) :
    ∃ t, step s = .next t ∧ UnpackedSteps s₀ n g (e + k + 1) t := by
  obtain ⟨hk, ⟨hp, h8⟩ | ⟨hp, h9, h16⟩⟩ := hp
  · exact h.step_dFill hu hp hk h8
  · exact h.step_dExtract hu hg hp hk h9 h16

end Unpacking

/-! ## The whole transaction -/

section Transaction

variable {s : State} {n : Nat} {g : Nat → Group} (hu : DecodeUsable s n) (hg : HoldsGroups s.mem s.srcAddr.toNat n g)

include hg

/-- Nothing written and nothing held: the header alone. -/
theorem unpacking_of_headerRead : Unpacking s n g 0 0 { headerRead s with phase := .dFill } := by
  obtain ⟨hcount, -⟩ := hg
  exact {
    engine := rfl, count := hcount, inPos := rfl, outPos := rfl, frame := fun _ _ => rfl
    elements := fun i hi => absurd hi (Nat.not_lt_zero i), acc := Nat.zero_lt_one, bits := rfl }

include hu

/-- Every check passes. -/
theorem step_headerRead_usable : step (headerRead s) = .next { headerRead s with phase := .dFill } := by
  obtain ⟨hpos, hneed, ⟨-, hin, -, hdst, hdisj⟩, hcap, -⟩ := hu
  obtain ⟨hcount, -⟩ := hg
  have hcount : (headerRead s).count.toNat = n := hcount
  have hcheck : decodeCheck (headerRead s) = none := by
    refine decodeCheck_pass ?_ ?_ ?_ ?_ <;> rw [hcount]
    · exact hneed
    · exact hcap
    · exact hdst
    · exact hdisj
  rw [step_headerRead hin, microDCheck, hcheck]
  exact if_neg (by omega)

/-- The unpacking pass: ceil(9n/8) bytes read, n elements written (rule R131). -/
theorem run_unpacked :
    ∃ u, BusyRun (n + payload n) { headerRead s with phase := .dFill } (finish u) ∧
      Unpacking s n g (payload n) n u := by
  obtain ⟨hpos, -⟩ := id hu
  have h0 : UnpackedSteps s n g 0 { headerRead s with phase := .dFill } :=
    .inl ⟨0, 0, rfl, unpacking_of_headerRead hg, hpos, .inl ⟨rfl, Nat.zero_le 8⟩⟩
  obtain ⟨_, hrun, ⟨e, k, hj, hpk, hp⟩ | ⟨-, u, rfl, hu'⟩⟩ := BusyRun.iterate h0 fun j hj t ht => by
    obtain ⟨e, k, rfl, hpk, hp⟩ | ⟨rfl, -⟩ := ht
    · exact ⟨hpk.busy, hpk.step_unpacks hu hg hp⟩
    · exact absurd hj (lt_irrefl _)
  · exact absurd hj (ne_of_lt (hpk.steps_lt hp))
  · exact ⟨u, hrun, hu'⟩

/-- DECODE of n ≥ 1 groups, from its acceptance to its end (rules R130, R131). -/
theorem run_decode :
    ∃ u, BusyRun (decodeSteps n) (accept .decode s) (finish u) ∧ Unpacking s n g (payload n) n u := by
  obtain ⟨-, hneed, ⟨-, hin, hsrc, -⟩, -, hr, -⟩ := id hu
  have hhead := run_headerRead hin (by omega) hsrc (hr.sub (k := 0) (by omega))
  have hcheck := BusyRun.single rfl (step_headerRead_usable hu hg)
  obtain ⟨u, hrun, hu'⟩ := run_unpacked hu hg
  have hsteps : decodeSteps n = 5 + 1 + (n + payload n) := by rw [decodeSteps]; omega
  rw [hsteps]
  exact ⟨u, (hhead.trans hcheck).trans hrun, hu'⟩

end Transaction

/-- Settles O45: the run of DECODE as one, and what the unpacking pass leaves. -/
theorem decodeTransactionResult : Obligations.DecodeTransactionResult := by
  intro s n g hu hg
  obtain ⟨u, hrun, hp⟩ := run_decode hu hg
  obtain ⟨-, -, ⟨hidle, -⟩, -⟩ := hu
  have htrans (k : Nat) := (transaction_of_idle hidle k).2
  obtain ⟨-, -, herr, -, hop⟩ := hp.engine.flags
  obtain ⟨herrCode, -⟩ := hp.engine.surroundings
  refine ⟨fun k hk => ?_, finish u, ?_, rfl, rfl, herr, herrCode, hop, hp.count, hp.inPos, hp.outPos, rfl,
    fun k hk => ?_, hp.frame⟩
  · rw [htrans]
    exact hrun.busy_before hk
  · rw [htrans]
    exact hrun.run_eq
  · exact (congrArg BitVec.toNat (hp.elements k hk)).trans (elementOf_toNat _)

/-! ## The round trip -/

/-- The element written for the group of a word in range is that word (rules R78, R130). -/
theorem elementOf_groupOf {w : Word} (h1 : 1 ≤ w.toNat) (h300 : w.toNat ≤ 300) : elementOf (groupOf w) = w := by
  apply BitVec.eq_of_toNat_eq
  rw [elementOf_toNat, groupOf_toNat]
  omega

/-- A DECODE of what the last command wrote in s is set up, with destination d of capacity c. -/
def decodeOutput (s : State) (d c : Word) : State :=
  { s with srcAddr := s.dstAddr, srcLen := s.outLen, dstAddr := d, dstCap := c }

/-- The buffer ENCODE left can be decoded to any reachable range outside it (rule R97). -/
theorem Packed.decodeUsable {s u : State} (hu : EncodeUsable s) (h : Packed s u) {d c : Word}
    (hc : 4 * s.srcLen.toNat ≤ c.toNat) (hd : d.toNat + 4 * s.srcLen.toNat ≤ 4294967296)
    (hdisj : d.toNat + 4 * s.srcLen.toNat ≤ s.dstAddr.toNat ∨
      s.dstAddr.toNat + (4 + payload s.srcLen.toNat) ≤ d.toNat)
    (hr : Reaches s d.toNat (4 * s.srcLen.toNat)) :
    DecodeUsable (decodeOutput (finish u) d c) s.srcLen.toNat := by
  obtain ⟨hpos, ⟨-, hin, -, hbuf, -⟩, -, -, hreach⟩ := hu
  obtain ⟨-, hinbox, -, hplat⟩ := h.engine.surroundings
  obtain ⟨-, -, hdst, -⟩ := h.engine.descriptors
  have hsrc : (decodeOutput (finish u) d c).srcAddr.toNat = s.dstAddr.toNat := congrArg BitVec.toNat hdst
  have hlen : (decodeOutput (finish u) d c).srcLen.toNat = 4 + payload s.srcLen.toNat := h.outPos
  have hram (a : Nat) : ramAt (decodeOutput (finish u) d c) a = ramAt s a := ramAt_of_plat hplat a
  rw [DecodeUsable, RangesUsable, hsrc, hlen]
  refine ⟨hpos, le_rfl, ⟨rfl, hinbox.trans hin, hbuf, hd, hdisj.symm⟩, hc, fun i hi => ?_, fun i hi => ?_⟩
  · rw [hram]
    exact hreach i hi
  · rw [hram]
    exact hr i hi

/-- Settles O46: the buffer ENCODE leaves holds the groups of its elements, and DECODE writes the elements of these. -/
theorem roundTripIdentity : Obligations.RoundTripIdentity := by
  intro s d c hu hok hc hd hdisj hr
  obtain ⟨v, hencode, hp⟩ := run_encode hu hok
  have hused := hp.decodeUsable hu hc hd hdisj hr
  have hpacked := (holdsPacked_of_bitStream (congrArg BitVec.toNat hp.header) hp.bits).holdsGroups
  obtain ⟨-, -, hdst, -⟩ := hp.engine.descriptors
  have hgroups : HoldsGroups (decodeOutput (finish v) d c).mem (decodeOutput (finish v) d c).srcAddr.toNat
      s.srcLen.toNat (sourceGroup s) := by
    rwa [show (decodeOutput (finish v) d c).srcAddr = s.dstAddr from hdst]
  obtain ⟨u, hdecode, hunp⟩ := run_decode hused hgroups
  obtain ⟨-, ⟨hidle, -⟩, -⟩ := hu
  refine ⟨finish v, finish u, (transaction_of_idle hidle _).1.trans hencode.run_eq,
    (transaction_of_idle rfl _).2.trans hdecode.run_eq, rfl, rfl, hunp.outPos, fun i hi => ?_⟩
  obtain ⟨h1, h300⟩ := hok i hi
  exact (hunp.elements i hi).trans (elementOf_groupOf h1 h300)

end Sys2Proof.Machine
end

section
/-! SUPPORT. The host's accesses to the registers (rules R132 to R141): what the block does after a read, what a command
written answers, and each register read and written, and the obligations about them. -/

namespace Sys2Proof.Machine

/-! ## What the host has read (rules R132, R160) -/

theorem blockTurnAt_busReturn {s₀ s : State} (hn : BlockTurnAt s₀ s) (v : Word) :
    BlockTurnAt (busReturn v s₀) (busReturn v s) := by
  obtain ⟨hin, rfl⟩ | ⟨rest, hin, rfl⟩ := hn
  · exact .inl ⟨hin, rfl⟩
  · exact .inr ⟨rest, hin, rfl⟩

theorem step_busReturn_of_blockTurnAt {s₀ s : State} (hn : BlockTurnAt s₀ s) (v : Word) :
    step (busReturn v s₀) = mapNext (busReturn v) (step s₀) := by
  rw [step_blockTurn (blockTurnAt_busReturn hn v), blockTurn_busReturn, step_blockTurn hn]

/-- Settles O55: the block's turn commutes with the change of the data returned. -/
theorem hostReadsDoNotDisturbBlock : Obligations.HostReadsDoNotDisturbBlock := by
  intro s₀ s v hn
  have hstep := step_busReturn_of_blockTurnAt hn v
  exact ⟨fun t ht => hstep.trans (congrArg (mapNext (busReturn v)) ht),
    fun f hf => hstep.trans (congrArg (mapNext (busReturn v)) hf)⟩

/-! ## CMD -/

/-- What is not one of the two commands presented to an idle block is rejected (rules R87, R88). -/
theorem presentCommand_of_not_accepted {w : Word} {s : State} (h : ¬ (s.busy = false ∧ (w = 1#32 ∨ w = 2#32))) :
    presentCommand w s = reject s := by
  obtain ⟨hb, hw, -⟩ | ⟨hb, hw, -⟩ | ⟨-, e⟩ := presentCommand_cases w s
  · exact absurd ⟨hb, .inl hw⟩ h
  · exact absurd ⟨hb, .inr hw⟩ h
  · exact e

/-- Settles O10: the two commands are accepted while idle, and all else is rejected. -/
theorem cmdRegisterAccess : Obligations.CmdRegisterAccess := by
  refine fun s w => ⟨rfl, ?_, ?_, fun h => congrArg Host.Outcome.next (presentCommand_of_not_accepted h)⟩
  · rintro ⟨hb, rfl⟩
    obtain ⟨he, -⟩ := presentCommand_of_idle hb
    exact ⟨rfl, _, congrArg Host.Outcome.next he, rfl, rfl, rfl⟩
  · rintro ⟨hb, rfl⟩
    obtain ⟨-, hd⟩ := presentCommand_of_idle hb
    exact ⟨rfl, _, congrArg Host.Outcome.next hd, rfl, rfl, rfl⟩

/-! ## STATUS and IRQ_EN -/

open BitVec (getLsbD_concat_zero getLsbD_concat_succ) in
/-- The four flags in STATUS, one appended below the other (rule R135). -/
theorem statusWord_flags (s : State) :
    (statusWord s).getLsbD 0 = s.busy ∧ (statusWord s).getLsbD 1 = s.done ∧
    (statusWord s).getLsbD 2 = s.err ∧ (statusWord s).getLsbD 3 = s.cmdRej :=
  ⟨getLsbD_concat_zero, getLsbD_concat_succ.trans getLsbD_concat_zero,
    getLsbD_concat_succ.trans (getLsbD_concat_succ.trans getLsbD_concat_zero),
    getLsbD_concat_succ.trans (getLsbD_concat_succ.trans (getLsbD_concat_succ.trans getLsbD_concat_zero))⟩

/-- The four fields of STATUS above its flags (rule R135): each is the lowest of what stands above those before it. -/
theorem statusWord_fields (s : State) :
    (statusWord s).extractLsb' 4 4 = opCode s.op ∧ (statusWord s).extractLsb' 8 4 = errCodeBits s.errCode ∧
    (statusWord s).extractLsb' 12 4 = phaseCode s.phase ∧ (statusWord s).extractLsb' 16 16 = 0#16 := by
  simp (disch := decide) only [statusWord, BitVec.extractLsb'_append_eq_of_le, BitVec.extractLsb'_append_eq_of_add_le,
    BitVec.extractLsb'_eq_self, Nat.reduceSub, and_self]

/-- The write-one-to-clear bits one by one (rule R135). -/
theorem clearStatus_eq (w : Word) (s : State) :
    clearStatus w s = { s with
      done := if w.getLsbD 1 then false else s.done
      err := if w.getLsbD 2 then false else s.err
      cmdRej := if w.getLsbD 3 then false else s.cmdRej } := by
  have h : ∀ b c : Bool, (b && !c) = if c then false else b := by decide
  simp only [clearStatus, h]

/-- Settles O13, by STATUS's layout and its write-one-to-clear bits. -/
theorem statusRegisterAccess : Obligations.StatusRegisterAccess := by
  refine ⟨fun s => ?_, fun s w => congrArg Host.Outcome.next (clearStatus_eq w s)⟩
  obtain ⟨hbusy, hdone, herr, hrej⟩ := statusWord_flags s
  exact ⟨statusWord s, rfl, hbusy, hdone, herr, hrej, statusWord_fields s⟩

/-- IRQ_EN's layout (rule R136). -/
theorem irqEnWord_fields (s : State) :
    (irqEnWord s).getLsbD 0 = s.doneIe ∧ (irqEnWord s).getLsbD 1 = s.errIe ∧
    (irqEnWord s).extractLsb' 2 30 = 0#30 := by
  refine ⟨BitVec.getLsbD_concat_zero, BitVec.getLsbD_concat_succ.trans BitVec.getLsbD_concat_zero, ?_⟩
  simp (disch := decide) only [irqEnWord, BitVec.extractLsb'_append_eq_of_le, BitVec.extractLsb'_eq_self, Nat.reduceSub]

/-- Settles O14, by IRQ_EN's layout and the interrupt output after a write of it. -/
theorem irqEnRegisterAccess : Obligations.IrqEnRegisterAccess :=
  ⟨fun s => ⟨irqEnWord s, rfl, irqEnWord_fields s⟩, fun s w => ⟨rfl, irq_setIrqEn w s⟩⟩

/-! ## The descriptors -/

theorem whenIdle_of_idle {s : State} (hb : s.busy = false) (f : State → State) : whenIdle f s = f s := by
  simp [whenIdle, hb]

theorem whenIdle_of_busy {s : State} (hb : s.busy = true) (f : State → State) : whenIdle f s = s := if_pos hb

/-- Settles O15: a descriptor's write is `whenIdle` of its update. -/
theorem descriptorRegisterAccess : Obligations.DescriptorRegisterAccess := by
  refine ⟨fun s => ⟨rfl, rfl, rfl, rfl⟩, fun s w hb => ?_, fun s w hb => ?_⟩
  · refine ⟨?_, ?_, ?_, ?_⟩ <;> exact congrArg Host.Outcome.next (whenIdle_of_idle hb _)
  · refine ⟨?_, ?_, ?_, ?_⟩ <;> exact congrArg Host.Outcome.next (whenIdle_of_busy hb _)

/-! ## The read-only registers -/

/-- Settles O9: ID is a constant. -/
theorem idRegisterAccess : Obligations.IdRegisterAccess := fun _ _ => ⟨rfl, rfl⟩

theorem busReturn_setWidth {n : ℕ} (x : BitVec n) (s : State) :
    busReturn (x.setWidth 32) s = { s with busRdata := BitVec.ofNat 32 x.toNat } := by
  rw [BitVec.ofNat_toNat, busReturn]

/-- Settles O16: the 32-bit registers are read as they are, ACC and HELD zero-extended, and no write has an effect. -/
theorem resultRegisterAccess : Obligations.ResultRegisterAccess :=
  ⟨fun s => ⟨rfl, rfl, rfl, rfl, congrArg Host.Outcome.next (busReturn_setWidth s.acc s),
      congrArg Host.Outcome.next (busReturn_setWidth s.held s), rfl, rfl⟩,
    fun _ _ => ⟨rfl, rfl, rfl, rfl, rfl, rfl, rfl, rfl⟩⟩

end Sys2Proof.Machine
end

section
/-! SUPPORT. The block's turn while idle (rules R10, R161), and the obligation about the block's turn. -/

namespace Sys2Proof.Machine

theorem step_blockTurn_idle {s₀ s : State} (h : BlockTurnAt s₀ s) (hb : s.busy = false) : step s₀ = .next s := by
  simp [step_blockTurn h, blockTurn, hb]

/-- Settles O8, by the block's turn while idle and while BUSY. -/
theorem idleBlockTakesNoStep : Obligations.IdleBlockTakesNoStep := by
  refine ⟨fun s hb => ⟨fun hi => ?_, fun rest hi => ?_⟩, fun s₀ s hn hb => step_blockTurn_busy hn hb⟩
  · exact step_blockTurn_idle (.inl ⟨hi, rfl⟩) hb
  · exact step_blockTurn_idle (.inr ⟨rest, hi, rfl⟩) hb

end Sys2Proof.Machine
end

section
/-! SUPPORT. A reset of a running block (rules R162, R163), and the obligation about a reset at any time. -/

namespace Sys2Proof.Machine

/-- With no destination range there is nothing a reset may change (rule R163). -/
theorem resetMemory_of_outputLength_eq_zero {s : State} (h : outputLength s = 0) : resetMemory s = s := by
  simp [resetMemory, h, scribble]

/-- A reset leaves memory outside the destination range, whether a transaction runs or not (rule R163). -/
theorem resetMemory_outside (s : State) {a : Nat}
    (ha : a < s.dstAddr.toNat ∨ s.dstAddr.toNat + outputLength s ≤ a) :
    memByte (resetMemory s).mem a = memByte s.mem a := by
  unfold resetMemory
  split
  · obtain ⟨m, k, e, -, hout⟩ := scribble_spec (outputLength s) s.dstAddr.toNat s
    rw [e]
    exact hout a ha
  · rfl

/-- Settles O2: the destination range is empty in the phases of the checks, and a reset leaves all else of memory. -/
theorem resetAtAnyTime : Obligations.ResetAtAnyTime := by
  refine fun s rest hn => ⟨_, step_reset hn, rfl, fun hp => ?_, fun a ha => ?_⟩
  · have hl : outputLength s = 0 := by rcases hp with hp | hp | hp | hp | hp <;> simp [outputLength, hp]
    have e : resetMemory { s with inbox := rest } = { s with inbox := rest } :=
      resetMemory_of_outputLength_eq_zero hl
    rw [resetBlock, e]
  · exact resetMemory_outside { s with inbox := rest } ha

end Sys2Proof.Machine
end

section
/-! SUPPORT. How near a running transaction is to its end (rules R119, R131, R166): every turn of the block ends it,
brings it nearer, or is stuck (rule R49); and the obligation about the end of every transaction. -/

namespace Sys2Proof.Machine

/-! ## The turns left -/

/-- The most turns a transaction still takes after the next one. ENCODE's are rule R119's, counted down by IN_POS and
OUT_POS; DECODE's are 2L until n is known, which D_CHECK bounds by L. -/
def turnsLeft (s : State) : Nat :=
  match s.phase with
  | .idle => 0
  | .eCheck => 4 + 2 * s.count.toNat + payload s.count.toNat
  | .eValidate => 3 + 2 * s.count.toNat + payload s.count.toNat - s.inPos.toNat / 4
  | .eHeader | .eLoad | .eEmit | .eFlush =>
    3 + s.count.toNat + payload s.count.toNat - (s.inPos.toNat / 4 + s.outPos.toNat)
  | .dCheck0 => 5 + 2 * s.srcLen.toNat
  | .dHeader | .dCheck => 4 + 2 * s.srcLen.toNat - s.inPos.toNat
  | .dFill | .dExtract => 3 + s.count.toNat + payload s.count.toNat - (s.inPos.toNat + s.outPos.toNat / 4)

/-- What a state needs for its transaction to end: of the invariant, the part that says how far it has come. -/
structure Underway (s : State) : Prop where
  phase : s.phase ≠ .idle
  held : s.held.toNat ≤ 16
  inv : phaseInv s = true

/-- From s to t the transaction has ended or come nearer to its end. -/
def Advances (s t : State) : Prop := t.busy = false ∨ (Underway t ∧ turnsLeft t < turnsLeft s)

/-! ## The micro-steps of ENCODE -/

theorem microECheck_advances {s t : State} (hp : s.phase = .eCheck) (h : Underway s) (hm : microECheck s = .next t) :
    Advances s t := by
  obtain ⟨hop, hcnt, hin, hout, hh⟩ := (phaseInv_eCheck hp).1 h.inv
  obtain ⟨-, e⟩ | ⟨-, _, -, e⟩ | ⟨h0, hc, e⟩ := microECheck_cases s <;> cases e.symm.trans hm
  · exact .inl rfl
  · exact .inl rfl
  · have hck : encodeChecked s = true := (encodeChecked_iff s).2 ⟨hop, hcnt, fun e => h0 (by simp [e]), hc⟩
    have hi0 : s.inPos.toNat = 0 := by simp [hin]
    refine .inr ⟨⟨by simp, h.held, (phaseInv_eValidate rfl).2 ⟨hck, ?_, ?_, hout, hh⟩⟩, ?_⟩
    · simp [hin]
    · show s.inPos.toNat < 4 * s.count.toNat
      omega
    · simp only [turnsLeft, payload, hp]
      omega

theorem microEValidate_advances {s t : State} (hp : s.phase = .eValidate) (h : Underway s)
    (hm : microEValidate s = .next t) : Advances s t := by
  obtain ⟨hck, h4, hin, hout, hh⟩ := (phaseInv_eValidate hp).1 h.inv
  obtain ⟨-, -, hsrc, -⟩ := encodeChecked_bounds hck
  have hnext : (s.inPos + 4#32).toNat = s.inPos.toNat + 4 := toNat_add_pos (by omega)
  have ho0 : s.outPos.toNat = 0 := by simp [hout]
  obtain ⟨w, n, -, ⟨-, rfl⟩ | ⟨-, rfl⟩⟩ := microEValidate_cases hm
  · obtain ⟨-, e⟩ | ⟨hne, e⟩ := validateNext_cases { s with draws := n } <;> rw [e]
    · refine .inr ⟨⟨by simp, h.held, (phaseInv_eHeader rfl).2 ⟨hck, rfl, by simp [hout], hh⟩⟩, ?_⟩
      simp only [turnsLeft, payload, hp, BitVec.toNat_ofNat]
      omega
    · replace hne : (s.inPos + 4#32).toNat ≠ 4 * s.count.toNat := hne
      refine .inr ⟨⟨by simp [hp], h.held, (phaseInv_eValidate (by exact hp)).2 ⟨hck, ?_, ?_, hout, hh⟩⟩, ?_⟩
      · simp only [hnext]
        omega
      · simp only [hnext]
        omega
      · simp only [turnsLeft, payload, hp, hnext]
        omega
  · exact .inl rfl

theorem microEHeader_advances {s t : State} (hp : s.phase = .eHeader) (h : Underway s)
    (hm : microEHeader s = .next t) : Advances s t := by
  obtain ⟨hck, hin, hout, hh⟩ := (phaseInv_eHeader hp).1 h.inv
  obtain ⟨-, hpos, -, -⟩ := encodeChecked_bounds hck
  have hnext : (s.outPos + 1#32).toNat = s.outPos.toNat + 1 := toNat_add_pos (by omega)
  have hi0 : s.inPos.toNat = 0 := by simp [hin]
  obtain ⟨-, -, v, n, l, rfl, -⟩ := microEHeader_cases hm
  obtain ⟨h4, e⟩ | ⟨h4, e⟩ := headerNext_cases _ <;> rw [e]
  · replace h4 : (s.outPos + 1#32).toNat = 4 := h4
    refine .inr ⟨⟨by simp, h.held, (phaseInv_eLoad rfl).2 ⟨hck, (packedSoFar_iff _).2 ⟨?_, ?_, ?_⟩, ?_, ?_⟩⟩, ?_⟩
    · simp [hin]
    · exact h4.ge
    · simp [h4, hin, hh]
    · simpa [hin] using hpos
    · simp [hh]
    · simp only [turnsLeft, payload, hp, hnext]
      omega
  · replace h4 : (s.outPos + 1#32).toNat ≠ 4 := h4
    refine .inr ⟨⟨by simp [hp], h.held, (phaseInv_eHeader (by exact hp)).2 ⟨hck, hin, ?_, hh⟩⟩, ?_⟩
    · simp only [hnext]
      omega
    · simp only [turnsLeft, payload, hp, hnext]
      omega

theorem microELoad_advances {s t : State} (hp : s.phase = .eLoad) (h : Underway s) (hm : microELoad s = .next t) :
    Advances s t := by
  obtain ⟨hck, hpk, hin, hh⟩ := (phaseInv_eLoad hp).1 h.inv
  obtain ⟨h4, hout, hbits⟩ := (packedSoFar_iff s).1 hpk
  obtain ⟨-, -, hsrc, -⟩ := encodeChecked_bounds hck
  obtain ⟨g, n, -, rfl⟩ := microELoad_cases hm
  have hnext : (s.inPos + 4#32).toNat = s.inPos.toNat + 4 := toNat_add_pos (by omega)
  have hheld : (push9 g { s with draws := n }).held.toNat = s.held.toNat + 9 := push9_held g _ hh
  refine .inr ⟨⟨by simp, ?_, (phaseInv_eEmit rfl).2 ⟨hck, (packedSoFar_iff _).2 ⟨?_, hout, ?_⟩, ?_, ?_⟩⟩, ?_⟩
  · simp only [hheld]
    omega
  · simp only [hnext]
    omega
  · simp only [hnext, hheld, push9_fields]
    omega
  · simp only [hnext, push9_fields]
    omega
  · simp only [hheld]
    omega
  · simp only [turnsLeft, payload, hp, hnext, push9_fields]
    omega

/-- Where E_EMIT leads: a phase with its clause, while bits are held or elements left to take, or the end (rule R115). -/
theorem emitNext_advances {s u : State} (hh : u.held.toNat ≤ 16) (hck : encodeChecked u = true)
    (hpk : packedSoFar u = true) (hin : u.inPos.toNat ≤ 4 * u.count.toNat)
    (hs : turnsLeft s = 4 + u.count.toNat + payload u.count.toNat - (u.inPos.toNat / 4 + u.outPos.toNat)) :
    Advances s (emitNext u) := by
  obtain ⟨h4, hout, hbits⟩ := (packedSoFar_iff u).1 hpk
  have hlt (hgo : 0 < u.held.toNat ∨ u.inPos.toNat < 4 * u.count.toNat) :
      3 + u.count.toNat + payload u.count.toNat - (u.inPos.toNat / 4 + u.outPos.toNat) < turnsLeft s := by
    rw [hs, payload]
    omega
  obtain ⟨h8, e⟩ | ⟨h8, hlo, e⟩ | ⟨h0, h8, hge, e⟩ | ⟨-, e⟩ := emitNext_cases u <;> rw [e]
  · exact .inr ⟨⟨by simp, hh, (phaseInv_eEmit rfl).2 ⟨hck, hpk, hin, h8⟩⟩, hlt (.inl (by omega))⟩
  · exact .inr ⟨⟨by simp, hh, (phaseInv_eLoad rfl).2 ⟨hck, hpk, hlo, Nat.le_of_lt_succ h8⟩⟩, hlt (.inr hlo)⟩
  · exact .inr ⟨⟨by simp, hh,
      (phaseInv_eFlush rfl).2 ⟨hck, hpk, le_antisymm hin hge, h0, Nat.le_of_lt_succ h8⟩⟩, hlt (.inl h0)⟩
  · exact .inl rfl

theorem microEEmit_advances {s t : State} (hp : s.phase = .eEmit) (h : Underway s) (hm : microEEmit s = .next t) :
    Advances s t := by
  obtain ⟨hck, hpk, hin, h8⟩ := (phaseInv_eEmit hp).1 h.inv
  obtain ⟨h4, hout, hbits⟩ := (packedSoFar_iff s).1 hpk
  obtain ⟨-, -, hsrc, hdst⟩ := encodeChecked_bounds hck
  have hnext : (s.outPos + 1#32).toNat = s.outPos.toNat + 1 := toNat_add_pos (by omega)
  have hheld := emit8_held s h8
  have hle := h.held
  obtain ⟨-, -, v, n, l, rfl, -⟩ := microEEmit_cases hm
  refine emitNext_advances ?_ hck ((packedSoFar_iff _).2 ⟨h4, ?_, ?_⟩) hin ?_
  · simp only [hheld]
    omega
  · simp only [hnext]
    omega
  · simp only [hnext, hheld, emit8_fields]
    omega
  · simp only [turnsLeft, payload, hp, hnext, emit8_fields]
    omega

/-! ## The micro-steps of DECODE -/

theorem microDCheck0_advances {s t : State} (hp : s.phase = .dCheck0) (h : Underway s)
    (hm : microDCheck0 s = .next t) : Advances s t := by
  obtain ⟨hop, hcnt, hin, hout, hh⟩ := (phaseInv_dCheck0 hp).1 h.inv
  obtain ⟨-, e⟩ | ⟨-, _, -, e⟩ | ⟨-, hc, e⟩ := microDCheck0_cases s <;> cases e.symm.trans hm
  · exact .inl rfl
  · exact .inl rfl
  · have hck : decodeChecked0 s = true := (decodeChecked0_iff s).2 ⟨hop, hc⟩
    refine .inr ⟨⟨by simp, h.held, (phaseInv_dHeader rfl).2 ⟨hck, ?_, hout, hh, ?_⟩⟩, ?_⟩
    · simp [hin]
    · simp [hcnt]
    · simp only [turnsLeft, hp]
      omega

theorem microDHeader_advances {s t : State} (hp : s.phase = .dHeader) (h : Underway s)
    (hm : microDHeader s = .next t) : Advances s t := by
  obtain ⟨hck, hin, hout, hh, hcnt⟩ := (phaseInv_dHeader hp).1 h.inv
  have hnext : (s.inPos + 1#32).toNat = s.inPos.toNat + 1 := toNat_add_pos (by omega)
  obtain ⟨-, b, n, rfl⟩ := microDHeader_cases hm
  obtain ⟨h4, e⟩ | ⟨h4, e⟩ := headerShift_cases b { s with draws := n } <;> rw [e]
  · refine .inr ⟨⟨by simp, h.held, (phaseInv_dCheck rfl).2 ⟨hck, h4, hout, hh⟩⟩, ?_⟩
    simp only [turnsLeft, hp, hnext]
    omega
  · have hne : (s.inPos + 1#32).toNat ≠ 4 := fun e => h4 (BitVec.eq_of_toNat_eq e)
    have hb := b.isLt
    refine .inr ⟨⟨by simp [hp], h.held, (phaseInv_dHeader (by exact hp)).2 ⟨hck, ?_, hout, hh, ?_⟩⟩, ?_⟩
    · simp only [hnext]
      omega
    · simp only [hnext, BitVec.toNat_ofNat, pow_succ]
      omega
    · simp only [turnsLeft, hp, hnext]
      omega

/-- The checks passed, n and its payload are each below L (rule R97). -/
theorem microDCheck_advances {s t : State} (hp : s.phase = .dCheck) (h : Underway s) (hm : microDCheck s = .next t) :
    Advances s t := by
  obtain ⟨hck, hin, hout, hh⟩ := (phaseInv_dCheck hp).1 h.inv
  obtain ⟨_, -, e⟩ | ⟨-, -, e⟩ | ⟨hc, h0, e⟩ := microDCheck_cases s <;> cases e.symm.trans hm
  · exact .inl rfl
  · exact .inl rfl
  · obtain ⟨hlen, -⟩ := decodeCheck_none hc h0
    rw [payload] at hlen
    have hck : decodeChecked s = true := (decodeChecked_iff s).2 ⟨hck, fun e => h0 (by simp [e]), hc⟩
    have hi4 : s.inPos.toNat = 4 := by simp [hin]
    have ho0 : s.outPos.toNat = 0 := by simp [hout]
    have hh0 : s.held.toNat = 0 := by simp [hh]
    refine .inr ⟨⟨by simp, h.held, (phaseInv_dFill rfl).2 ⟨hck, (unpackedSoFar_iff s).2 ?_, ?_⟩⟩, ?_⟩
    · omega
    · simp [hh]
    · simp only [turnsLeft, payload, hp]
      omega

theorem microDFill_advances {s t : State} (hp : s.phase = .dFill) (h : Underway s) (hm : microDFill s = .next t) :
    Advances s t := by
  obtain ⟨hck, hun, hh⟩ := (phaseInv_dFill hp).1 h.inv
  obtain ⟨h4, hout, hin, hbits⟩ := (unpackedSoFar_iff s).1 hun
  obtain ⟨-, -, -, hlen⟩ := decodeChecked_bounds hck
  obtain ⟨-, rfl⟩ | ⟨-, -, b, n, rfl⟩ := microDFill_cases hm
  · exact .inl rfl
  · have hnext : (s.inPos + 1#32).toNat = s.inPos.toNat + 1 := toNat_add_pos (by omega)
    have hheld : (fill8 b { s with draws := n }).held.toNat = s.held.toNat + 8 := fill8_held b _ hh
    have hun' : unpackedSoFar { fill8 b { s with draws := n } with inPos := s.inPos + 1#32 } = true := by
      simp only [unpackedSoFar_iff, fill8_fields, hheld, hnext]
      omega
    have hh' : (fill8 b { s with draws := n }).held.toNat ≤ 16 := by omega
    obtain ⟨h9, e⟩ | ⟨h9, e⟩ := fillNext_cases (fill8 b { s with draws := n }) <;> rw [e]
    · refine .inr ⟨⟨by simp, hh', (phaseInv_dExtract rfl).2 ⟨hck, hun', h9⟩⟩, ?_⟩
      simp only [turnsLeft, payload, hp, hnext, fill8_fields]
      omega
    · refine .inr ⟨⟨by simp [hp], hh', (phaseInv_dFill (by exact hp)).2 ⟨hck, hun', Nat.le_of_lt_succ h9⟩⟩, ?_⟩
      simp only [turnsLeft, payload, hp, hnext, fill8_fields]
      omega

theorem microDExtract_advances {s t : State} (hp : s.phase = .dExtract) (h : Underway s)
    (hm : microDExtract s = .next t) : Advances s t := by
  obtain ⟨hck, hun, h9⟩ := (phaseInv_dExtract hp).1 h.inv
  obtain ⟨h4, hout, hin, hbits⟩ := (unpackedSoFar_iff s).1 hun
  obtain ⟨-, -, hdst, -⟩ := decodeChecked_bounds hck
  have hnext : (s.outPos + 4#32).toNat = s.outPos.toNat + 4 := toNat_add_pos (by omega)
  have hheld := pull9_held s h9
  have hh := h.held
  obtain ⟨-, -, v0, v1, v2, v3, n, l, rfl, -⟩ := microDExtract_cases hm
  obtain ⟨-, e⟩ | ⟨hne, e⟩ := extractNext_cases _ <;> rw [e]
  · exact .inl rfl
  · replace hne : (s.outPos + 4#32).toNat ≠ 4 * s.count.toNat := hne
    refine .inr ⟨⟨by simp, ?_, (phaseInv_dFill rfl).2 ⟨hck, (unpackedSoFar_iff _).2 ?_, ?_⟩⟩, ?_⟩
    · simp only [hheld]
      omega
    · simp only [hnext, hheld, pull9_fields]
      omega
    · simp only [hheld]
      omega
    · simp only [turnsLeft, payload, hp, hnext, pull9_fields]
      omega

/-! ## A turn of the block -/

/-- By the phase. -/
theorem microStep_advances {s t : State} (h : Underway s) (hm : microStep s = .next t) : Advances s t := by
  cases hp : s.phase <;> simp only [microStep, hp] at hm
  case idle => exact absurd hp h.phase
  case eCheck => exact microECheck_advances hp h hm
  case eValidate => exact microEValidate_advances hp h hm
  case eHeader => exact microEHeader_advances hp h hm
  case eLoad => exact microELoad_advances hp h hm
  case eEmit => exact microEEmit_advances hp h hm
  case eFlush =>
    obtain ⟨-, -, -, v, n, rfl, -⟩ := microEFlush_cases hm
    exact .inl rfl
  case dCheck0 => exact microDCheck0_advances hp h hm
  case dHeader => exact microDHeader_advances hp h hm
  case dCheck => exact microDCheck_advances hp h hm
  case dFill => exact microDFill_advances hp h hm
  case dExtract => exact microDExtract_advances hp h hm

/-- By the phase: an access the block cannot complete, and a broken precondition, are all that stops a micro-step. -/
theorem microStep_outcome (s : State) :
    (∃ t, microStep s = .next t) ∨ microStep s = .fault .stuckAccess ∨ microStep s = .fault .brokenPrecondition := by
  cases hp : s.phase <;> simp only [microStep, hp]
  case idle => exact .inl ⟨s, rfl⟩
  case eCheck => obtain ⟨-, e⟩ | ⟨-, _, -, e⟩ | ⟨-, -, e⟩ := microECheck_cases s <;> exact .inl ⟨_, e⟩
  case dCheck0 => obtain ⟨-, e⟩ | ⟨-, _, -, e⟩ | ⟨-, -, e⟩ := microDCheck0_cases s <;> exact .inl ⟨_, e⟩
  case dCheck => obtain ⟨_, -, e⟩ | ⟨-, -, e⟩ | ⟨-, -, e⟩ := microDCheck_cases s <;> exact .inl ⟨_, e⟩
  case eValidate =>
    unfold microEValidate
    split
    · simp
    · split <;> simp
  case eLoad =>
    unfold microELoad
    split <;> simp
  case dHeader =>
    unfold microDHeader
    split <;> simp
  case dFill =>
    unfold microDFill
    split
    · simp
    · split <;> simp
  case eHeader =>
    unfold microEHeader
    split
    · simp
    · split <;> simp
  case eEmit =>
    unfold microEEmit
    split
    · simp
    · split
      split <;> simp
  case eFlush =>
    unfold microEFlush
    split
    · simp
    · split
      split <;> simp
  case dExtract =>
    unfold microDExtract
    split
    · simp
    · split
      split <;> simp

theorem microStep_keeps_inbox {s t : State} (h : microStep s = .next t) : t.inbox = s.inbox := by
  obtain ⟨u, hu, rfl | rfl | ⟨e, i, v, rfl⟩⟩ := microStep_goesOnOrEnds h <;> exact hu.surroundings.2.1

/-- The block's turn in a transaction under way, with nothing else to come (rules R49, R105). -/
theorem step_advances {s : State} (hb : s.busy = true) (hin : s.inbox = []) (h : Underway s) :
    step s = .fault .stuckAccess ∨ ∃ t, step s = .next t ∧ t.inbox = [] ∧ Advances s t := by
  rw [step_busy hb hin]
  obtain ⟨t, ht⟩ | hstuck | hbroken := microStep_outcome s
  · exact .inr ⟨t, ht, (microStep_keeps_inbox ht).trans hin, microStep_advances h ht⟩
  · exact .inl hstuck
  · exact absurd (preconditionFails_of_microStep hbroken) (not_preconditionFails h.inv)

/-! ## The run of a transaction -/

theorem run_idle {s : State} (hb : s.busy = false) (hin : s.inbox = []) (k : Nat) :
    Host.Core.run Sys2Proof.core k s = .next s := by
  induction k with
  | zero => rfl
  | succ k ih => rw [run_succ (M := Sys2Proof.core) (step_blockTurn_idle (.inl ⟨hin, rfl⟩) hb), ih]

theorem run_stuck {M : Host.Core} {s : M.State} {r : M.Fault} (h : M.step s = .fault r) (k : Nat) :
    M.run (k + 1) s = .fault r := by
  simp [Host.Core.run, h]

/-- k turns end a transaction with fewer than k turns left after the next, or it is stuck in one of them. -/
theorem run_ends {s : State} {k : Nat} (hb : s.busy = true) (hin : s.inbox = []) (h : Underway s)
    (hk : turnsLeft s < k) :
    (∃ t, Host.Core.run Sys2Proof.core k s = .next t ∧ t.busy = false) ∨
      Host.Core.run Sys2Proof.core k s = .fault .stuckAccess := by
  induction k generalizing s with
  | zero => exact absurd hk (Nat.not_lt_zero _)
  | succ k ih =>
    obtain hs | ⟨t, hs, hint, hidle | ⟨ht, hlt⟩⟩ := step_advances hb hin h
    · exact .inr (run_stuck (M := Sys2Proof.core) hs k)
    · rw [run_succ (M := Sys2Proof.core) hs]
      exact .inl ⟨t, run_idle hidle hint k, hidle⟩
    · rw [run_succ (M := Sys2Proof.core) hs]
      rcases Bool.eq_false_or_eq_true t.busy with hbt | hbt
      · exact ih hbt hint ht (by omega)
      · exact .inl ⟨t, run_idle hbt hint k, hbt⟩

theorem underway_accept (c : Cmd) (s : State) : Underway (accept c s) := by
  cases c
  case encode => exact ⟨by simp, by simp, (phaseInv_eCheck rfl).2 ⟨rfl, rfl, rfl, rfl, rfl⟩⟩
  case decode => exact ⟨by simp, by simp, (phaseInv_dCheck0 rfl).2 ⟨rfl, rfl, rfl, rfl, rfl⟩⟩

/-- Settles O50: after acceptance fewer turns are left than the bound allows, and each turn ends the transaction, is stuck,
or leaves fewer. -/
theorem everyTransactionEnds : Obligations.EveryTransactionEnds := by
  intro s hb hin
  rw [(transaction_of_idle hb _).1, (transaction_of_idle hb _).2]
  refine ⟨run_ends rfl hin (underway_accept .encode s) ?_, run_ends rfl hin (underway_accept .decode s) ?_⟩
  · show 4 + 2 * s.srcLen.toNat + (9 * s.srcLen.toNat + 7) / 8 < _
    omega
  · show 5 + 2 * s.srcLen.toNat < _
    omega

end Sys2Proof.Machine
end
